-- ==== Sys2Proof/Word.lean ====
section
/-!
DEFINITION. The word types of the MARC4 core: the widths of 00_scope.md rule R2, and nothing else.
-/

namespace Sys2Proof

/-- A nibble, the machine's data word and the width of one RAM cell (00_scope.md R2). -/
abbrev Nibble := BitVec 4

/-- A ROM byte (00_scope.md R2). -/
abbrev Byte := BitVec 8

/-- An 8-bit RAM address: the width of SP, RP, X and Y (00_scope.md R2). -/
abbrev RamAddr := BitVec 8

/-- A 12-bit ROM address: the width of PC and of a Return Stack entry (00_scope.md R2). -/
abbrev RomAddr := BitVec 12

/-- One of the 16 port addresses (00_scope.md R2). -/
abbrev Port := BitVec 4

/-- An interrupt level, INT0 (lowest priority) to INT7 (highest) (00_scope.md R2). -/
abbrev Level := Fin 8

end Sys2Proof
end

