-- ==== Sys2Proof/Config.lean ====
section
/-!
DEFINITION. What the source leaves to the chip (`Chip`, 00_scope.md rule R3), and the free values:
constants with no body, so that nothing can be proved of what they are.
-/

namespace Sys2Proof.Config

/-- `RS_LAYOUT` (20_memory.md R47, 92_eei_decisions.md D3, OPEN): the offsets, out of 0 to 3, of the cells
that hold bits 11 to 8, 7 to 4 and 3 to 0 of a Return Stack entry. They are distinct; the fourth offset
is the cell that is "left unwritten". -/
structure RsLayout where
  oH : Fin 4
  oM : Fin 4
  oL : Fin 4
  distinct : oH ≠ oM ∧ oM ≠ oL ∧ oH ≠ oL
  deriving DecidableEq, Repr

/-- `IN_BRANCH_OPERAND` (47_memory_io.md R240, 92_eei_decisions.md D11, OPEN): what IN tests for zero, the
port address (the literal text) or the nibble read. -/
inductive InBranchOperand where
  | port
  | data
  deriving DecidableEq, Repr

/-- The quantities that differ between members of the family (00_scope.md R3). -/
structure Chip where
  /-- `ROM_SIZE`: bytes present, counted base bank first, then bank 1, bank 2, ... -/
  romSize : Nat
  /-- `ROM_BANKS`: how many 2-Kbyte banks there are for 800h to FFFh. -/
  romBanks : Nat
  /-- `RAM_SIZE`: RAM cells present, from address 00h up. -/
  ramSize : Nat
  /-- `RS_LAYOUT`. -/
  rsLayout : RsLayout
  /-- `IN_BRANCH_OPERAND`. -/
  inBranch : InBranchOperand
  /-- `RBR_ACCESS`: the port whose OUT writes the ROM bank register, if the chip has one
  (92_eei_decisions.md D16). -/
  rbrPort : Option Port
  deriving DecidableEq, Repr

/-- The chip of 00_scope.md R3's column "default for a model". R3 gives `RS_LAYOUT` no default: the one
here is a DESIGN CHOICE (log entry 7). -/
def defaultChip : Chip where
  romSize := 4096
  romBanks := 1
  ramSize := 256
  rsLayout := { oH := 0, oM := 1, oL := 2, distinct := by decide }
  inBranch := .port
  rbrPort := none

/-! Free values. Each is applied to the number of the draw (`State.draws`), so that every use is a value
of its own. -/

/-- `C` after a compare (41_compare.md R120, 93_implementation_defined.md U4; log entry 13). -/
opaque freeCarry : Nat → Bool

/-- `CCR2` after an instruction whose flags column marks it `x` (10_state.md R25, U5; log entry 14). -/
opaque freeCcr2 : Nat → Bool

/-- `TOS` after SP! (45_register.md R184, U6; log entry 15). -/
opaque freeTos : Nat → Nibble

/-- A nibble of a Return Stack entry that the push or DECR does not define; the second argument is its
place, 2 for bits 11 to 8 and 1 for bits 7 to 4 (10_state.md R18, U3; log entry 16). -/
opaque freeRsNibble : Nat → Nat → Nibble

/-- The nibble the environment answers for a port (20_memory.md R52, 92_eei_decisions.md D12; log
entry 17). -/
opaque portNibble : Nat → Port → Nibble

/-- `TOS` after a reset of a running machine (10_state.md R32, D17; log entry 18). -/
opaque resetTos : Nat → Nibble

/-- `SP` after a reset of a running machine (log entry 18). -/
opaque resetSp : Nat → RamAddr

/-- `RP` after a reset of a running machine (log entry 18). -/
opaque resetRp : Nat → RamAddr

/-- `X` after a reset of a running machine (log entry 18). -/
opaque resetX : Nat → RamAddr

/-- `Y` after a reset of a running machine (log entry 18). -/
opaque resetY : Nat → RamAddr

/-- `C` after a reset of a running machine (log entry 18). -/
opaque resetC : Nat → Bool

/-- `CCR2` after a reset of a running machine (log entry 18). -/
opaque resetCcr2 : Nat → Bool

/-- `B` after a reset of a running machine (log entry 18). -/
opaque resetB : Nat → Bool

/-- `RBR` bits 1 and 0 after a reset of a running machine (log entry 18). -/
opaque resetRbrLow : Nat → BitVec 2

/-- The RAM cell at an address after a reset of a running machine (log entry 18). -/
opaque resetRam : Nat → Nat → Nibble

end Sys2Proof.Config
end

