-- ==== Sys2Proof/Syntax.lean ====
section
/-!
DEFINITION. The instructions: one constructor for each row of spec/opcode_table.json, in the table's order
(30_encoding.md rule R77). No operand but the immediates of rules R72 to R75 stands in an instruction (R76).
-/

namespace Sys2Proof

inductive Instr where
  -- 00h to 0Fh
  | add | addc | sub | subb | xor | and
  | cmpEq | cmpNe | cmpLt | cmpLe | cmpGt | cmpGe
  | or
  /-- `CCR@` -/
  | ccrFetch
  /-- `CCR!` -/
  | ccrStore
  | sleep
  -- 10h to 1Fh
  | shl | rol | shr | ror | inc | dec | daa | not
  | togBf | setBcf | di
  /-- `IN` -/
  | inPort
  | decr | rti | swi
  /-- `OUT` -/
  | outPort
  -- 20h to 2Fh
  | table
  /-- code 21h, to which the source assigns no instruction (30_encoding.md R79) -/
  | unassigned21
  /-- `>R` -/
  | toR
  /-- `I`, also written `R@` -/
  | rCopy
  /-- code 24h, to which the source assigns no instruction (30_encoding.md R79) -/
  | unassigned24
  | exit | swap
  /-- `OVER` -/
  | overCopy
  /-- `2>R` -/
  | twoToR
  /-- `3>R` -/
  | threeToR
  /-- `2R@` -/
  | twoRCopy
  /-- `3R@` -/
  | threeRCopy
  | rot | dup | drop | dropr
  -- 30h to 3Fh
  /-- `[X]@` -/
  | fetchX
  /-- `[+X]@` -/
  | fetchIncX
  /-- `[X-]@` -/
  | fetchXDec
  /-- `[>X]@ $xx` -/
  | fetchDirX (addr : RamAddr)
  /-- `[Y]@` -/
  | fetchY
  /-- `[+Y]@` -/
  | fetchIncY
  /-- `[Y-]@` -/
  | fetchYDec
  /-- `[>Y]@ $xx` -/
  | fetchDirY (addr : RamAddr)
  /-- `[X]!` -/
  | storeX
  /-- `[+X]!` -/
  | storeIncX
  /-- `[X-]!` -/
  | storeXDec
  /-- `[>X]! $xx` -/
  | storeDirX (addr : RamAddr)
  /-- `[Y]!` -/
  | storeY
  /-- `[+Y]!` -/
  | storeIncY
  /-- `[Y-]!` -/
  | storeYDec
  /-- `[>Y]! $xx` -/
  | storeDirY (addr : RamAddr)
  -- 40h to 6Fh
  /-- `CALL $xxx` -/
  | call (target : RomAddr)
  /-- `BRA $xxx` -/
  | bra (target : RomAddr)
  /-- `LIT_n` -/
  | lit (n : Nibble)
  -- 70h to 7Fh
  /-- `SP@` -/
  | getSp
  /-- `RP@` -/
  | getRp
  /-- `X@` -/
  | getX
  /-- `Y@` -/
  | getY
  /-- `SP!` -/
  | setSp
  /-- `RP!` -/
  | setRp
  /-- `X!` -/
  | setX
  /-- `Y!` -/
  | setY
  /-- `>SP $xx` -/
  | loadSp (addr : RamAddr)
  /-- `>RP $xx` -/
  | loadRp (addr : RamAddr)
  /-- `>X $xx` -/
  | loadX (addr : RamAddr)
  /-- `>Y $xx` -/
  | loadY (addr : RamAddr)
  | nop
  /-- code 7Dh, "NOP Illegal instruction" -/
  | nop7D
  /-- code 7Eh, "NOP Illegal instruction" -/
  | nop7E
  /-- code 7Fh, "NOP Illegal instruction" -/
  | nop7F
  -- 80h to FFh
  /-- `SBRA $xxx`: address bits 5 to 0 inside the page -/
  | sbra (a : BitVec 6)
  /-- `SCALL $xxx`: the target is `a * 8` -/
  | scall (a : BitVec 6)
  deriving DecidableEq, Repr

end Sys2Proof
end

