-- ==== Sys2Proof/WellFormed.lean ====
section
/-!
DEFINITION. Which terms of `Instr` are instructions of the MARC4.

The immediates have the widths of the encoding's fields, and "every value of every field of rules R72 to R75
is legal" (30_encoding.md R81), so no operand can be ill-formed. What can be is the code itself: 21h and 24h
are rows of the opcode map to which the source assigns no instruction (R79).
-/

namespace Sys2Proof

/-- The term is an instruction the source assigns: any but the two unassigned codes (30_encoding.md R79). -/
def Instr.wellFormed (i : Instr) : Bool :=
  i != .unassigned21 && i != .unassigned24

end Sys2Proof
end

