-- ==== Sys2Proof/Decode.lean ====
section
/-!
DEFINITION. The decoder (30_encoding.md rules R70 to R80) and, after it, the encoder written from the same
opcode map. Every first byte selects one row of the map, so the decoder's only refusals are for bytes that
are not there.
-/

namespace Sys2Proof

/-- How many bytes the instruction with first byte `b` has (30_encoding.md R70). -/
def opLength (b : Byte) : Nat :=
  if b &&& 0xF0#8 = 0x40#8 ∨ b &&& 0xF0#8 = 0x50#8 ∨ b &&& 0xF3#8 = 0x33#8 ∨ b &&& 0xFC#8 = 0x78#8 then 2
  else 1

/-- The rows of the opcode map with codes 00h to 3Fh and 70h to 7Fh, whose eight bits are all opcode
(30_encoding.md R71, R75, R77). `decodeOp` asks it about no other code, and of those only 7Fh is left for the
last line. -/
def decodeZeroAddress (b0 b1 : Byte) : Instr :=
  match b0 with
  | 0x00#8 => .add
  | 0x01#8 => .addc
  | 0x02#8 => .sub
  | 0x03#8 => .subb
  | 0x04#8 => .xor
  | 0x05#8 => .and
  | 0x06#8 => .cmpEq
  | 0x07#8 => .cmpNe
  | 0x08#8 => .cmpLt
  | 0x09#8 => .cmpLe
  | 0x0A#8 => .cmpGt
  | 0x0B#8 => .cmpGe
  | 0x0C#8 => .or
  | 0x0D#8 => .ccrFetch
  | 0x0E#8 => .ccrStore
  | 0x0F#8 => .sleep
  | 0x10#8 => .shl
  | 0x11#8 => .rol
  | 0x12#8 => .shr
  | 0x13#8 => .ror
  | 0x14#8 => .inc
  | 0x15#8 => .dec
  | 0x16#8 => .daa
  | 0x17#8 => .not
  | 0x18#8 => .togBf
  | 0x19#8 => .setBcf
  | 0x1A#8 => .di
  | 0x1B#8 => .inPort
  | 0x1C#8 => .decr
  | 0x1D#8 => .rti
  | 0x1E#8 => .swi
  | 0x1F#8 => .outPort
  | 0x20#8 => .table
  | 0x21#8 => .unassigned21
  | 0x22#8 => .toR
  | 0x23#8 => .rCopy
  | 0x24#8 => .unassigned24
  | 0x25#8 => .exit
  | 0x26#8 => .swap
  | 0x27#8 => .overCopy
  | 0x28#8 => .twoToR
  | 0x29#8 => .threeToR
  | 0x2A#8 => .twoRCopy
  | 0x2B#8 => .threeRCopy
  | 0x2C#8 => .rot
  | 0x2D#8 => .dup
  | 0x2E#8 => .drop
  | 0x2F#8 => .dropr
  | 0x30#8 => .fetchX
  | 0x31#8 => .fetchIncX
  | 0x32#8 => .fetchXDec
  | 0x33#8 => .fetchDirX b1
  | 0x34#8 => .fetchY
  | 0x35#8 => .fetchIncY
  | 0x36#8 => .fetchYDec
  | 0x37#8 => .fetchDirY b1
  | 0x38#8 => .storeX
  | 0x39#8 => .storeIncX
  | 0x3A#8 => .storeXDec
  | 0x3B#8 => .storeDirX b1
  | 0x3C#8 => .storeY
  | 0x3D#8 => .storeIncY
  | 0x3E#8 => .storeYDec
  | 0x3F#8 => .storeDirY b1
  | 0x70#8 => .getSp
  | 0x71#8 => .getRp
  | 0x72#8 => .getX
  | 0x73#8 => .getY
  | 0x74#8 => .setSp
  | 0x75#8 => .setRp
  | 0x76#8 => .setX
  | 0x77#8 => .setY
  | 0x78#8 => .loadSp b1
  | 0x79#8 => .loadRp b1
  | 0x7A#8 => .loadX b1
  | 0x7B#8 => .loadY b1
  | 0x7C#8 => .nop
  | 0x7D#8 => .nop7D
  | 0x7E#8 => .nop7E
  | _ => .nop7F

/-- The instruction with first byte `b0` and, where it has one, second byte `b1` (30_encoding.md R78). -/
def decodeOp (b0 b1 : Byte) : Instr :=
  if b0.extractLsb' 6 2 = 0b11#2 then .scall (b0.extractLsb' 0 6)
  else if b0.extractLsb' 6 2 = 0b10#2 then .sbra (b0.extractLsb' 0 6)
  else if b0.extractLsb' 4 4 = 0x4#4 then .call (b0.extractLsb' 0 4 ++ b1)
  else if b0.extractLsb' 4 4 = 0x5#4 then .bra (b0.extractLsb' 0 4 ++ b1)
  else if b0.extractLsb' 4 4 = 0x6#4 then .lit (b0.extractLsb' 0 4)
  else decodeZeroAddress b0 b1

/-- Why bytes are no instruction. -/
inductive DecodeError where
  /-- there is no first byte -/
  | noBytes
  /-- the first byte asks for a second one (30_encoding.md R70) and there is none -/
  | secondByteMissing (first : Byte)
  deriving DecidableEq, Repr

/-- The instruction at the head of `bytes`, and the bytes after it. -/
def decode (bytes : List Byte) : Except DecodeError (Instr × List Byte) :=
  match bytes with
  | [] => .error .noBytes
  | b0 :: rest =>
    if opLength b0 = 2 then
      match rest with
      | [] => .error (.secondByteMissing b0)
      | b1 :: rest' => .ok (decodeOp b0 b1, rest')
    else .ok (decodeOp b0 0#8, rest)

/-- The bytes of an instruction, the first at the lower ROM address (20_memory.md R46, 30_encoding.md R77). -/
def encode (i : Instr) : List Byte :=
  match i with
  | .add => [0x00#8]
  | .addc => [0x01#8]
  | .sub => [0x02#8]
  | .subb => [0x03#8]
  | .xor => [0x04#8]
  | .and => [0x05#8]
  | .cmpEq => [0x06#8]
  | .cmpNe => [0x07#8]
  | .cmpLt => [0x08#8]
  | .cmpLe => [0x09#8]
  | .cmpGt => [0x0A#8]
  | .cmpGe => [0x0B#8]
  | .or => [0x0C#8]
  | .ccrFetch => [0x0D#8]
  | .ccrStore => [0x0E#8]
  | .sleep => [0x0F#8]
  | .shl => [0x10#8]
  | .rol => [0x11#8]
  | .shr => [0x12#8]
  | .ror => [0x13#8]
  | .inc => [0x14#8]
  | .dec => [0x15#8]
  | .daa => [0x16#8]
  | .not => [0x17#8]
  | .togBf => [0x18#8]
  | .setBcf => [0x19#8]
  | .di => [0x1A#8]
  | .inPort => [0x1B#8]
  | .decr => [0x1C#8]
  | .rti => [0x1D#8]
  | .swi => [0x1E#8]
  | .outPort => [0x1F#8]
  | .table => [0x20#8]
  | .unassigned21 => [0x21#8]
  | .toR => [0x22#8]
  | .rCopy => [0x23#8]
  | .unassigned24 => [0x24#8]
  | .exit => [0x25#8]
  | .swap => [0x26#8]
  | .overCopy => [0x27#8]
  | .twoToR => [0x28#8]
  | .threeToR => [0x29#8]
  | .twoRCopy => [0x2A#8]
  | .threeRCopy => [0x2B#8]
  | .rot => [0x2C#8]
  | .dup => [0x2D#8]
  | .drop => [0x2E#8]
  | .dropr => [0x2F#8]
  | .fetchX => [0x30#8]
  | .fetchIncX => [0x31#8]
  | .fetchXDec => [0x32#8]
  | .fetchDirX a => [0x33#8, a]
  | .fetchY => [0x34#8]
  | .fetchIncY => [0x35#8]
  | .fetchYDec => [0x36#8]
  | .fetchDirY a => [0x37#8, a]
  | .storeX => [0x38#8]
  | .storeIncX => [0x39#8]
  | .storeXDec => [0x3A#8]
  | .storeDirX a => [0x3B#8, a]
  | .storeY => [0x3C#8]
  | .storeIncY => [0x3D#8]
  | .storeYDec => [0x3E#8]
  | .storeDirY a => [0x3F#8, a]
  | .call t => [0x4#4 ++ t.extractLsb' 8 4, t.extractLsb' 0 8]
  | .bra t => [0x5#4 ++ t.extractLsb' 8 4, t.extractLsb' 0 8]
  | .lit n => [0x6#4 ++ n]
  | .getSp => [0x70#8]
  | .getRp => [0x71#8]
  | .getX => [0x72#8]
  | .getY => [0x73#8]
  | .setSp => [0x74#8]
  | .setRp => [0x75#8]
  | .setX => [0x76#8]
  | .setY => [0x77#8]
  | .loadSp a => [0x78#8, a]
  | .loadRp a => [0x79#8, a]
  | .loadX a => [0x7A#8, a]
  | .loadY a => [0x7B#8, a]
  | .nop => [0x7C#8]
  | .nop7D => [0x7D#8]
  | .nop7E => [0x7E#8]
  | .nop7F => [0x7F#8]
  | .sbra a => [0b10#2 ++ a]
  | .scall a => [0b11#2 ++ a]

/-- The two bytes of an instruction whose `nbits` table bits are `w`, bit 0 the least significant bit of the
first byte; the bits above `nbits` are 0. -/
def tableBytes (nbits w : Nat) : Byte × Byte :=
  (BitVec.ofNat 8 (w % 2 ^ nbits), BitVec.ofNat 8 (w % 2 ^ nbits / 256))

/-- What the decoder reads from the table's bits (the host's question about a row). -/
def decodeTableWord (nbits w : Nat) : Option Instr :=
  match decode [(tableBytes nbits w).1, (tableBytes nbits w).2] with
  | .ok (i, _) => some i
  | .error _ => none

end Sys2Proof
end

