-- ==== Sys2Proof/Machine/State.lean ====
section
/-!
DEFINITION. The state of the MARC4 core (10_state.md), why a step can stop, and the state after reset.
-/

namespace Sys2Proof.Machine

/-- The condition code register (10_state.md R21): `C` bit 3, `CCR2` bit 2 ("reserved, currently unused"), `B`
bit 1, `I` bit 0. The four bits are the whole register; `Ccr.toNibble` is its image on the Expression Stack. -/
structure Ccr where
  /-- Carry / Borrow -/
  c : Bool
  /-- bit 2, reserved -/
  ccr2 : Bool
  /-- Branch -/
  b : Bool
  /-- Interrupt Enable -/
  i : Bool
  deriving DecidableEq, Repr

/-- What the environment does at an instruction boundary. -/
inductive EnvEvent where
  /-- interrupt requests, bit k for INTk; 0 is a boundary at which nothing is requested (60_exceptions.md R253) -/
  | request (levels : BitVec 8)
  /-- one of the four reset triggers (70_reset_and_hazards.md R290) -/
  | reset
  deriving DecidableEq, Repr

/-- The machine: the state of 10_state.md R10, program memory, and after them the model's own fields. -/
structure State where
  /-- program counter (R11) -/
  pc : RomAddr
  /-- top of Expression Stack (R13) -/
  tos : Nibble
  /-- Expression Stack pointer, the address of TOS-1 (R14) -/
  sp : RamAddr
  /-- Return Stack pointer (R17) -/
  rp : RamAddr
  /-- RAM address register X (R20) -/
  x : RamAddr
  /-- RAM address register Y (R20) -/
  y : RamAddr
  /-- condition code register (R21) -/
  ccr : Ccr
  /-- Interrupt Pending Register, bit k for INTk (R26) -/
  ipr : BitVec 8
  /-- Interrupt Active Register, bit k for INTk (R27) -/
  iar : BitVec 8
  /-- ROM bank register (R28) -/
  rbr : BitVec 4
  /-- the core is stopped in sleep mode (R29) -/
  asleep : Bool
  /-- RAM cells (20_memory.md R40): address and nibble, in the canonical form of `MemWf` -/
  ram : List (Nat × Nibble)
  /-- ROM bytes (20_memory.md R43, R44): place in the image (`State.romIndex`) and byte, in the same form -/
  rom : List Host.Cell
  /-- the chip's parameters (00_scope.md R3); no step changes them -/
  chip : Config.Chip
  /-- model's own: how many free values have been drawn -/
  draws : Nat
  /-- model's own: what the environment does at the coming boundaries; nothing once the list is empty -/
  env : List EnvEvent
  /-- model's own: the `PortWrite` events so far, oldest first, as port and nibble (20_memory.md R52) -/
  out : List (Port × Nibble)
  /-- model's own: an observer's count of machine cycles (70_reset_and_hazards.md R300); nothing reads it -/
  cycles : Nat
  deriving DecidableEq, Repr

/-- Accesses to memory that is not there. The MARC4 itself has no synchronous fault (60_exceptions.md R250): the
MODEL stops, because the spec defines no successor. -/
inductive Fault where
  /-- A RAM access, through SP, RP, X or Y, at or above `RAM_SIZE`. Raised by `State.ramRead` and
  `State.ramWrite` (93_implementation_defined.md U16). Safe: the model stops where a chip would go on. -/
  | ramAbsent (addr : RamAddr)
  /-- A fetch or a TABLE read where no ROM is implemented. Raised by `State.romRead` (U15). Safe: as above. -/
  | romAbsent (addr : RomAddr)
  deriving DecidableEq, Repr

/-- Situations in which the spec's rules say that the step is refused. -/
inductive Refusal where
  /-- An instruction whose meaning is not written yet; raised by `exec`'s arms only. Safe. -/
  | notModelled (mnemonic : String)
  /-- Codes 21h and 24h. Raised by `execUnassigned21` and `execUnassigned24` (30_encoding.md R79, U1). Safe. -/
  | unassignedCode (code : Byte)
  /-- SWI with an operand outside 0, 1, 2, 4, 8. Raised by `execSwi` (44_branch_system.md R168, U8). Safe. -/
  | swiOperand (n1 n2 : Nibble)
  /-- A taken SBRA at offset 3Fh of a page. Raised by `State.pageTarget` (R162, U9). Safe. -/
  | sbraAtPageEnd (addr : RomAddr)
  /-- A fetch or store through X or Y at the cell the same instruction spills TOS to or refills it from. Raised by
  `State.fetchVia` and `State.storeVia` (47_memory_io.md R237, U10). Safe. -/
  | stackCellCollision (addr : RamAddr)
  /-- A Return Stack access with RP not a multiple of 4. Raised by `State.rsRead` and `State.rsWrite`
  (20_memory.md R49, U11). Safe. -/
  | rpUnaligned (addr : RamAddr)
  /-- A write of RBR while the program runs in 800h to FFFh. Raised by `State.portWrite` (U14,
  92_eei_decisions.md D16). Safe. -/
  | bankSwitchInBank (pc : RomAddr)
  deriving DecidableEq, Repr

/-- Why an operation answers no state. -/
inductive Stop where
  | fault (f : Fault)
  | refused (r : Refusal)
  deriving DecidableEq, Repr

/-- The answer of an operation that can stop. -/
abbrev Res (α : Type) := Except Stop α

/-- What an instruction boundary comes to (60_exceptions.md R257). -/
inductive Boundary where
  /-- the boundary was all of the step: a reset, an acknowledge, or a core that stays asleep -/
  | settled (s : State)
  /-- the instruction `i`, fetched at `s.pc`, executes in `s` -/
  | execute (i : Instr) (s : State)
  /-- the step has no successor -/
  | stopped (r : Stop)
  deriving DecidableEq, Repr

/-- The machine right after a power-on reset, when the first instruction is about to be fetched (10_state.md R32,
70_reset_and_hazards.md R290). The spec gives PC, `I`, IPR, IAR, RBR bits 3 and 2, and `asleep`; TOS, SP, RP, X, Y,
`C`, `B`, `CCR2` and RBR bits 1 and 0 are unspecified there and hold the values of log entry 2. -/
def State.reset : State where
  pc := 0x008#12
  tos := 0#4
  sp := 0x15#8
  rp := 0xFC#8
  x := 0x00#8
  y := 0x00#8
  ccr := { c := false, ccr2 := false, b := false, i := false }
  ipr := 0x00#8
  iar := 0x00#8
  rbr := 0#4
  asleep := false
  ram := []
  rom := []
  chip := Config.defaultChip
  draws := 0
  env := []
  out := []
  cycles := 0

end Sys2Proof.Machine
end

