-- ==== Sys2Proof/Machine/Ops.lean ====
section
/-!
DEFINITION. The named operations every meaning is written over: memory, the two stacks, the ports, the program
counter, the interrupt controller, reset and the instruction boundary.
-/

namespace Sys2Proof.Machine

/-! ## Fields of words -/

/-- Bits 7 to 4 of a byte. -/
def hiNibble (v : BitVec 8) : Nibble := v.extractLsb' 4 4

/-- Bits 3 to 0 of a byte. -/
def loNibble (v : BitVec 8) : Nibble := v.extractLsb' 0 4

/-- Bits 11 to 8 of a Return Stack entry or ROM address. -/
def entryH (w : BitVec 12) : Nibble := w.extractLsb' 8 4

/-- Bits 7 to 4 of a Return Stack entry. -/
def entryM (w : BitVec 12) : Nibble := w.extractLsb' 4 4

/-- Bits 3 to 0 of a Return Stack entry. -/
def entryL (w : BitVec 12) : Nibble := w.extractLsb' 0 4

/-- `CCR` as CCR@ pushes it: `C ## CCR2 ## B ## I` (10_state.md R21, 43_flag.md R153). -/
def Ccr.toNibble (f : Ccr) : Nibble :=
  BitVec.ofBool f.c ++ BitVec.ofBool f.ccr2 ++ BitVec.ofBool f.b ++ BitVec.ofBool f.i

/-- `CCR` as CCR! loads it (43_flag.md R154). -/
def Ccr.ofNibble (n : Nibble) : Ccr :=
  { c := n.getLsbD 3, ccr2 := n.getLsbD 2, b := n.getLsbD 1, i := n.getLsbD 0 }

/-! ## Memory as a list of cells in one canonical form -/

/-- What a cell that no entry lists reads as: the one such definition, for RAM and ROM (log entries 3 and 4). -/
def unlisted {w : Nat} : BitVec w := 0#w

/-- The cell at `a`. -/
def cellRead {w : Nat} : List (Nat × BitVec w) → Nat → BitVec w
  | [], _ => unlisted
  | (b, v) :: m, a => if b = a then v else cellRead m a

/-- `m` without its entries for `a`. -/
def cellErase {w : Nat} (a : Nat) : List (Nat × BitVec w) → List (Nat × BitVec w)
  | [] => []
  | (b, v) :: m => if b = a then cellErase a m else (b, v) :: cellErase a m

/-- `m` with an entry put before the first higher address. -/
def cellInsert {w : Nat} (a : Nat) (v : BitVec w) : List (Nat × BitVec w) → List (Nat × BitVec w)
  | [] => [(a, v)]
  | (b, u) :: m => if a < b then (a, v) :: (b, u) :: m else (b, u) :: cellInsert a v m

/-- The cell at `a` becomes `v`; what an unlisted cell reads as is not listed. -/
def cellWrite {w : Nat} (a : Nat) (v : BitVec w) (m : List (Nat × BitVec w)) : List (Nat × BitVec w) :=
  if v = unlisted then cellErase a m else cellInsert a v (cellErase a m)

/-- The cells from `a` on, `n` of them, with the values `f` gives. -/
def cellsOf {w : Nat} (f : Nat → BitVec w) : Nat → Nat → List (Nat × BitVec w)
  | _, 0 => []
  | a, n + 1 => if f a = unlisted then cellsOf f (a + 1) n else (a, f a) :: cellsOf f (a + 1) n

/-- The canonical form: addresses strictly rising and below `size`, no entry equal to what an unlisted address
reads as. -/
abbrev MemWf {w : Nat} (size : Nat) (m : List (Nat × BitVec w)) : Prop :=
  m.Pairwise (fun c d => c.1 < d.1) ∧ ∀ c ∈ m, c.1 < size ∧ c.2 ≠ unlisted

/-! ## RAM -/

/-- The nibble RAM cell `a` holds, present or not (20_memory.md R41). -/
def State.ramAt (s : State) (a : RamAddr) : Nibble := cellRead s.ram a.toNat

/-- The chip has RAM cell `a` (00_scope.md R3 `RAM_SIZE`). -/
abbrev State.ramHas (s : State) (a : RamAddr) : Prop := a.toNat < s.chip.ramSize

/-- `MemRead(a, 1)` (20_memory.md R41). -/
def State.ramRead (s : State) (a : RamAddr) : Res Nibble :=
  if s.ramHas a then .ok (s.ramAt a) else .error (.fault (.ramAbsent a))

/-- `s` with RAM cell `a` holding `v`. -/
def State.withRam (s : State) (a : RamAddr) (v : Nibble) : State :=
  { s with ram := cellWrite a.toNat v s.ram }

/-- `MemWrite(a, 1, v)` (20_memory.md R41). -/
def State.ramWrite (s : State) (a : RamAddr) (v : Nibble) : Res State :=
  if s.ramHas a then .ok (s.withRam a v) else .error (.fault (.ramAbsent a))

/-! ## ROM -/

/-- The bank that 800h to FFFh shows, 0 for bank 1 to 3 for bank 4 (10_state.md R28). -/
def State.bank (s : State) : Nat := (s.rbr.extractLsb' 2 2).toNat

/-- The place of ROM address `a` in the image: the base bank, then bank 1 to bank 4 (20_memory.md R44). -/
def State.romIndex (s : State) (a : RomAddr) : Nat :=
  if a.toNat < 0x800 then a.toNat else 0x800 + s.bank * 0x800 + (a.toNat - 0x800)

/-- The byte program memory shows at `a`, present or not. -/
def State.romAt (s : State) (a : RomAddr) : Byte := cellRead s.rom (s.romIndex a)

/-- The chip has program memory at `a` (00_scope.md R3 `ROM_SIZE`, `ROM_BANKS`). -/
abbrev State.romHas (s : State) (a : RomAddr) : Prop :=
  s.romIndex a < s.chip.romSize ∧ (a.toNat < 0x800 ∨ s.bank < s.chip.romBanks)

/-- `RomRead(a)` (20_memory.md R44). -/
def State.romRead (s : State) (a : RomAddr) : Res Byte :=
  if s.romHas a then .ok (s.romAt a) else .error (.fault (.romAbsent a))

/-! ## The Expression Stack -/

/-- `push(v)` (10_state.md R16): SP is pre-incremented, the old TOS goes to RAM. -/
def State.push (s : State) (v : Nibble) : Res State := do
  let s ← { s with sp := s.sp + 1 }.ramWrite (s.sp + 1) s.tos
  .ok { s with tos := v }

/-- `pop()` (10_state.md R16): TOS-1 moves to TOS before SP is decremented. -/
def State.pop (s : State) : Res (Nibble × State) := do
  let below ← s.ramRead s.sp
  .ok (s.tos, { s with tos := below, sp := s.sp - 1 })

/-! ## The Return Stack -/

/-- The RAM address of a nibble of the entry at `a`. -/
def rsCell (a : RamAddr) (offset : Fin 4) : RamAddr := a + BitVec.ofNat 8 offset.val

/-- The AUTOSLEEP entry, which reads 000h and drops writes (10_state.md R19). -/
def autosleepEntry : RamAddr := 0xFC#8

/-- An entry address the spec describes: a multiple of 4 (20_memory.md R49). -/
abbrev rsAligned (a : RamAddr) : Prop := a &&& 0x03#8 = 0#8

/-- The word the entry at `a` delivers, when the access is not stopped (20_memory.md R47, 10_state.md R19). -/
def State.rsAt (s : State) (a : RamAddr) : RomAddr :=
  if a = autosleepEntry then 0x000#12
  else s.ramAt (rsCell a s.chip.rsLayout.oH) ++ s.ramAt (rsCell a s.chip.rsLayout.oM)
    ++ s.ramAt (rsCell a s.chip.rsLayout.oL)

/-- `RsRead(a)` (20_memory.md R47). -/
def State.rsRead (s : State) (a : RamAddr) : Res RomAddr :=
  if a = autosleepEntry then .ok 0x000#12
  else if rsAligned a then do
    let h ← s.ramRead (rsCell a s.chip.rsLayout.oH)
    let m ← s.ramRead (rsCell a s.chip.rsLayout.oM)
    let l ← s.ramRead (rsCell a s.chip.rsLayout.oL)
    .ok (h ++ m ++ l)
  else .error (.refused (.rpUnaligned a))

/-- Which nibbles of an entry an instruction defines: `mask` of 10_state.md R18. -/
inductive RsMask where
  /-- `111b`: the 12-bit word -/
  | word
  /-- `011b`: bits 7 to 0 -/
  | low8
  /-- `001b`: bits 3 to 0 -/
  | low4
  deriving DecidableEq, Repr

/-- The word that lands in the entry: the nibbles `mask` leaves out are free (10_state.md R18, U3; log entry 16). -/
def State.rsWord (s : State) (w : RomAddr) (mask : RsMask) : RomAddr :=
  match mask with
  | .word => w
  | .low8 => Config.freeRsNibble s.draws 2 ++ entryM w ++ entryL w
  | .low4 => Config.freeRsNibble s.draws 2 ++ Config.freeRsNibble s.draws 1 ++ entryL w

/-- How many draws a write with `mask` makes. -/
def RsMask.draws (mask : RsMask) : Nat :=
  match mask with
  | .word => 0
  | .low8 => 1
  | .low4 => 1

/-- `RsWrite(a, w, mask)` (20_memory.md R47): the cell at the fourth offset is not touched, and at the AUTOSLEEP entry
no cell is. -/
def State.rsWrite (s : State) (a : RamAddr) (w : RomAddr) (mask : RsMask) : Res State :=
  if a = autosleepEntry then .ok { s with draws := s.draws + mask.draws }
  else if rsAligned a then do
    let v := s.rsWord w mask
    let s ← s.ramWrite (rsCell a s.chip.rsLayout.oH) (entryH v)
    let s ← s.ramWrite (rsCell a s.chip.rsLayout.oM) (entryM v)
    let s ← s.ramWrite (rsCell a s.chip.rsLayout.oL) (entryL v)
    .ok { s with draws := s.draws + mask.draws }
  else .error (.refused (.rpUnaligned a))

/-- `rpush(w, mask)` (10_state.md R18). -/
def State.rpush (s : State) (w : RomAddr) (mask : RsMask) : Res State :=
  { s with rp := s.rp + 4 }.rsWrite (s.rp + 4) w mask

/-- `rpop()` (10_state.md R18). -/
def State.rpop (s : State) : Res (RomAddr × State) := do
  let w ← s.rsRead s.rp
  .ok (w, { s with rp := s.rp - 4 })

/-! ## Program counter and cycles -/

/-- The end of an instruction that does not load PC (30_encoding.md R84), with the cycles of R77. -/
def State.advance (s : State) (length cycles : Nat) : State :=
  { s with pc := s.pc + BitVec.ofNat 12 length, cycles := s.cycles + cycles }

/-- The end of an instruction that loads PC, with the cycles of 30_encoding.md R77. -/
def State.jump (s : State) (target : RomAddr) (cycles : Nat) : State :=
  { s with pc := target, cycles := s.cycles + cycles }

/-! ## Ports -/

/-- `PortRead(p)` (20_memory.md R52): the environment's answer, a free nibble. -/
def State.portRead (s : State) (p : Port) : Nibble × State :=
  (Config.portNibble s.draws p, { s with draws := s.draws + 1 })

/-- `PortWrite(p, v)` (20_memory.md R52): an event for the environment. On a chip whose ROM bank register answers at
`p` it also writes RBR, which is refused while the program runs in the banked half (92_eei_decisions.md D16, U14). -/
def State.portWrite (s : State) (p : Port) (v : Nibble) : Res State :=
  let s' := { s with out := s.out ++ [(p, v)] }
  if s.chip.rbrPort = some p then
    if s.pc.toNat < 0x800 then .ok { s' with rbr := v } else .error (.refused (.bankSwitchInBank s.pc))
  else .ok s'

/-! ## Interrupts -/

/-- The levels from the highest to the lowest priority (60_exceptions.md R254). -/
def levels : List Level := [7, 6, 5, 4, 3, 2, 1, 0]

/-- `hi(v)`: the highest bit set in an 8-bit value, if any (60_exceptions.md, state used). -/
def hiLevel (v : BitVec 8) : Option Level := levels.find? (fun k => v.getLsbD k.val)

/-- The 8-bit value with bit k alone set. -/
def levelBit (k : Level) : BitVec 8 := 1#8 <<< k.val

/-- The ROM address of the service routine of INTk (60_exceptions.md R254). -/
def vector (k : Level) : RomAddr :=
  if k = 7 then 0x1E0#12 else BitVec.ofNat 12 (0x40 * (k.val + 1))

/-- The candidate level of 60_exceptions.md R256 for a pending and an active register: the highest level that waits, if
it is above every active one. -/
def candidate (ipr iar : BitVec 8) : Option Level :=
  match hiLevel (ipr &&& ~~~iar), hiLevel iar with
  | none, _ => none
  | some k, none => some k
  | some k, some active => if active < k then some k else none

/-- The level that is acknowledged at this boundary (60_exceptions.md R257). -/
def State.acknowledged (s : State) : Option Level :=
  if s.ccr.i then candidate s.ipr s.iar else none

/-- TAKING AN INTERRUPT (60_exceptions.md R258): `I` and IPR stay as they are, the saved PC is the address of the next
instruction, and the cycle costs the 2 cycles of an SCALL. -/
def State.acknowledge (s : State) (k : Level) : Res State := do
  let s ← { s with asleep := false, iar := s.iar ||| levelBit k }.rpush s.pc .word
  .ok (s.jump (vector k) 2)

/-- What returning from a service routine does to the interrupt controller (44_branch_system.md R167): the highest
active level is cleared in IAR and in IPR. -/
def State.endService (s : State) : State :=
  match hiLevel s.iar with
  | none => s
  | some k => { s with iar := s.iar &&& ~~~levelBit k, ipr := s.ipr &&& ~~~levelBit k }

/-- RETURNING FROM AN INTERRUPT (44_branch_system.md R167, 60_exceptions.md R260). -/
def State.returnFromInterrupt (s : State) : Res State := do
  let (w, s) ← s.rpop
  let s := s.endService
  .ok ({ s with ccr := { s.ccr with i := true } }.jump w 2)

/-! ## Reset, fetch and the instruction boundary -/

/-- A reset of the running machine (70_reset_and_hazards.md R290). What R290 does not name is a free value
(10_state.md R32, D17; log entry 18); the entry that the injected SCALL pushes lies in RAM, all of which is free, under
an RP that is free. Its 2 cycles are those of the reset SCALL (R300). -/
def State.hardReset (s : State) : State :=
  { s with
    pc := 0x008#12
    tos := Config.resetTos s.draws
    sp := Config.resetSp s.draws
    rp := Config.resetRp s.draws
    x := Config.resetX s.draws
    y := Config.resetY s.draws
    ccr := { c := Config.resetC s.draws, ccr2 := Config.resetCcr2 s.draws, b := Config.resetB s.draws, i := false }
    ipr := 0x00#8
    iar := 0x00#8
    rbr := 0#2 ++ Config.resetRbrLow s.draws
    asleep := false
    ram := cellsOf (Config.resetRam s.draws) 0 256
    draws := s.draws + 1
    cycles := s.cycles + 2 }

/-- The instruction at PC (30_encoding.md R78): the second byte, at PC + 1 modulo 4096, is read only for a first byte
that has one. -/
def State.fetch (s : State) : Res Instr := do
  let b0 ← s.romRead s.pc
  if opLength b0 = 2 then do
    let b1 ← s.romRead (s.pc + 1)
    .ok (decodeOp b0 b1)
  else .ok (decodeOp b0 0#8)

/-- Requests are latched in IPR; a bit that is set stays set (60_exceptions.md R253, R262). -/
def State.latch (s : State) (requests : BitVec 8) : State := { s with ipr := s.ipr ||| requests }

/-- The boundary once the environment has had its turn: an acknowledge, or sleep goes on, or the next instruction
executes (60_exceptions.md R257, R270). -/
def State.proceed (s : State) : Boundary :=
  match s.acknowledged with
  | some k =>
    match s.acknowledge k with
    | .ok t => .settled t
    | .error e => .stopped e
  | none =>
    if s.asleep then .settled s
    else
      match s.fetch with
      | .ok i => .execute i s
      | .error e => .stopped e

/-- An instruction boundary: the environment's next event, if any, and then what `proceed` says. -/
def State.boundary (s : State) : Boundary :=
  match s.env with
  | [] => s.proceed
  | .request r :: rest => ({ s with env := rest }.latch r).proceed
  | .reset :: rest => .settled { s with env := rest }.hardReset

/-- A stop as an outcome of a step. -/
def Stop.outcome (e : Stop) : Host.Outcome State Fault Refusal :=
  match e with
  | .fault f => .fault f
  | .refused r => .refused r

/-- The answer of an operation as an outcome of a step. -/
def finish (r : Res State) : Host.Outcome State Fault Refusal :=
  match r with
  | .ok s => .next s
  | .error e => e.outcome

/-- `s` with a byte stored in program memory where address `a` is fetched from. -/
def State.withRom (s : State) (a : RomAddr) (v : Byte) : State :=
  { s with rom := cellWrite (s.romIndex a) v s.rom }

/-- `s` with the two bytes at PC, no environment event ahead, awake, and with no request that would be acknowledged
first (`State.withFetchWord`; at reset only the bytes change). -/
def State.withCode (s : State) (b0 b1 : Byte) : State :=
  let s := { s with
    env := []
    asleep := false
    ipr := match s.acknowledged with
      | some _ => s.ipr &&& s.iar
      | none => s.ipr }
  (s.withRom s.pc b0).withRom (s.pc + 1) b1

end Sys2Proof.Machine
end

