-- ==== Sys2Proof/Machine/Flags.lean ====
section
/-!
DEFINITION. The results of the ALU and how they reach the condition code register (10_state.md R21 to R25,
00_scope.md R7).
-/

namespace Sys2Proof.Machine

/-- A result and the bit that goes to `C` and `B` with it. -/
structure AluOut where
  value : Nibble
  carry : Bool
  deriving DecidableEq, Repr

/-- The adder: the sum and the carry out of bit 3 (40_arithmetic.md R100, R101). -/
def addNibbles (n1 n2 : Nibble) (carryIn : Bool) : AluOut :=
  let sum := n1.toNat + n2.toNat + carryIn.toNat
  { value := BitVec.ofNat 4 sum, carry := decide (15 < sum) }

/-- Subtraction as the adder evaluates it, `n1 + /n2 + /borrow`. The flag is the borrow, the complement of the
adder's carry out (40_arithmetic.md R102, R103, R108). -/
def subNibbles (n1 n2 : Nibble) (borrowIn : Bool) : AluOut :=
  let sum := addNibbles n1 (~~~n2) (!borrowIn)
  { value := sum.value, carry := !sum.carry }

/-- Decimal adjust (40_arithmetic.md R106). -/
def decimalAdjust (n : Nibble) (carryIn : Bool) : AluOut :=
  if 9#4 < n ∨ carryIn = true then { value := n + 6#4, carry := true } else { value := n, carry := false }

/-- TOS shifted left, `low` entering bit 0 and bit 3 leaving (42_logical_shift.md R134, R136). -/
def shiftLeft (n : Nibble) (low : Bool) : AluOut :=
  { value := n.extractLsb' 0 3 ++ BitVec.ofBool low, carry := n.getLsbD 3 }

/-- TOS shifted right, `high` entering bit 3 and bit 0 leaving (42_logical_shift.md R135, R137). -/
def shiftRight (n : Nibble) (high : Bool) : AluOut :=
  { value := BitVec.ofBool high ++ n.extractLsb' 1 3, carry := n.getLsbD 0 }

/-- `CCR2` after an instruction whose column marks it `x` (10_state.md R25; log entry 14). -/
def State.disturbCcr2 (s : State) : State :=
  { s with ccr := { s.ccr with ccr2 := Config.freeCcr2 s.draws }, draws := s.draws + 1 }

/-- `B` becomes `flag`, `C` and `I` stay: the columns `-xx-`. -/
def State.setB (s : State) (flag : Bool) : State :=
  { s with ccr := { s.ccr with b := flag } }.disturbCcr2

/-- `C` and `B` become `flag`, `I` stays: the columns `xxx-`, `1x1-` and `0x0-`. -/
def State.setCB (s : State) (flag : Bool) : State :=
  { s with ccr := { s.ccr with c := flag, b := flag } }.disturbCcr2

/-- `I` becomes `flag`, `C` and `B` stay: the columns `-x-0` and `-x-1`. -/
def State.setI (s : State) (flag : Bool) : State :=
  { s with ccr := { s.ccr with i := flag } }.disturbCcr2

/-- TOS becomes a result that sets `C` and `B` to its carry. -/
def State.setResult (s : State) (r : AluOut) : State :=
  { s with tos := r.value }.setCB r.carry

/-- TOS becomes a result and `B` says whether it is 0 (40_arithmetic.md R104, 42_logical_shift.md R138). -/
def State.setLogic (s : State) (v : Nibble) : State :=
  { s with tos := v }.setB (v == 0#4)

/-- The flags of a compare: `B` is the relation, `C` a free value (41_compare.md R120; log entry 13). -/
def State.setCompare (s : State) (relation : Bool) : State :=
  { s with ccr := { s.ccr with c := Config.freeCarry s.draws, b := relation } }.disturbCcr2

end Sys2Proof.Machine
end

