-- ==== Sys2Proof/Machine/Operands.lean ====
section
/-!
DEFINITION. The operand forms: operands on the Expression Stack, the addressing modes of X and Y, and the targets
of the short ROM address format.
-/

namespace Sys2Proof.Machine

/-! ## Operands on the Expression Stack -/

/-- The two operands of an ALU instruction, n1 from RAM and n2 from TOS, and the state with SP decremented: the
shortcut of 10_state.md R16, which writes no RAM. The result is left to go to TOS. -/
def State.takeTwo (s : State) : Res (Nibble × Nibble × State) := do
  let n1 ← s.ramRead s.sp
  .ok (n1, s.tos, { s with sp := s.sp - 1 })

/-- Push a register as two nibbles, the high one first (20_memory.md R48). -/
def State.pushByte (s : State) (v : BitVec 8) : Res State := do
  let s ← s.push (hiNibble v)
  s.push (loNibble v)

/-- Pop `( dh dl -- )` as the byte `dh ## dl` (20_memory.md R48). -/
def State.popByte (s : State) : Res (BitVec 8 × State) := do
  let (dl, s) ← s.pop
  let (dh, s) ← s.pop
  .ok (dh ++ dl, s)

/-- The operands SWI takes: "[n1,n2 = 0,1,2,4,8]" (44_branch_system.md R168). -/
def swiOperandOk (n : Nibble) : Bool :=
  n == 0#4 || n == 1#4 || n == 2#4 || n == 4#4 || n == 8#4

/-! ## RAM through X and Y -/

/-- The register that addresses RAM. -/
inductive PtrReg where
  | x
  | y
  deriving DecidableEq, Repr

/-- The addressing modes of 47_memory_io.md section 2. -/
inductive PtrMode where
  | indirect
  | preIncrement
  | postDecrement
  | direct (addr : RamAddr)
  deriving DecidableEq, Repr

/-- The register's value. -/
def State.ptr (s : State) (r : PtrReg) : RamAddr :=
  match r with
  | .x => s.x
  | .y => s.y

/-- `s` with the register holding `v`. -/
def State.setPtr (s : State) (r : PtrReg) (v : RamAddr) : State :=
  match r with
  | .x => { s with x := v }
  | .y => { s with y := v }

/-- The effective address, from the register's value before (47_memory_io.md R221 to R236). -/
def PtrMode.ea (m : PtrMode) (v : RamAddr) : RamAddr :=
  match m with
  | .indirect => v
  | .preIncrement => v + 1
  | .postDecrement => v
  | .direct a => a

/-- The register's value after. -/
def PtrMode.after (m : PtrMode) (v : RamAddr) : RamAddr :=
  match m with
  | .indirect => v
  | .preIncrement => v + 1
  | .postDecrement => v - 1
  | .direct a => a

/-- A fetch `( -- n )` through X or Y, refused where it reads the cell that TOS is spilled to (47_memory_io.md R221
to R228, R237). -/
def State.fetchVia (s : State) (r : PtrReg) (m : PtrMode) : Res State :=
  let ea := m.ea (s.ptr r)
  if ea = s.sp + 1 then .error (.refused (.stackCellCollision ea))
  else do
    let v ← s.ramRead ea
    let s' ← s.push v
    .ok (s'.setPtr r (m.after (s.ptr r)))

/-- A store `( n -- )` through X or Y, refused where it writes the cell that TOS is refilled from (47_memory_io.md R229
to R236, R237). -/
def State.storeVia (s : State) (r : PtrReg) (m : PtrMode) : Res State :=
  let ea := m.ea (s.ptr r)
  if ea = s.sp then .error (.refused (.stackCellCollision ea))
  else do
    let s' ← s.ramWrite ea s.tos
    let (_, s') ← s'.pop
    .ok (s'.setPtr r (m.after (s.ptr r)))

/-! ## ROM targets -/

/-- The target of a taken SBRA at PC (44_branch_system.md R162). -/
def State.pageTarget (s : State) (a : BitVec 6) : Res RomAddr :=
  if s.pc.extractLsb' 0 6 = 0x3F#6 then .error (.refused (.sbraAtPageEnd s.pc))
  else .ok (s.pc.extractLsb' 6 6 ++ a)

/-- The target of an SCALL: `a << 3` (44_branch_system.md R164). -/
def scallTarget (a : BitVec 6) : RomAddr := 0#3 ++ a ++ 0#3

/-- A call (44_branch_system.md R160): the address of the next instruction goes on the Return Stack. -/
def State.callTo (s : State) (target : RomAddr) (length cycles : Nat) : Res State := do
  let s ← s.rpush (s.pc + BitVec.ofNat 12 length) .word
  .ok (s.jump target cycles)

end Sys2Proof.Machine
end

