-- ==== Sys2Proof/Machine/Arithmetic.lean ====
section
/-!
DEFINITION. The arithmetic instructions (40_arithmetic.md).
-/

namespace Sys2Proof.Machine

/-- ADD (R100). -/
def execAdd (s : State) : Host.Outcome State Fault Refusal :=
  finish do
    let (n1, n2, s) ← s.takeTwo
    .ok ((s.setResult (addNibbles n1 n2 false)).advance 1 1)

/-- ADDC (R101): `C` is the flag before the instruction. -/
def execAddc (s : State) : Host.Outcome State Fault Refusal :=
  finish do
    let (n1, n2, s) ← s.takeTwo
    .ok ((s.setResult (addNibbles n1 n2 s.ccr.c)).advance 1 1)

/-- SUB (R102): n1 is the minuend, TOS the subtrahend. -/
def execSub (s : State) : Host.Outcome State Fault Refusal :=
  finish do
    let (n1, n2, s) ← s.takeTwo
    .ok ((s.setResult (subNibbles n1 n2 false)).advance 1 1)

/-- SUBB (R103). -/
def execSubb (s : State) : Host.Outcome State Fault Refusal :=
  finish do
    let (n1, n2, s) ← s.takeTwo
    .ok ((s.setResult (subNibbles n1 n2 s.ccr.c)).advance 1 1)

/-- INC (R104): `C` is kept. -/
def execInc (s : State) : Host.Outcome State Fault Refusal :=
  finish (.ok ((s.setLogic (s.tos + 1#4)).advance 1 1))

/-- DEC (R105): `C` is kept. -/
def execDec (s : State) : Host.Outcome State Fault Refusal :=
  finish (.ok ((s.setLogic (s.tos - 1#4)).advance 1 1))

/-- DAA (R106). -/
def execDaa (s : State) : Host.Outcome State Fault Refusal :=
  finish (.ok ((s.setResult (decimalAdjust s.tos s.ccr.c)).advance 1 1))

/-- DECR (R107): the index in bits 3 to 0 of the top Return Stack entry; the other two nibbles of the entry become
free values (92_eei_decisions.md D31). -/
def execDecr (s : State) : Host.Outcome State Fault Refusal :=
  finish do
    let w ← s.rsRead s.rp
    let n := entryL w - 1#4
    let s ← s.rsWrite s.rp (entryH w ++ entryM w ++ n) .low4
    .ok ((s.setB (n != 0#4)).advance 1 2)

end Sys2Proof.Machine
end

