-- ==== Sys2Proof/Machine/Branch.lean ====
section
/-!
DEFINITION. Program branching, system instructions, NOP and the unassigned codes (44_branch_system.md, 30_encoding.md R79).
-/

namespace Sys2Proof.Machine

/-- BRA $xxx (R161): not taken, it goes on behind its second byte (90_conflicts.md C4). -/
def execBra (target : RomAddr) (s : State) : Host.Outcome State Fault Refusal :=
  finish (.ok (if s.ccr.b then s.jump target 2 else s.advance 2 2))

/-- SBRA $xxx (R162): the not-taken case is defined at every position. -/
def execSbra (a : BitVec 6) (s : State) : Host.Outcome State Fault Refusal :=
  finish (if s.ccr.b then do
      let target ← s.pageTarget a
      .ok (s.jump target 2)
    else .ok (s.advance 1 2))

/-- CALL $xxx (R163). -/
def execCall (target : RomAddr) (s : State) : Host.Outcome State Fault Refusal :=
  finish (s.callTo target 2 3)

/-- SCALL $xxx (R164): an ordinary call, also to the address of a service routine. -/
def execScall (a : BitVec 6) (s : State) : Host.Outcome State Fault Refusal :=
  finish (s.callTo (scallTarget a) 1 2)

/-- EXIT (R166): no flag and no interrupt register changes. -/
def execExit (s : State) : Host.Outcome State Fault Refusal :=
  finish do
    let (w, s) ← s.rpop
    .ok (s.jump w 2)

/-- RTI (R167). -/
def execRti (s : State) : Host.Outcome State Fault Refusal :=
  finish s.returnFromInterrupt

/-- SWI (R168): TOS (n2) is the mask of INT0 to INT3, TOS-1 (n1) that of INT4 to INT7 (92_eei_decisions.md D7). -/
def execSwi (s : State) : Host.Outcome State Fault Refusal :=
  finish do
    let (n2, s) ← s.pop
    let (n1, s) ← s.pop
    if swiOperandOk n1 && swiOperandOk n2 then .ok ((s.latch (n1 ++ n2)).disturbCcr2.advance 1 1)
    else .error (.refused (.swiOperand n1 n2))

/-- SLEEP (R169): the core stops only if nothing is pending or active (92_eei_decisions.md D15). -/
def execSleep (s : State) : Host.Outcome State Fault Refusal :=
  finish (.ok ({ s with asleep := s.asleep || (s.ipr == 0#8 && s.iar == 0#8) }.setI true |>.advance 1 1))

/-- NOP (R170). -/
def execNop (s : State) : Host.Outcome State Fault Refusal :=
  finish (.ok (s.advance 1 1))

/-- Code 7Dh, "NOP Illegal instruction" (R171): as NOP. -/
def execNop7D (s : State) : Host.Outcome State Fault Refusal :=
  finish (.ok (s.advance 1 1))

/-- Code 7Eh, "NOP Illegal instruction" (R171): as NOP. -/
def execNop7E (s : State) : Host.Outcome State Fault Refusal :=
  finish (.ok (s.advance 1 1))

/-- Code 7Fh, "NOP Illegal instruction" (R171): as NOP. -/
def execNop7F (s : State) : Host.Outcome State Fault Refusal :=
  finish (.ok (s.advance 1 1))

/-- Code 21h (30_encoding.md R79): "the step function refuses" it. -/
def execUnassigned21 (_s : State) : Host.Outcome State Fault Refusal :=
  .refused (.unassignedCode 0x21#8)

/-- Code 24h (30_encoding.md R79): "the step function refuses" it. -/
def execUnassigned24 (_s : State) : Host.Outcome State Fault Refusal :=
  .refused (.unassignedCode 0x24#8)

end Sys2Proof.Machine
end

