-- ==== Sys2Proof/Machine/Compare.lean ====
section
/-!
DEFINITION. The compare instructions (41_compare.md): they remove n2, leave n1 in TOS and set `B` (R120).
-/

namespace Sys2Proof.Machine

/-- What all six compares do (R120); `relation` is asked of n1 and n2, unsigned. -/
def State.compare (s : State) (relation : Nibble → Nibble → Bool) : Res State := do
  let (n1, n2, s) ← s.takeTwo
  .ok (({ s with tos := n1 }.setCompare (relation n1 n2)).advance 1 1)

/-- CMP_EQ (R121). -/
def execCmpEq (s : State) : Host.Outcome State Fault Refusal :=
  finish (s.compare fun n1 n2 => decide (n1 = n2))

/-- CMP_NE (R122). -/
def execCmpNe (s : State) : Host.Outcome State Fault Refusal :=
  finish (s.compare fun n1 n2 => decide (n1 ≠ n2))

/-- CMP_LT (R123). -/
def execCmpLt (s : State) : Host.Outcome State Fault Refusal :=
  finish (s.compare fun n1 n2 => decide (n1 < n2))

/-- CMP_LE (R124). -/
def execCmpLe (s : State) : Host.Outcome State Fault Refusal :=
  finish (s.compare fun n1 n2 => decide (n1 ≤ n2))

/-- CMP_GT (R125). -/
def execCmpGt (s : State) : Host.Outcome State Fault Refusal :=
  finish (s.compare fun n1 n2 => decide (n2 < n1))

/-- CMP_GE (R126). -/
def execCmpGe (s : State) : Host.Outcome State Fault Refusal :=
  finish (s.compare fun n1 n2 => decide (n2 ≤ n1))

end Sys2Proof.Machine
end

