-- ==== Sys2Proof/Machine/FlagInstr.lean ====
section
/-!
DEFINITION. The flag instructions (43_flag.md).
-/

namespace Sys2Proof.Machine

/-- TOG_BF (R150). -/
def execTogBf (s : State) : Host.Outcome State Fault Refusal :=
  finish (.ok ((s.setB (!s.ccr.b)).advance 1 1))

/-- SET_BCF (R151). -/
def execSetBcf (s : State) : Host.Outcome State Fault Refusal :=
  finish (.ok ((s.setCB true).advance 1 1))

/-- DI (R152). -/
def execDi (s : State) : Host.Outcome State Fault Refusal :=
  finish (.ok ((s.setI false).advance 1 1))

/-- CCR@ (R153): no flag changes. -/
def execCcrFetch (s : State) : Host.Outcome State Fault Refusal :=
  finish do
    let s ← s.push s.ccr.toNibble
    .ok (s.advance 1 1)

/-- CCR! (R154): all four bits are loaded. -/
def execCcrStore (s : State) : Host.Outcome State Fault Refusal :=
  finish do
    let (n, s) ← s.pop
    .ok ({ s with ccr := Ccr.ofNibble n }.advance 1 1)

end Sys2Proof.Machine
end

