-- ==== Sys2Proof/Machine/Logical.lean ====
section
/-!
DEFINITION. The logical, shift and rotate instructions (42_logical_shift.md).
-/

namespace Sys2Proof.Machine

/-- XOR (R130): `C` is kept. -/
def execXor (s : State) : Host.Outcome State Fault Refusal :=
  finish do
    let (n1, n2, s) ← s.takeTwo
    .ok ((s.setLogic (n1 ^^^ n2)).advance 1 1)

/-- AND (R131): `C` is kept. -/
def execAnd (s : State) : Host.Outcome State Fault Refusal :=
  finish do
    let (n1, n2, s) ← s.takeTwo
    .ok ((s.setLogic (n1 &&& n2)).advance 1 1)

/-- OR (R132): `C` is kept. -/
def execOr (s : State) : Host.Outcome State Fault Refusal :=
  finish do
    let (n1, n2, s) ← s.takeTwo
    .ok ((s.setLogic (n1 ||| n2)).advance 1 1)

/-- NOT (R133): `C` is kept. -/
def execNot (s : State) : Host.Outcome State Fault Refusal :=
  finish (.ok ((s.setLogic (~~~s.tos)).advance 1 1))

/-- SHL (R134): 0 enters bit 0. -/
def execShl (s : State) : Host.Outcome State Fault Refusal :=
  finish (.ok ((s.setResult (shiftLeft s.tos false)).advance 1 1))

/-- SHR (R135): 0 enters bit 3. -/
def execShr (s : State) : Host.Outcome State Fault Refusal :=
  finish (.ok ((s.setResult (shiftRight s.tos false)).advance 1 1))

/-- ROL (R136): the old `C` enters bit 0. -/
def execRol (s : State) : Host.Outcome State Fault Refusal :=
  finish (.ok ((s.setResult (shiftLeft s.tos s.ccr.c)).advance 1 1))

/-- ROR (R137): the old `C` enters bit 3. -/
def execRor (s : State) : Host.Outcome State Fault Refusal :=
  finish (.ok ((s.setResult (shiftRight s.tos s.ccr.c)).advance 1 1))

end Sys2Proof.Machine
end

