-- ==== Sys2Proof/Machine/MemoryIo.lean ====
section
/-!
DEFINITION. ROM data, RAM through X and Y, and the ports (47_memory_io.md).
-/

namespace Sys2Proof.Machine

/-- TABLE (R220): the byte is read through the bank RBR selects (92_eei_decisions.md D29), and the instruction returns. -/
def execTable (s : State) : Host.Outcome State Fault Refusal :=
  finish do
    let (a, s) ← s.rpop
    let d ← s.romRead a
    let s ← s.pushByte d
    let (r, s) ← s.rpop
    .ok (s.jump r 3)

/-- [X]@ (R221). -/
def execFetchX (s : State) : Host.Outcome State Fault Refusal :=
  finish do
    let s ← s.fetchVia .x .indirect
    .ok (s.advance 1 1)

/-- [+X]@ (R222). -/
def execFetchIncX (s : State) : Host.Outcome State Fault Refusal :=
  finish do
    let s ← s.fetchVia .x .preIncrement
    .ok (s.advance 1 1)

/-- [X-]@ (R223). -/
def execFetchXDec (s : State) : Host.Outcome State Fault Refusal :=
  finish do
    let s ← s.fetchVia .x .postDecrement
    .ok (s.advance 1 1)

/-- [>X]@ $xx (R224). -/
def execFetchDirX (addr : RamAddr) (s : State) : Host.Outcome State Fault Refusal :=
  finish do
    let s ← s.fetchVia .x (.direct addr)
    .ok (s.advance 2 2)

/-- [Y]@ (R225). -/
def execFetchY (s : State) : Host.Outcome State Fault Refusal :=
  finish do
    let s ← s.fetchVia .y .indirect
    .ok (s.advance 1 1)

/-- [+Y]@ (R226). -/
def execFetchIncY (s : State) : Host.Outcome State Fault Refusal :=
  finish do
    let s ← s.fetchVia .y .preIncrement
    .ok (s.advance 1 1)

/-- [Y-]@ (R227). -/
def execFetchYDec (s : State) : Host.Outcome State Fault Refusal :=
  finish do
    let s ← s.fetchVia .y .postDecrement
    .ok (s.advance 1 1)

/-- [>Y]@ $xx (R228). -/
def execFetchDirY (addr : RamAddr) (s : State) : Host.Outcome State Fault Refusal :=
  finish do
    let s ← s.fetchVia .y (.direct addr)
    .ok (s.advance 2 2)

/-- [X]! (R229). -/
def execStoreX (s : State) : Host.Outcome State Fault Refusal :=
  finish do
    let s ← s.storeVia .x .indirect
    .ok (s.advance 1 1)

/-- [+X]! (R230). -/
def execStoreIncX (s : State) : Host.Outcome State Fault Refusal :=
  finish do
    let s ← s.storeVia .x .preIncrement
    .ok (s.advance 1 1)

/-- [X-]! (R231). -/
def execStoreXDec (s : State) : Host.Outcome State Fault Refusal :=
  finish do
    let s ← s.storeVia .x .postDecrement
    .ok (s.advance 1 1)

/-- [>X]! $xx (R232). -/
def execStoreDirX (addr : RamAddr) (s : State) : Host.Outcome State Fault Refusal :=
  finish do
    let s ← s.storeVia .x (.direct addr)
    .ok (s.advance 2 2)

/-- [Y]! (R233). -/
def execStoreY (s : State) : Host.Outcome State Fault Refusal :=
  finish do
    let s ← s.storeVia .y .indirect
    .ok (s.advance 1 1)

/-- [+Y]! (R234). -/
def execStoreIncY (s : State) : Host.Outcome State Fault Refusal :=
  finish do
    let s ← s.storeVia .y .preIncrement
    .ok (s.advance 1 1)

/-- [Y-]! (R235). -/
def execStoreYDec (s : State) : Host.Outcome State Fault Refusal :=
  finish do
    let s ← s.storeVia .y .postDecrement
    .ok (s.advance 1 1)

/-- [>Y]! $xx (R236). -/
def execStoreDirY (addr : RamAddr) (s : State) : Host.Outcome State Fault Refusal :=
  finish do
    let s ← s.storeVia .y (.direct addr)
    .ok (s.advance 2 2)

/-- IN (R240): no RAM is touched and SP stays; what `B` tests is the chip's parameter (92_eei_decisions.md D11). -/
def execInPort (s : State) : Host.Outcome State Fault Refusal :=
  let (n, t) := s.portRead s.tos
  let tested := match s.chip.inBranch with
    | .port => s.tos
    | .data => n
  finish (.ok (({ t with tos := n }.setB (tested == 0#4)).advance 1 1))

/-- OUT (R241): the port is in TOS, the data in TOS-1. -/
def execOutPort (s : State) : Host.Outcome State Fault Refusal :=
  finish do
    let (p, s) ← s.pop
    let (n, s) ← s.pop
    let s ← s.portWrite p n
    .ok (s.disturbCcr2.advance 1 1)

end Sys2Proof.Machine
end

