-- ==== Sys2Proof/Machine/Register.lean ====
section
/-!
DEFINITION. The register instructions (45_register.md). None changes a flag.
-/

namespace Sys2Proof.Machine

/-- SP@ (R180): the address the old TOS is spilled to, SP + 1 modulo 256 (92_eei_decisions.md D4). -/
def execGetSp (s : State) : Host.Outcome State Fault Refusal :=
  finish do
    let s ← s.pushByte (s.sp + 1)
    .ok (s.advance 1 2)

/-- RP@ (R181). -/
def execGetRp (s : State) : Host.Outcome State Fault Refusal :=
  finish do
    let s ← s.pushByte s.rp
    .ok (s.advance 1 2)

/-- X@ (R182). -/
def execGetX (s : State) : Host.Outcome State Fault Refusal :=
  finish do
    let s ← s.pushByte s.x
    .ok (s.advance 1 2)

/-- Y@ (R183). -/
def execGetY (s : State) : Host.Outcome State Fault Refusal :=
  finish do
    let s ← s.pushByte s.y
    .ok (s.advance 1 2)

/-- SP! (R184): TOS becomes a free value (92_eei_decisions.md D5; log entry 15); RAM is not written. -/
def execSetSp (s : State) : Host.Outcome State Fault Refusal :=
  finish do
    let dh ← s.ramRead s.sp
    .ok ({ s with sp := dh ++ s.tos, tos := Config.freeTos s.draws, draws := s.draws + 1 }.advance 1 2)

/-- RP! (R185). -/
def execSetRp (s : State) : Host.Outcome State Fault Refusal :=
  finish do
    let (v, s) ← s.popByte
    .ok ({ s with rp := v }.advance 1 2)

/-- X! (R186). -/
def execSetX (s : State) : Host.Outcome State Fault Refusal :=
  finish do
    let (v, s) ← s.popByte
    .ok ({ s with x := v }.advance 1 2)

/-- Y! (R187). -/
def execSetY (s : State) : Host.Outcome State Fault Refusal :=
  finish do
    let (v, s) ← s.popByte
    .ok ({ s with y := v }.advance 1 2)

/-- >SP $xx (R188): no stack is touched. -/
def execLoadSp (addr : RamAddr) (s : State) : Host.Outcome State Fault Refusal :=
  finish (.ok ({ s with sp := addr }.advance 2 2))

/-- >RP $xx (R189): no stack is touched. -/
def execLoadRp (addr : RamAddr) (s : State) : Host.Outcome State Fault Refusal :=
  finish (.ok ({ s with rp := addr }.advance 2 2))

/-- >X $xx (R190): no stack is touched. -/
def execLoadX (addr : RamAddr) (s : State) : Host.Outcome State Fault Refusal :=
  finish (.ok ({ s with x := addr }.advance 2 2))

/-- >Y $xx (R191): no stack is touched. -/
def execLoadY (addr : RamAddr) (s : State) : Host.Outcome State Fault Refusal :=
  finish (.ok ({ s with y := addr }.advance 2 2))

end Sys2Proof.Machine
end

