-- ==== Sys2Proof/Machine/Stack.lean ====
section
/-!
DEFINITION. The stack instructions (46_stack.md). None changes a flag.
-/

namespace Sys2Proof.Machine

/-- SWAP (R200). -/
def execSwap (s : State) : Host.Outcome State Fault Refusal :=
  finish do
    let n1 ← s.ramRead s.sp
    let s ← s.ramWrite s.sp s.tos
    .ok ({ s with tos := n1 }.advance 1 1)

/-- OVER (R201). -/
def execOver (s : State) : Host.Outcome State Fault Refusal :=
  finish do
    let n1 ← s.ramRead s.sp
    let s ← s.push n1
    .ok (s.advance 1 1)

/-- DUP (R202). -/
def execDup (s : State) : Host.Outcome State Fault Refusal :=
  finish do
    let s ← s.push s.tos
    .ok (s.advance 1 1)

/-- ROT (R203). -/
def execRot (s : State) : Host.Outcome State Fault Refusal :=
  finish do
    let n2 ← s.ramRead s.sp
    let n1 ← s.ramRead (s.sp - 1)
    let n3 := s.tos
    let s ← s.ramWrite (s.sp - 1) n2
    let s ← s.ramWrite s.sp n3
    .ok ({ s with tos := n1 }.advance 1 3)

/-- DROP (R204). -/
def execDrop (s : State) : Host.Outcome State Fault Refusal :=
  finish do
    let (_, s) ← s.pop
    .ok (s.advance 1 1)

/-- LIT_n (R212). -/
def execLit (n : Nibble) (s : State) : Host.Outcome State Fault Refusal :=
  finish do
    let s ← s.push n
    .ok (s.advance 1 1)

/-- DROPR (R205): RP moves, no RAM is read or written, so its alignment is not asked for (92_eei_decisions.md D21). -/
def execDropr (s : State) : Host.Outcome State Fault Refusal :=
  finish (.ok ({ s with rp := s.rp - 4 }.advance 1 1))

/-- >R (R206): bits 11 to 4 of the entry are free values. -/
def execToR (s : State) : Host.Outcome State Fault Refusal :=
  finish do
    let (n, s) ← s.pop
    let s ← s.rpush (0#8 ++ n) .low4
    .ok (s.advance 1 1)

/-- 2>R (R207): the old TOS lands in bits 3 to 0 (90_conflicts.md C3); bits 11 to 8 are a free value. -/
def execTwoToR (s : State) : Host.Outcome State Fault Refusal :=
  finish do
    let (n2, s) ← s.pop
    let (n1, s) ← s.pop
    let s ← s.rpush (0#4 ++ n1 ++ n2) .low8
    .ok (s.advance 1 3)

/-- 3>R (R208). -/
def execThreeToR (s : State) : Host.Outcome State Fault Refusal :=
  finish do
    let (n3, s) ← s.pop
    let (n2, s) ← s.pop
    let (n1, s) ← s.pop
    let s ← s.rpush (n1 ++ n2 ++ n3) .word
    .ok (s.advance 1 4)

/-- I, also written R@ (R209). -/
def execRCopy (s : State) : Host.Outcome State Fault Refusal :=
  finish do
    let w ← s.rsRead s.rp
    let s ← s.push (entryL w)
    .ok (s.advance 1 1)

/-- 2R@ (R210). -/
def execTwoRCopy (s : State) : Host.Outcome State Fault Refusal :=
  finish do
    let w ← s.rsRead s.rp
    let s ← s.push (entryM w)
    let s ← s.push (entryL w)
    .ok (s.advance 1 2)

/-- 3R@ (R211). -/
def execThreeRCopy (s : State) : Host.Outcome State Fault Refusal :=
  finish do
    let w ← s.rsRead s.rp
    let s ← s.push (entryH w)
    let s ← s.push (entryM w)
    let s ← s.push (entryL w)
    .ok (s.advance 1 4)

end Sys2Proof.Machine
end

