-- ==== Sys2Proof/Machine/Dispatch.lean ====
section
/-!
DEFINITION. The meaning of each instruction, one arm per constructor.
-/

namespace Sys2Proof.Machine

def exec (i : Instr) (s : State) : Host.Outcome State Fault Refusal :=
  match i with
  | .add => Sys2Proof.Machine.execAdd s
  | .addc => Sys2Proof.Machine.execAddc s
  | .sub => Sys2Proof.Machine.execSub s
  | .subb => Sys2Proof.Machine.execSubb s
  | .xor => Sys2Proof.Machine.execXor s
  | .and => Sys2Proof.Machine.execAnd s
  | .cmpEq => Sys2Proof.Machine.execCmpEq s
  | .cmpNe => Sys2Proof.Machine.execCmpNe s
  | .cmpLt => Sys2Proof.Machine.execCmpLt s
  | .cmpLe => Sys2Proof.Machine.execCmpLe s
  | .cmpGt => Sys2Proof.Machine.execCmpGt s
  | .cmpGe => Sys2Proof.Machine.execCmpGe s
  | .or => Sys2Proof.Machine.execOr s
  | .ccrFetch => Sys2Proof.Machine.execCcrFetch s
  | .ccrStore => Sys2Proof.Machine.execCcrStore s
  | .sleep => Sys2Proof.Machine.execSleep s
  | .shl => Sys2Proof.Machine.execShl s
  | .rol => Sys2Proof.Machine.execRol s
  | .shr => Sys2Proof.Machine.execShr s
  | .ror => Sys2Proof.Machine.execRor s
  | .inc => Sys2Proof.Machine.execInc s
  | .dec => Sys2Proof.Machine.execDec s
  | .daa => Sys2Proof.Machine.execDaa s
  | .not => Sys2Proof.Machine.execNot s
  | .togBf => Sys2Proof.Machine.execTogBf s
  | .setBcf => Sys2Proof.Machine.execSetBcf s
  | .di => Sys2Proof.Machine.execDi s
  | .inPort => Sys2Proof.Machine.execInPort s
  | .decr => Sys2Proof.Machine.execDecr s
  | .rti => Sys2Proof.Machine.execRti s
  | .swi => Sys2Proof.Machine.execSwi s
  | .outPort => Sys2Proof.Machine.execOutPort s
  | .table => Sys2Proof.Machine.execTable s
  | .unassigned21 => Sys2Proof.Machine.execUnassigned21 s
  | .toR => Sys2Proof.Machine.execToR s
  | .rCopy => Sys2Proof.Machine.execRCopy s
  | .unassigned24 => Sys2Proof.Machine.execUnassigned24 s
  | .exit => Sys2Proof.Machine.execExit s
  | .swap => Sys2Proof.Machine.execSwap s
  | .overCopy => Sys2Proof.Machine.execOver s
  | .twoToR => Sys2Proof.Machine.execTwoToR s
  | .threeToR => Sys2Proof.Machine.execThreeToR s
  | .twoRCopy => Sys2Proof.Machine.execTwoRCopy s
  | .threeRCopy => Sys2Proof.Machine.execThreeRCopy s
  | .rot => Sys2Proof.Machine.execRot s
  | .dup => Sys2Proof.Machine.execDup s
  | .drop => Sys2Proof.Machine.execDrop s
  | .dropr => Sys2Proof.Machine.execDropr s
  | .fetchX => Sys2Proof.Machine.execFetchX s
  | .fetchIncX => Sys2Proof.Machine.execFetchIncX s
  | .fetchXDec => Sys2Proof.Machine.execFetchXDec s
  | .fetchDirX addr => Sys2Proof.Machine.execFetchDirX addr s
  | .fetchY => Sys2Proof.Machine.execFetchY s
  | .fetchIncY => Sys2Proof.Machine.execFetchIncY s
  | .fetchYDec => Sys2Proof.Machine.execFetchYDec s
  | .fetchDirY addr => Sys2Proof.Machine.execFetchDirY addr s
  | .storeX => Sys2Proof.Machine.execStoreX s
  | .storeIncX => Sys2Proof.Machine.execStoreIncX s
  | .storeXDec => Sys2Proof.Machine.execStoreXDec s
  | .storeDirX addr => Sys2Proof.Machine.execStoreDirX addr s
  | .storeY => Sys2Proof.Machine.execStoreY s
  | .storeIncY => Sys2Proof.Machine.execStoreIncY s
  | .storeYDec => Sys2Proof.Machine.execStoreYDec s
  | .storeDirY addr => Sys2Proof.Machine.execStoreDirY addr s
  | .call target => Sys2Proof.Machine.execCall target s
  | .bra target => Sys2Proof.Machine.execBra target s
  | .lit n => Sys2Proof.Machine.execLit n s
  | .getSp => Sys2Proof.Machine.execGetSp s
  | .getRp => Sys2Proof.Machine.execGetRp s
  | .getX => Sys2Proof.Machine.execGetX s
  | .getY => Sys2Proof.Machine.execGetY s
  | .setSp => Sys2Proof.Machine.execSetSp s
  | .setRp => Sys2Proof.Machine.execSetRp s
  | .setX => Sys2Proof.Machine.execSetX s
  | .setY => Sys2Proof.Machine.execSetY s
  | .loadSp addr => Sys2Proof.Machine.execLoadSp addr s
  | .loadRp addr => Sys2Proof.Machine.execLoadRp addr s
  | .loadX addr => Sys2Proof.Machine.execLoadX addr s
  | .loadY addr => Sys2Proof.Machine.execLoadY addr s
  | .nop => Sys2Proof.Machine.execNop s
  | .nop7D => Sys2Proof.Machine.execNop7D s
  | .nop7E => Sys2Proof.Machine.execNop7E s
  | .nop7F => Sys2Proof.Machine.execNop7F s
  | .sbra a => Sys2Proof.Machine.execSbra a s
  | .scall a => Sys2Proof.Machine.execScall a s

end Sys2Proof.Machine
end

