-- ==== Sys2Proof/Machine/Step.lean ====
section
/-!
DEFINITION. One step of the machine, from one instruction boundary to the next.
-/

namespace Sys2Proof.Machine

/-- One step: what the boundary comes to, and the instruction if one executes (60_exceptions.md R257, 30_encoding.md
R84). -/
def step (s : State) : Host.Outcome State Fault Refusal :=
  match s.boundary with
  | .settled t => .next t
  | .execute i t => exec i t
  | .stopped e => e.outcome

/-- `s` with the instruction of an opcode-table row where the next step fetches it: its bytes at PC and PC + 1 in
program memory, and nothing that would keep the step from fetching (log entry 1). -/
def State.withFetchWord (s : State) (nbits w : Nat) : State :=
  s.withCode (tableBytes nbits w).1 (tableBytes nbits w).2

end Sys2Proof.Machine
end

