-- ==== Sys2Proof/Safety.lean ====
section
/-!
DEFINITION. The words the statements are written in: what a completed instruction leaves, which cells are there, when an
interrupt is due, and the invariant that every step keeps.
-/

namespace Sys2Proof.Machine

/-! ## RAM as a function from addresses to nibbles -/

/-- The cells `f`, but for `a`, which holds `v`. -/
def setCell (f : RamAddr → Nibble) (a : RamAddr) (v : Nibble) : RamAddr → Nibble :=
  fun b => if b = a then v else f b

/-- The word of the Return Stack entry at `a` in the cells `f`; 000h at the AUTOSLEEP entry (20_memory.md R47). -/
def entryWord (l : Config.RsLayout) (f : RamAddr → Nibble) (a : RamAddr) : RomAddr :=
  if a = autosleepEntry then 0x000#12 else f (rsCell a l.oH) ++ f (rsCell a l.oM) ++ f (rsCell a l.oL)

/-- The cells `f` after `w` is written to the entry at `a`; `f` itself at the AUTOSLEEP entry (20_memory.md R47). -/
def setEntry (l : Config.RsLayout) (f : RamAddr → Nibble) (a : RamAddr) (w : RomAddr) : RamAddr → Nibble :=
  if a = autosleepEntry then f
  else setCell (setCell (setCell f (rsCell a l.oH) (entryH w)) (rsCell a l.oM) (entryM w)) (rsCell a l.oL) (entryL w)

/-! ## What is there -/

/-- A Return Stack access at `a` is one the spec describes: the AUTOSLEEP entry, or an entry at a multiple of 4 whose
three cells the chip has (20_memory.md R47, R49; 00_scope.md R3). -/
abbrev State.rsHas (s : State) (a : RamAddr) : Prop :=
  a = autosleepEntry ∨ rsAligned a ∧ s.ramHas (rsCell a s.chip.rsLayout.oH) ∧ s.ramHas (rsCell a s.chip.rsLayout.oM) ∧
    s.ramHas (rsCell a s.chip.rsLayout.oL)

/-- The entry at `a` is one the spec describes, but the chip has not all of its three cells (20_memory.md R47, R40;
93_implementation_defined.md U16). -/
abbrev State.rsAbsent (s : State) (a : RamAddr) : Prop :=
  a ≠ autosleepEntry ∧ rsAligned a ∧ ¬s.rsHas a

/-- The bytes of the instruction at PC (30_encoding.md R70, R78). -/
def State.codeBytes (s : State) : List Byte :=
  if opLength (s.romAt s.pc) = 2 then [s.romAt s.pc, s.romAt (s.pc + 1)] else [s.romAt s.pc]

/-- The chip has program memory for every byte of the instruction at PC. -/
abbrev State.codePresent (s : State) : Prop :=
  s.romHas s.pc ∧ (opLength (s.romAt s.pc) = 2 → s.romHas (s.pc + 1))

/-! ## What an instruction does -/

/-- `bytes` are the encoding of `i`: the encoder writes them and the decoder reads `i` from them. -/
def EncodedAs (i : Instr) (bytes : List Byte) : Prop :=
  encode i = bytes ∧ decode bytes = .ok (i, [])

/-- `i` completes in `s`: `exec` answers a next state whose every field but RAM is that of `expected`, and whose every
RAM cell reads as `cells` says. -/
def Completes (i : Instr) (s expected : State) (cells : RamAddr → Nibble) : Prop :=
  ∃ t, exec i s = .next t ∧ t = { expected with ram := t.ram } ∧ ∀ a, t.ramAt a = cells a

/-- The outcome is the fault of one of the cells of the entry at `a`, a cell the chip does not have. In which order the
three are asked for is the model's, so which of them the fault names is not said. -/
def FaultsInEntry (s : State) (a : RamAddr) (o : Host.Outcome State Fault Refusal) : Prop :=
  ∃ b ∈ [rsCell a s.chip.rsLayout.oH, rsCell a s.chip.rsLayout.oM, rsCell a s.chip.rsLayout.oL],
    ¬s.ramHas b ∧ o = .fault (.ramAbsent b)

/-- The next state of an outcome changed by `f`; a stop as it is. -/
def mapNext (f : State → State) : Host.Outcome State Fault Refusal → Host.Outcome State Fault Refusal
  | .next s => .next (f s)
  | .fault e => .fault e
  | .refused e => .refused e

/-! ## Interrupts -/

/-- Bit k is the highest bit set in `v`. -/
abbrev HighestBit (v : BitVec 8) (k : Level) : Prop :=
  v.getLsbD k.val = true ∧ ∀ j : Level, k < j → v.getLsbD j.val = false

/-- INTk is acknowledged at a boundary of `s`: interrupts are enabled, INTk is pending and not active, and no higher
level is pending or active (60_exceptions.md R256, R257). -/
abbrev AcknowledgeDue (s : State) (k : Level) : Prop :=
  s.ccr.i = true ∧ s.ipr.getLsbD k.val = true ∧ s.iar.getLsbD k.val = false ∧
    ∀ j : Level, k < j → s.ipr.getLsbD j.val = false ∧ s.iar.getLsbD j.val = false

/-! ## The invariant -/

/-- What holds at reset and is kept by every step: RAM and ROM are in canonical form within the address space
(20_memory.md R40, R44), a sleeping core has interrupts enabled and none active (60_exceptions.md R270), an active level
is still pending (R256, R258), and without a way to write it RBR selects bank 1 (00_scope.md R3). -/
abbrev State.Inv (s : State) : Prop :=
  MemWf 256 s.ram ∧ MemWf 10240 s.rom ∧ (s.asleep = true → s.ccr.i = true ∧ s.iar = 0#8) ∧
    s.iar &&& ~~~s.ipr = 0#8 ∧ (s.chip.rbrPort = none → s.bank = 0)

end Sys2Proof.Machine
end

