-- ==== Sys2Proof/Certificates/Slice0/Obligations.lean ====
section
/-!
DEFINITION. The statements for the provers. Each names the rule of the spec it formalises; where a clause rests on a choice
of the model or of the spec's decision list, the docstring says so.

A result statement gives the instruction's encoding (`EncodedAs`) and its next state (`Completes`): every field but RAM by
the record, so that what the record does not name is unchanged, and every RAM cell by the function after it. `Config.free…`
stands for a value the spec leaves open: nothing is known of it. That `+` and `-` on PC wrap at 4096 and on the pointers at
256 is the spec's decision D1 and D2 (log entry 12).
-/

open Sys2Proof Sys2Proof.Machine

/-! ## Arithmetic (40_arithmetic.md) -/

/-- R100, R101. -/
def Obligations.AddAndAddcResults : Prop :=
  EncodedAs .add [0x00#8] ∧ EncodedAs .addc [0x01#8] ∧
  ∀ s : State, s.ramHas s.sp →
    let n1 := s.ramAt s.sp
    let n2 := s.tos
    let after (r : Nibble) (carry : Bool) : State :=
      { s with
        pc := s.pc + 1, tos := r, sp := s.sp - 1
        ccr := { c := carry, ccr2 := Config.freeCcr2 s.draws, b := carry, i := s.ccr.i }
        draws := s.draws + 1, cycles := s.cycles + 1 }
    Completes .add s (after (n1 + n2) (decide (16 ≤ n1.toNat + n2.toNat))) s.ramAt ∧
    Completes .addc s
      (after (n1 + n2 + if s.ccr.c then 1#4 else 0#4) (decide (16 ≤ n1.toNat + n2.toNat + s.ccr.c.toNat))) s.ramAt

/-- R102, R103, R108: the flag is the borrow, not the adder's carry out. -/
def Obligations.SubAndSubbResults : Prop :=
  EncodedAs .sub [0x02#8] ∧ EncodedAs .subb [0x03#8] ∧
  ∀ s : State, s.ramHas s.sp →
    let n1 := s.ramAt s.sp
    let n2 := s.tos
    let after (r : Nibble) (borrow : Bool) : State :=
      { s with
        pc := s.pc + 1, tos := r, sp := s.sp - 1
        ccr := { c := borrow, ccr2 := Config.freeCcr2 s.draws, b := borrow, i := s.ccr.i }
        draws := s.draws + 1, cycles := s.cycles + 1 }
    Completes .sub s (after (n1 - n2) (decide (n1 < n2))) s.ramAt ∧
    Completes .subb s
      (after (n1 - n2 - if s.ccr.c then 1#4 else 0#4) (decide (n1.toNat < n2.toNat + s.ccr.c.toNat))) s.ramAt

/-- R104, R105, R133: TOS alone is read and written, and `C` is kept. -/
def Obligations.IncDecAndNotResults : Prop :=
  EncodedAs .inc [0x14#8] ∧ EncodedAs .dec [0x15#8] ∧ EncodedAs .not [0x17#8] ∧
  ∀ s : State,
    let after (r : Nibble) : State :=
      { s with
        pc := s.pc + 1, tos := r
        ccr := { c := s.ccr.c, ccr2 := Config.freeCcr2 s.draws, b := decide (r = 0#4), i := s.ccr.i }
        draws := s.draws + 1, cycles := s.cycles + 1 }
    Completes .inc s (after (s.tos + 1#4)) s.ramAt ∧ Completes .dec s (after (s.tos - 1#4)) s.ramAt ∧
    Completes .not s (after (15#4 - s.tos)) s.ramAt

/-- R106. -/
def Obligations.DaaResult : Prop :=
  EncodedAs .daa [0x16#8] ∧
  ∀ s : State,
    let adjust : Bool := decide (9 < s.tos.toNat) || s.ccr.c
    Completes .daa s
      { s with
        pc := s.pc + 1, tos := if adjust then s.tos + 6#4 else s.tos
        ccr := { c := adjust, ccr2 := Config.freeCcr2 s.draws, b := adjust, i := s.ccr.i }
        draws := s.draws + 1, cycles := s.cycles + 1 } s.ramAt

/-- R107. That bits 11 to 4 of the entry become free values is the spec's decision D31 (log entry 16). -/
def Obligations.DecrResult : Prop :=
  EncodedAs .decr [0x1C#8] ∧
  ∀ s : State, s.rsHas s.rp →
    let n := (s.rsAt s.rp).extractLsb' 0 4 - 1#4
    Completes .decr s
      { s with
        pc := s.pc + 1
        ccr := { c := s.ccr.c, ccr2 := Config.freeCcr2 (s.draws + 1), b := decide (n ≠ 0#4), i := s.ccr.i }
        draws := s.draws + 2, cycles := s.cycles + 2 }
      (setEntry s.chip.rsLayout s.ramAt s.rp (Config.freeRsNibble s.draws 2 ++ Config.freeRsNibble s.draws 1 ++ n))

/-! ## Compare (41_compare.md) -/

/-- R120 to R126: `C` is a free value. -/
def Obligations.CompareResults : Prop :=
  EncodedAs .cmpEq [0x06#8] ∧ EncodedAs .cmpNe [0x07#8] ∧ EncodedAs .cmpLt [0x08#8] ∧ EncodedAs .cmpLe [0x09#8] ∧
  EncodedAs .cmpGt [0x0A#8] ∧ EncodedAs .cmpGe [0x0B#8] ∧
  ∀ s : State, s.ramHas s.sp →
    let n1 := (s.ramAt s.sp).toNat
    let n2 := s.tos.toNat
    let after (relation : Bool) : State :=
      { s with
        pc := s.pc + 1, tos := s.ramAt s.sp, sp := s.sp - 1
        ccr := { c := Config.freeCarry s.draws, ccr2 := Config.freeCcr2 s.draws, b := relation, i := s.ccr.i }
        draws := s.draws + 1, cycles := s.cycles + 1 }
    Completes .cmpEq s (after (decide (n1 = n2))) s.ramAt ∧ Completes .cmpNe s (after (decide (n1 ≠ n2))) s.ramAt ∧
    Completes .cmpLt s (after (decide (n1 < n2))) s.ramAt ∧ Completes .cmpLe s (after (decide (n1 ≤ n2))) s.ramAt ∧
    Completes .cmpGt s (after (decide (n1 > n2))) s.ramAt ∧ Completes .cmpGe s (after (decide (n1 ≥ n2))) s.ramAt

/-! ## Logic, shifts and rotates (42_logical_shift.md) -/

/-- R130, R131, R132. -/
def Obligations.XorAndOrResults : Prop :=
  EncodedAs .xor [0x04#8] ∧ EncodedAs .and [0x05#8] ∧ EncodedAs .or [0x0C#8] ∧
  ∀ s : State, s.ramHas s.sp →
    let after (r : Nibble) : State :=
      { s with
        pc := s.pc + 1, tos := r, sp := s.sp - 1
        ccr := { c := s.ccr.c, ccr2 := Config.freeCcr2 s.draws, b := decide (r = 0#4), i := s.ccr.i }
        draws := s.draws + 1, cycles := s.cycles + 1 }
    Completes .xor s (after (s.ramAt s.sp ^^^ s.tos)) s.ramAt ∧
    Completes .and s (after (s.ramAt s.sp &&& s.tos)) s.ramAt ∧
    Completes .or s (after (s.ramAt s.sp ||| s.tos)) s.ramAt

/-- R134 to R137. -/
def Obligations.ShiftAndRotateResults : Prop :=
  EncodedAs .shl [0x10#8] ∧ EncodedAs .shr [0x12#8] ∧ EncodedAs .rol [0x11#8] ∧ EncodedAs .ror [0x13#8] ∧
  ∀ s : State,
    let after (r : Nibble) (out : Bool) : State :=
      { s with
        pc := s.pc + 1, tos := r
        ccr := { c := out, ccr2 := Config.freeCcr2 s.draws, b := out, i := s.ccr.i }
        draws := s.draws + 1, cycles := s.cycles + 1 }
    let c : Nibble := if s.ccr.c then 1#4 else 0#4
    Completes .shl s (after (s.tos <<< 1) (s.tos.getLsbD 3)) s.ramAt ∧
    Completes .shr s (after (s.tos >>> 1) (s.tos.getLsbD 0)) s.ramAt ∧
    Completes .rol s (after (s.tos <<< 1 ||| c) (s.tos.getLsbD 3)) s.ramAt ∧
    Completes .ror s (after (s.tos >>> 1 ||| c <<< 3) (s.tos.getLsbD 0)) s.ramAt

/-! ## Flags (43_flag.md) -/

/-- R150, R151, R152. -/
def Obligations.TogBfSetBcfAndDiResults : Prop :=
  EncodedAs .togBf [0x18#8] ∧ EncodedAs .setBcf [0x19#8] ∧ EncodedAs .di [0x1A#8] ∧
  ∀ s : State,
    let after (c b i : Bool) : State :=
      { s with
        pc := s.pc + 1, ccr := { c := c, ccr2 := Config.freeCcr2 s.draws, b := b, i := i }
        draws := s.draws + 1, cycles := s.cycles + 1 }
    Completes .togBf s (after s.ccr.c (!s.ccr.b) s.ccr.i) s.ramAt ∧
    Completes .setBcf s (after true true s.ccr.i) s.ramAt ∧
    Completes .di s (after s.ccr.c s.ccr.b false) s.ramAt

/-- R153, under the spec's decision D32 on what CCR@ pushes and that it changes no flag (log entry 33), and R154: CCR! loads
the four bits. -/
def Obligations.CcrFetchAndStoreResults : Prop :=
  EncodedAs .ccrFetch [0x0D#8] ∧ EncodedAs .ccrStore [0x0E#8] ∧
  (∀ s : State, s.ramHas (s.sp + 1) →
    Completes .ccrFetch s
      { s with
        pc := s.pc + 1, sp := s.sp + 1, cycles := s.cycles + 1
        tos := BitVec.ofNat 4 (8 * s.ccr.c.toNat + 4 * s.ccr.ccr2.toNat + 2 * s.ccr.b.toNat + s.ccr.i.toNat) }
      (setCell s.ramAt (s.sp + 1) s.tos)) ∧
  ∀ s : State, s.ramHas s.sp →
    Completes .ccrStore s
      { s with
        pc := s.pc + 1, tos := s.ramAt s.sp, sp := s.sp - 1, cycles := s.cycles + 1
        ccr := { c := s.tos.getLsbD 3, ccr2 := s.tos.getLsbD 2, b := s.tos.getLsbD 1, i := s.tos.getLsbD 0 } } s.ramAt

/-! ## Branches, calls and system instructions (44_branch_system.md) -/

/-- R161, R162, under the spec's decision D22 that neither writes a flag (log entry 34): SBRA completes at every position when
it is not taken, and when taken anywhere but at offset 3Fh of a page. -/
def Obligations.BraAndSbraResults : Prop :=
  (∀ target : RomAddr, EncodedAs (.bra target) [0x5#4 ++ target.extractLsb' 8 4, target.extractLsb' 0 8]) ∧
  (∀ a : BitVec 6, EncodedAs (.sbra a) [0b10#2 ++ a]) ∧
  (∀ (s : State) (target : RomAddr),
    Completes (.bra target) s
      { s with pc := if s.ccr.b then target else s.pc + 2, cycles := s.cycles + 2 } s.ramAt) ∧
  ∀ (s : State) (a : BitVec 6), s.ccr.b = false ∨ s.pc.extractLsb' 0 6 ≠ 0x3F#6 →
    Completes (.sbra a) s
      { s with pc := if s.ccr.b then s.pc.extractLsb' 6 6 ++ a else s.pc + 1, cycles := s.cycles + 2 } s.ramAt

/-- R162: "if PC[5:0] = 3Fh: refuse", the spec's decision D8 (log entry 24). -/
def Obligations.TakenSbraAtPageEndIsRefused : Prop :=
  ∀ (s : State) (a : BitVec 6), s.ccr.b = true → s.pc.extractLsb' 0 6 = 0x3F#6 →
    exec (.sbra a) s = .refused (.sbraAtPageEnd s.pc)

/-- R163, R164. -/
def Obligations.CallAndScallResults : Prop :=
  (∀ target : RomAddr, EncodedAs (.call target) [0x4#4 ++ target.extractLsb' 8 4, target.extractLsb' 0 8]) ∧
  (∀ a : BitVec 6, EncodedAs (.scall a) [0b11#2 ++ a]) ∧
  ∀ s : State, s.rsHas (s.rp + 4) →
    (∀ target : RomAddr,
      Completes (.call target) s { s with pc := target, rp := s.rp + 4, cycles := s.cycles + 3 }
        (setEntry s.chip.rsLayout s.ramAt (s.rp + 4) (s.pc + 2))) ∧
    ∀ a : BitVec 6,
      Completes (.scall a) s { s with pc := BitVec.ofNat 12 (8 * a.toNat), rp := s.rp + 4, cycles := s.cycles + 2 }
        (setEntry s.chip.rsLayout s.ramAt (s.rp + 4) (s.pc + 1))

/-- R166. -/
def Obligations.ExitResult : Prop :=
  EncodedAs .exit [0x25#8] ∧
  ∀ s : State, s.rsHas s.rp →
    Completes .exit s { s with pc := s.rsAt s.rp, rp := s.rp - 4, cycles := s.cycles + 2 } s.ramAt

/-- R167, under the spec's decision D14 on which bits RTI clears (log entry 28). -/
def Obligations.RtiResult : Prop :=
  EncodedAs .rti [0x1D#8] ∧
  ∀ s : State, s.rsHas s.rp →
    let after : State :=
      { s with
        pc := s.rsAt s.rp, rp := s.rp - 4, cycles := s.cycles + 2
        ccr := { c := s.ccr.c, ccr2 := s.ccr.ccr2, b := s.ccr.b, i := true } }
    (s.iar = 0#8 → Completes .rti s after s.ramAt) ∧
    ∀ k : Level, HighestBit s.iar k →
      Completes .rti s { after with iar := s.iar &&& ~~~(1#8 <<< k.val), ipr := s.ipr &&& ~~~(1#8 <<< k.val) } s.ramAt

/-- R168, under the spec's decision D7 on which operand is which half (log entry 22). -/
def Obligations.SwiResult : Prop :=
  EncodedAs .swi [0x1E#8] ∧
  ∀ s : State, s.ramHas s.sp → s.ramHas (s.sp - 1) →
    s.ramAt s.sp ∈ [0#4, 1#4, 2#4, 4#4, 8#4] → s.tos ∈ [0#4, 1#4, 2#4, 4#4, 8#4] →
    Completes .swi s
      { s with
        pc := s.pc + 1, tos := s.ramAt (s.sp - 1), sp := s.sp - 2
        ipr := s.ipr ||| (s.ramAt s.sp ++ s.tos)
        ccr := { c := s.ccr.c, ccr2 := Config.freeCcr2 s.draws, b := s.ccr.b, i := s.ccr.i }
        draws := s.draws + 1, cycles := s.cycles + 1 } s.ramAt

/-- R168: "if n1 not in {0,1,2,4,8} or n2 not in {0,1,2,4,8}: refuse", the spec's
decision D24 (log entry 23). -/
def Obligations.SwiOtherOperandsAreRefused : Prop :=
  ∀ s : State, s.ramHas s.sp → s.ramHas (s.sp - 1) →
    s.ramAt s.sp ∉ [0#4, 1#4, 2#4, 4#4, 8#4] ∨ s.tos ∉ [0#4, 1#4, 2#4, 4#4, 8#4] →
    exec .swi s = .refused (.swiOperand (s.ramAt s.sp) s.tos)

/-- R169, under the spec's decision D15 on when the core stops (log entry 29). -/
def Obligations.SleepResult : Prop :=
  EncodedAs .sleep [0x0F#8] ∧
  ∀ s : State,
    Completes .sleep s
      { s with
        pc := s.pc + 1, asleep := s.asleep || decide (s.ipr = 0#8 ∧ s.iar = 0#8)
        ccr := { c := s.ccr.c, ccr2 := Config.freeCcr2 s.draws, b := s.ccr.b, i := true }
        draws := s.draws + 1, cycles := s.cycles + 1 } s.ramAt

/-- R170, R171. -/
def Obligations.NopResults : Prop :=
  EncodedAs .nop [0x7C#8] ∧ EncodedAs .nop7D [0x7D#8] ∧ EncodedAs .nop7E [0x7E#8] ∧ EncodedAs .nop7F [0x7F#8] ∧
  ∀ s : State, ∀ i ∈ [Instr.nop, .nop7D, .nop7E, .nop7F],
    Completes i s { s with pc := s.pc + 1, cycles := s.cycles + 1 } s.ramAt

/-- R79: "the step function refuses them", the spec's decision D9 (log entry 27). -/
def Obligations.UnassignedCodesAreRefused : Prop :=
  EncodedAs .unassigned21 [0x21#8] ∧ EncodedAs .unassigned24 [0x24#8] ∧
  ∀ s : State, exec .unassigned21 s = .refused (.unassignedCode 0x21#8) ∧
    exec .unassigned24 s = .refused (.unassignedCode 0x24#8)

/-! ## Register instructions (45_register.md) -/

/-- R180 to R183: SP@ pushes SP + 1 as an 8-bit value, which is the spec's decision D4 (log entry 30). -/
def Obligations.RegisterFetchResults : Prop :=
  EncodedAs .getSp [0x70#8] ∧ EncodedAs .getRp [0x71#8] ∧ EncodedAs .getX [0x72#8] ∧ EncodedAs .getY [0x73#8] ∧
  ∀ s : State, s.ramHas (s.sp + 1) → s.ramHas (s.sp + 2) →
    let pushes (i : Instr) (v : BitVec 8) : Prop :=
      Completes i s
        { s with pc := s.pc + 1, tos := v.extractLsb' 0 4, sp := s.sp + 2, cycles := s.cycles + 2 }
        (setCell (setCell s.ramAt (s.sp + 1) s.tos) (s.sp + 2) (v.extractLsb' 4 4))
    pushes .getSp (s.sp + 1) ∧ pushes .getRp s.rp ∧ pushes .getX s.x ∧ pushes .getY s.y

/-- R184, under the spec's decision D5: TOS is a free value (log entry 15). -/
def Obligations.SetSpResult : Prop :=
  EncodedAs .setSp [0x74#8] ∧
  ∀ s : State, s.ramHas s.sp →
    Completes .setSp s
      { s with
        pc := s.pc + 1, sp := s.ramAt s.sp ++ s.tos, tos := Config.freeTos s.draws
        draws := s.draws + 1, cycles := s.cycles + 2 } s.ramAt

/-- R185, R186, R187. -/
def Obligations.RegisterStoreResults : Prop :=
  EncodedAs .setRp [0x75#8] ∧ EncodedAs .setX [0x76#8] ∧ EncodedAs .setY [0x77#8] ∧
  ∀ s : State, s.ramHas s.sp → s.ramHas (s.sp - 1) →
    let v : BitVec 8 := s.ramAt s.sp ++ s.tos
    let after : State :=
      { s with pc := s.pc + 1, tos := s.ramAt (s.sp - 1), sp := s.sp - 2, cycles := s.cycles + 2 }
    Completes .setRp s { after with rp := v } s.ramAt ∧ Completes .setX s { after with x := v } s.ramAt ∧
    Completes .setY s { after with y := v } s.ramAt

/-- R188 to R191. -/
def Obligations.RegisterLoadResults : Prop :=
  ∀ v : RamAddr,
    EncodedAs (.loadSp v) [0x78#8, v] ∧ EncodedAs (.loadRp v) [0x79#8, v] ∧ EncodedAs (.loadX v) [0x7A#8, v] ∧
    EncodedAs (.loadY v) [0x7B#8, v] ∧
    ∀ s : State,
      let after : State := { s with pc := s.pc + 2, cycles := s.cycles + 2 }
      Completes (.loadSp v) s { after with sp := v } s.ramAt ∧ Completes (.loadRp v) s { after with rp := v } s.ramAt ∧
      Completes (.loadX v) s { after with x := v } s.ramAt ∧ Completes (.loadY v) s { after with y := v } s.ramAt

/-! ## Stack instructions (46_stack.md) -/

/-- R200, R203. -/
def Obligations.SwapAndRotResults : Prop :=
  EncodedAs .swap [0x26#8] ∧ EncodedAs .rot [0x2C#8] ∧
  ∀ s : State, s.ramHas s.sp →
    Completes .swap s { s with pc := s.pc + 1, tos := s.ramAt s.sp, cycles := s.cycles + 1 }
      (setCell s.ramAt s.sp s.tos) ∧
    (s.ramHas (s.sp - 1) →
      Completes .rot s { s with pc := s.pc + 1, tos := s.ramAt (s.sp - 1), cycles := s.cycles + 3 }
        (setCell (setCell s.ramAt (s.sp - 1) (s.ramAt s.sp)) s.sp s.tos))

/-- R201, R202, R212. -/
def Obligations.OverDupAndLitResults : Prop :=
  EncodedAs .overCopy [0x27#8] ∧ EncodedAs .dup [0x2D#8] ∧ (∀ n : Nibble, EncodedAs (.lit n) [0x6#4 ++ n]) ∧
  ∀ s : State, s.ramHas (s.sp + 1) →
    let pushes (i : Instr) (v : Nibble) : Prop :=
      Completes i s { s with pc := s.pc + 1, tos := v, sp := s.sp + 1, cycles := s.cycles + 1 }
        (setCell s.ramAt (s.sp + 1) s.tos)
    (s.ramHas s.sp → pushes .overCopy (s.ramAt s.sp)) ∧ pushes .dup s.tos ∧ ∀ n : Nibble, pushes (.lit n) n

/-- R204, R205. -/
def Obligations.DropAndDroprResults : Prop :=
  EncodedAs .drop [0x2E#8] ∧ EncodedAs .dropr [0x2F#8] ∧
  ∀ s : State,
    (s.ramHas s.sp →
      Completes .drop s { s with pc := s.pc + 1, tos := s.ramAt s.sp, sp := s.sp - 1, cycles := s.cycles + 1 } s.ramAt) ∧
    Completes .dropr s { s with pc := s.pc + 1, rp := s.rp - 4, cycles := s.cycles + 1 } s.ramAt

/-- R206, R207, R208: the nibbles of the entry that the instruction does not define are free values. -/
def Obligations.MoveToReturnStackResults : Prop :=
  EncodedAs .toR [0x22#8] ∧ EncodedAs .twoToR [0x28#8] ∧ EncodedAs .threeToR [0x29#8] ∧
  ∀ s : State, s.rsHas (s.rp + 4) → s.ramHas s.sp →
    let f2 := Config.freeRsNibble s.draws 2
    let f1 := Config.freeRsNibble s.draws 1
    let after : State := { s with pc := s.pc + 1, rp := s.rp + 4 }
    let entry (w : RomAddr) : RamAddr → Nibble := setEntry s.chip.rsLayout s.ramAt (s.rp + 4) w
    Completes .toR s
      { after with tos := s.ramAt s.sp, sp := s.sp - 1, draws := s.draws + 1, cycles := s.cycles + 1 }
      (entry (f2 ++ f1 ++ s.tos)) ∧
    (s.ramHas (s.sp - 1) →
      Completes .twoToR s
        { after with tos := s.ramAt (s.sp - 1), sp := s.sp - 2, draws := s.draws + 1, cycles := s.cycles + 3 }
        (entry (f2 ++ s.ramAt s.sp ++ s.tos)) ∧
      (s.ramHas (s.sp - 2) →
        Completes .threeToR s { after with tos := s.ramAt (s.sp - 2), sp := s.sp - 3, cycles := s.cycles + 4 }
          (entry (s.ramAt (s.sp - 1) ++ s.ramAt s.sp ++ s.tos))))

/-- R209, R210, R211. -/
def Obligations.CopyFromReturnStackResults : Prop :=
  EncodedAs .rCopy [0x23#8] ∧ EncodedAs .twoRCopy [0x2A#8] ∧ EncodedAs .threeRCopy [0x2B#8] ∧
  ∀ s : State, s.rsHas s.rp → s.ramHas (s.sp + 1) →
    let w := s.rsAt s.rp
    let after : State := { s with pc := s.pc + 1, tos := w.extractLsb' 0 4 }
    let spilled := setCell s.ramAt (s.sp + 1) s.tos
    Completes .rCopy s { after with sp := s.sp + 1, cycles := s.cycles + 1 } spilled ∧
    (s.ramHas (s.sp + 2) →
      Completes .twoRCopy s { after with sp := s.sp + 2, cycles := s.cycles + 2 }
        (setCell spilled (s.sp + 2) (w.extractLsb' 4 4)) ∧
      (s.ramHas (s.sp + 3) →
        Completes .threeRCopy s { after with sp := s.sp + 3, cycles := s.cycles + 4 }
          (setCell (setCell spilled (s.sp + 2) (w.extractLsb' 8 4)) (s.sp + 3) (w.extractLsb' 4 4))))

/-! ## ROM data, RAM through X and Y, ports (47_memory_io.md) -/

/-- R220, under the spec's decision D29 that the byte comes through the selected bank (log entry 35): the return address is
read after the two pushes. -/
def Obligations.TableResult : Prop :=
  EncodedAs .table [0x20#8] ∧
  ∀ s : State, s.rsHas s.rp → s.romHas (s.rsAt s.rp) → s.ramHas (s.sp + 1) → s.ramHas (s.sp + 2) → s.rsHas (s.rp - 4) →
    let d := s.romAt (s.rsAt s.rp)
    let cells := setCell (setCell s.ramAt (s.sp + 1) s.tos) (s.sp + 2) (d.extractLsb' 4 4)
    Completes .table s
      { s with
        pc := entryWord s.chip.rsLayout cells (s.rp - 4), tos := d.extractLsb' 0 4, sp := s.sp + 2, rp := s.rp - 8
        cycles := s.cycles + 3 } cells

/-- R221 to R228: the register, the effective address and the register's value after, for the eight fetches. The cell TOS
is spilled to is not the one fetched (R237). -/
def Obligations.FetchThroughXAndYResults : Prop :=
  EncodedAs .fetchX [0x30#8] ∧ EncodedAs .fetchIncX [0x31#8] ∧ EncodedAs .fetchXDec [0x32#8] ∧
  (∀ a, EncodedAs (.fetchDirX a) [0x33#8, a]) ∧
  EncodedAs .fetchY [0x34#8] ∧ EncodedAs .fetchIncY [0x35#8] ∧ EncodedAs .fetchYDec [0x36#8] ∧
  (∀ a, EncodedAs (.fetchDirY a) [0x37#8, a]) ∧
  ∀ s : State, s.ramHas (s.sp + 1) →
    let fetches (i : Instr) (ea : RamAddr) (after : State) : Prop :=
      s.ramHas ea → ea ≠ s.sp + 1 →
        Completes i s { after with tos := s.ramAt ea, sp := s.sp + 1 } (setCell s.ramAt (s.sp + 1) s.tos)
    let one : State := { s with pc := s.pc + 1, cycles := s.cycles + 1 }
    let two : State := { s with pc := s.pc + 2, cycles := s.cycles + 2 }
    fetches .fetchX s.x one ∧
    fetches .fetchIncX (s.x + 1) { one with x := s.x + 1 } ∧
    fetches .fetchXDec s.x { one with x := s.x - 1 } ∧
    (∀ a, fetches (.fetchDirX a) a { two with x := a }) ∧
    fetches .fetchY s.y one ∧
    fetches .fetchIncY (s.y + 1) { one with y := s.y + 1 } ∧
    fetches .fetchYDec s.y { one with y := s.y - 1 } ∧
    ∀ a, fetches (.fetchDirY a) a { two with y := a }

/-- R229 to R236: the same for the eight stores. The cell TOS is refilled from is not the one stored to (R237). -/
def Obligations.StoreThroughXAndYResults : Prop :=
  EncodedAs .storeX [0x38#8] ∧ EncodedAs .storeIncX [0x39#8] ∧ EncodedAs .storeXDec [0x3A#8] ∧
  (∀ a, EncodedAs (.storeDirX a) [0x3B#8, a]) ∧
  EncodedAs .storeY [0x3C#8] ∧ EncodedAs .storeIncY [0x3D#8] ∧ EncodedAs .storeYDec [0x3E#8] ∧
  (∀ a, EncodedAs (.storeDirY a) [0x3F#8, a]) ∧
  ∀ s : State, s.ramHas s.sp →
    let stores (i : Instr) (ea : RamAddr) (after : State) : Prop :=
      s.ramHas ea → ea ≠ s.sp →
        Completes i s { after with tos := s.ramAt s.sp, sp := s.sp - 1 } (setCell s.ramAt ea s.tos)
    let one : State := { s with pc := s.pc + 1, cycles := s.cycles + 1 }
    let two : State := { s with pc := s.pc + 2, cycles := s.cycles + 2 }
    stores .storeX s.x one ∧
    stores .storeIncX (s.x + 1) { one with x := s.x + 1 } ∧
    stores .storeXDec s.x { one with x := s.x - 1 } ∧
    (∀ a, stores (.storeDirX a) a { two with x := a }) ∧
    stores .storeY s.y one ∧
    stores .storeIncY (s.y + 1) { one with y := s.y + 1 } ∧
    stores .storeYDec s.y { one with y := s.y - 1 } ∧
    ∀ a, stores (.storeDirY a) a { two with y := a }

/-- R237: "In that case the step is refused", the spec's decision D19 (log entry 25). -/
def Obligations.StackCellCollisionsAreRefused : Prop :=
  ∀ s : State,
    let refuses (i : Instr) (ea cell : RamAddr) : Prop := ea = cell → exec i s = .refused (.stackCellCollision ea)
    refuses .fetchX s.x (s.sp + 1) ∧ refuses .fetchIncX (s.x + 1) (s.sp + 1) ∧ refuses .fetchXDec s.x (s.sp + 1) ∧
    (∀ a, refuses (.fetchDirX a) a (s.sp + 1)) ∧
    refuses .fetchY s.y (s.sp + 1) ∧ refuses .fetchIncY (s.y + 1) (s.sp + 1) ∧ refuses .fetchYDec s.y (s.sp + 1) ∧
    (∀ a, refuses (.fetchDirY a) a (s.sp + 1)) ∧
    refuses .storeX s.x s.sp ∧ refuses .storeIncX (s.x + 1) s.sp ∧ refuses .storeXDec s.x s.sp ∧
    (∀ a, refuses (.storeDirX a) a s.sp) ∧
    refuses .storeY s.y s.sp ∧ refuses .storeIncY (s.y + 1) s.sp ∧ refuses .storeYDec s.y s.sp ∧
    ∀ a, refuses (.storeDirY a) a s.sp

/-- R240: the nibble read is the environment's, a free value (log entry 17); `B` tests what the chip's `IN_BRANCH_OPERAND`
says, both values of which are covered (log entry 8). -/
def Obligations.InResult : Prop :=
  EncodedAs .inPort [0x1B#8] ∧
  ∀ s : State,
    let n := Config.portNibble s.draws s.tos
    let after (tested : Nibble) : State :=
      { s with
        pc := s.pc + 1, tos := n
        ccr := { c := s.ccr.c, ccr2 := Config.freeCcr2 (s.draws + 1), b := decide (tested = 0#4), i := s.ccr.i }
        draws := s.draws + 2, cycles := s.cycles + 1 }
    (s.chip.inBranch = .port → Completes .inPort s (after s.tos) s.ramAt) ∧
    (s.chip.inBranch = .data → Completes .inPort s (after n) s.ramAt)

/-- R241: a `PortWrite` event, and no other effect on a chip with no bank register at that port; for one that has, which is
the model's choice (log entry 9), see `OutToBankRegister`. -/
def Obligations.OutResult : Prop :=
  EncodedAs .outPort [0x1F#8] ∧
  ∀ s : State, s.ramHas s.sp → s.ramHas (s.sp - 1) → s.chip.rbrPort ≠ some s.tos →
    Completes .outPort s
      { s with
        pc := s.pc + 1, tos := s.ramAt (s.sp - 1), sp := s.sp - 2
        ccr := { c := s.ccr.c, ccr2 := Config.freeCcr2 s.draws, b := s.ccr.b, i := s.ccr.i }
        out := s.out ++ [(s.tos, s.ramAt s.sp)], draws := s.draws + 1, cycles := s.cycles + 1 } s.ramAt

/-- The model's choice of `RBR_ACCESS` (R3, 92_eei_decisions.md D16; log entry 9): on a chip whose bank register answers
at a port, OUT to it writes RBR, and is refused while the program runs in 800h to FFFh. -/
def Obligations.OutToBankRegister : Prop :=
  ∀ s : State, s.ramHas s.sp → s.ramHas (s.sp - 1) → s.chip.rbrPort = some s.tos →
    (s.pc.toNat < 0x800 →
      Completes .outPort s
        { s with
          pc := s.pc + 1, tos := s.ramAt (s.sp - 1), sp := s.sp - 2, rbr := s.ramAt s.sp
          ccr := { c := s.ccr.c, ccr2 := Config.freeCcr2 s.draws, b := s.ccr.b, i := s.ccr.i }
          out := s.out ++ [(s.tos, s.ramAt s.sp)], draws := s.draws + 1, cycles := s.cycles + 1 } s.ramAt) ∧
    (0x800 ≤ s.pc.toNat → exec .outPort s = .refused (.bankSwitchInBank s.pc))

/-! ## Memory and the Return Stack (20_memory.md, 10_state.md) -/

/-- The spec's decision D21 (20_memory.md R49, U11; log entry 26): a Return Stack access with RP not a multiple of 4 is
refused, that of the interrupt acknowledge too. -/
def Obligations.UnalignedReturnStackIsRefused : Prop :=
  ∀ s : State, s.rp &&& 3#8 ≠ 0#8 →
    (∀ i ∈ [Instr.exit, .rti, .decr, .rCopy, .twoRCopy, .threeRCopy, .table],
      exec i s = .refused (.rpUnaligned s.rp)) ∧
    (∀ target, exec (.call target) s = .refused (.rpUnaligned (s.rp + 4))) ∧
    (∀ a, exec (.scall a) s = .refused (.rpUnaligned (s.rp + 4))) ∧
    (s.ramHas s.sp → exec .toR s = .refused (.rpUnaligned (s.rp + 4)) ∧
      (s.ramHas (s.sp - 1) → exec .twoToR s = .refused (.rpUnaligned (s.rp + 4)) ∧
        (s.ramHas (s.sp - 2) → exec .threeToR s = .refused (.rpUnaligned (s.rp + 4))))) ∧
    ∀ k, s.env = [] → AcknowledgeDue s k → step s = .refused (.rpUnaligned (s.rp + 4))

/-- R47, R19: a 12-bit word written to an entry is read back, at the AUTOSLEEP entry 000h is, whatever RAM holds; and a
write touches no cell outside the entry's three, none at all at the AUTOSLEEP entry. -/
def Obligations.ReturnStackEntryReadsBack : Prop :=
  (∀ (s : State) (a : RamAddr) (w : RomAddr), s.rsHas a →
    ∃ t, s.rsWrite a w .word = .ok t ∧
      t.rsRead a = .ok (if a = 0xFC#8 then 0x000#12 else w) ∧
      ∀ b : RamAddr,
        (a = 0xFC#8 ∨ b ≠ a + BitVec.ofNat 8 s.chip.rsLayout.oH.val ∧ b ≠ a + BitVec.ofNat 8 s.chip.rsLayout.oM.val ∧
          b ≠ a + BitVec.ofNat 8 s.chip.rsLayout.oL.val) →
        t.ramAt b = s.ramAt b) ∧
  ∀ s : State, s.rsRead 0xFC#8 = .ok 0x000#12

/-- R44: the base bank is always visible, bits 1 and 0 of RBR do not matter, and 800h to FFFh shows another place of the
image for each of the four banks. -/
def Obligations.RomBankSelection : Prop :=
  ∀ (s : State) (v : BitVec 4),
    let t : State := { s with rbr := v }
    (∀ a : RomAddr, a.toNat < 0x800 → t.romAt a = s.romAt a) ∧
    (v.extractLsb' 2 2 = s.rbr.extractLsb' 2 2 → ∀ a, t.romAt a = s.romAt a) ∧
    ∀ a b : RomAddr, t.romIndex a = s.romIndex b ↔
      a = b ∧ (a.toNat < 0x800 ∨ v.extractLsb' 2 2 = s.rbr.extractLsb' 2 2)

/-- The spec's decisions D26 and D27 (93_implementation_defined.md U15, U16; log entries 10 and 11): an access to ROM or RAM
that is not there has no successor, whichever of the accesses of an instruction, a fetch or the acknowledge it is. Which of
several absent cells the fault names is the model's choice (log entry 10). -/
def Obligations.AbsentMemoryFaults : Prop :=
  (∀ s : State, s.env = [] → (∀ k, ¬AcknowledgeDue s k) → s.asleep = false →
    (¬s.romHas s.pc → step s = .fault (.romAbsent s.pc)) ∧
    (s.romHas s.pc → opLength (s.romAt s.pc) = 2 → ¬s.romHas (s.pc + 1) → step s = .fault (.romAbsent (s.pc + 1)))) ∧
  ∀ s : State,
    let faults (i : Instr) (a : RamAddr) : Prop := exec i s = .fault (.ramAbsent a)
    let fetchFaults (i : Instr) (ea : RamAddr) : Prop := ea ≠ s.sp + 1 →
      (¬s.ramHas ea → faults i ea) ∧ (s.ramHas ea → ¬s.ramHas (s.sp + 1) → faults i (s.sp + 1))
    let storeFaults (i : Instr) (ea : RamAddr) : Prop := ea ≠ s.sp →
      (¬s.ramHas ea → faults i ea) ∧ (s.ramHas ea → ¬s.ramHas s.sp → faults i s.sp)
    -- TABLE's byte
    (s.rsHas s.rp → ¬s.romHas (s.rsAt s.rp) → exec .table s = .fault (.romAbsent (s.rsAt s.rp))) ∧
    -- elements taken from the Expression Stack
    (¬s.ramHas s.sp → ∀ i ∈ [Instr.add, .addc, .sub, .subb, .xor, .and, .or, .cmpEq, .cmpNe, .cmpLt, .cmpLe, .cmpGt,
      .cmpGe, .ccrStore, .swi, .outPort, .setSp, .setRp, .setX, .setY, .swap, .overCopy, .rot, .drop, .toR, .twoToR,
      .threeToR], faults i s.sp) ∧
    (s.ramHas s.sp → ¬s.ramHas (s.sp - 1) →
      ∀ i ∈ [Instr.swi, .outPort, .setRp, .setX, .setY, .rot, .twoToR, .threeToR], faults i (s.sp - 1)) ∧
    (s.ramHas s.sp → s.ramHas (s.sp - 1) → ¬s.ramHas (s.sp - 2) → faults .threeToR (s.sp - 2)) ∧
    -- elements put on it
    (¬s.ramHas (s.sp + 1) →
      (∀ i ∈ [Instr.dup, .ccrFetch, .getSp, .getRp, .getX, .getY], faults i (s.sp + 1)) ∧
      (∀ n, faults (.lit n) (s.sp + 1)) ∧ (s.ramHas s.sp → faults .overCopy (s.sp + 1)) ∧
      (s.rsHas s.rp → (∀ i ∈ [Instr.rCopy, .twoRCopy, .threeRCopy], faults i (s.sp + 1)) ∧
        (s.romHas (s.rsAt s.rp) → faults .table (s.sp + 1)))) ∧
    (s.ramHas (s.sp + 1) → ¬s.ramHas (s.sp + 2) →
      (∀ i ∈ [Instr.getSp, .getRp, .getX, .getY], faults i (s.sp + 2)) ∧
      (s.rsHas s.rp → (∀ i ∈ [Instr.twoRCopy, .threeRCopy], faults i (s.sp + 2)) ∧
        (s.romHas (s.rsAt s.rp) → faults .table (s.sp + 2)))) ∧
    (s.ramHas (s.sp + 1) → s.ramHas (s.sp + 2) → ¬s.ramHas (s.sp + 3) → s.rsHas s.rp →
      faults .threeRCopy (s.sp + 3)) ∧
    -- RAM through X and Y
    (fetchFaults .fetchX s.x ∧ fetchFaults .fetchIncX (s.x + 1) ∧ fetchFaults .fetchXDec s.x ∧
      (∀ a, fetchFaults (.fetchDirX a) a) ∧
      fetchFaults .fetchY s.y ∧ fetchFaults .fetchIncY (s.y + 1) ∧ fetchFaults .fetchYDec s.y ∧
      ∀ a, fetchFaults (.fetchDirY a) a) ∧
    (storeFaults .storeX s.x ∧ storeFaults .storeIncX (s.x + 1) ∧ storeFaults .storeXDec s.x ∧
      (∀ a, storeFaults (.storeDirX a) a) ∧
      storeFaults .storeY s.y ∧ storeFaults .storeIncY (s.y + 1) ∧ storeFaults .storeYDec s.y ∧
      ∀ a, storeFaults (.storeDirY a) a) ∧
    -- Return Stack entries, that of the acknowledge among them
    (s.rsAbsent s.rp → ∀ i ∈ [Instr.exit, .rti, .decr, .rCopy, .twoRCopy, .threeRCopy, .table],
      FaultsInEntry s s.rp (exec i s)) ∧
    (s.rsHas s.rp → s.romHas (s.rsAt s.rp) → s.ramHas (s.sp + 1) → s.ramHas (s.sp + 2) → s.rsAbsent (s.rp - 4) →
      FaultsInEntry s (s.rp - 4) (exec .table s)) ∧
    (s.rsAbsent (s.rp + 4) →
      (∀ target, FaultsInEntry s (s.rp + 4) (exec (.call target) s)) ∧
      (∀ a, FaultsInEntry s (s.rp + 4) (exec (.scall a) s)) ∧
      (s.ramHas s.sp → FaultsInEntry s (s.rp + 4) (exec .toR s) ∧
        (s.ramHas (s.sp - 1) → FaultsInEntry s (s.rp + 4) (exec .twoToR s) ∧
          (s.ramHas (s.sp - 2) → FaultsInEntry s (s.rp + 4) (exec .threeToR s)))) ∧
      ∀ k, s.env = [] → AcknowledgeDue s k → FaultsInEntry s (s.rp + 4) (step s))

/-! ## Decoding (30_encoding.md) -/

/-- R77, R78: every instruction, with every operand, is read back from its encoding, whatever bytes follow. -/
def Obligations.DecodeOfEncode : Prop :=
  ∀ (i : Instr) (rest : List Byte), decode (encode i ++ rest) = .ok (i, rest)

/-- R70, R81: the decoder reads every byte it consumes: the bytes are the encoding of the instruction it gives. -/
def Obligations.EncodeOfDecode : Prop :=
  ∀ (bytes rest : List Byte) (i : Instr), decode bytes = .ok (i, rest) → bytes = encode i ++ rest

/-- R71 to R75: words of the five formats, written from the opcode map. -/
def Obligations.SampleWordsDecode : Prop :=
  decode [0b00000000#8] = .ok (.add, []) ∧
  decode [0b01101111#8] = .ok (.lit 0xF#4, []) ∧
  decode [0b10000101#8] = .ok (.sbra 0x05#6, []) ∧
  decode [0b11011000#8] = .ok (.scall 0x18#6, []) ∧
  decode [0b01001010#8, 0b10111100#8] = .ok (.call 0xABC#12, []) ∧
  decode [0b01010010#8, 0b00110100#8] = .ok (.bra 0x234#12, []) ∧
  decode [0b01111001#8, 0b11111100#8] = .ok (.loadRp 0xFC#8, []) ∧
  decode [0b00110011#8, 0b00110001#8] = .ok (.fetchDirX 0x31#8, [])

/-! ## The step (60_exceptions.md, 30_encoding.md) -/

/-- R84, R78: where the environment does nothing, no interrupt is due and the core is awake, a step is `exec` of the
instruction whose bytes are at PC, with nothing around it. -/
def Obligations.StepRunsTheDecodedInstruction : Prop :=
  ∀ (s : State) (i : Instr), s.env = [] → (∀ k, ¬AcknowledgeDue s k) → s.asleep = false → s.codePresent →
    decode s.codeBytes = .ok (i, []) → step s = exec i s

/-- R258, R257, R256: taking an interrupt. That it happens at the first boundary where it is due, and leaves `I`, is the spec's
decision D13 and D6 (log entry 21). -/
def Obligations.InterruptIsTaken : Prop :=
  ∀ (s : State) (k : Level), s.env = [] → AcknowledgeDue s k → s.rsHas (s.rp + 4) →
    ∃ t, step s = .next t ∧
      t = { s with
        asleep := false, iar := s.iar ||| 1#8 <<< k.val, rp := s.rp + 4
        pc := if k = 7 then 0x1E0#12 else BitVec.ofNat 12 (0x40 * (k.val + 1))
        cycles := s.cycles + 2, ram := t.ram } ∧
      ∀ a, t.ramAt a = setEntry s.chip.rsLayout s.ramAt (s.rp + 4) s.pc a

/-- R260: "A routine is never re-entered while active", and a lower level waits: after an acknowledge none is due. -/
def Obligations.NoInterruptIsDueAfterAcknowledge : Prop :=
  ∀ (s t : State) (k : Level), s.env = [] → AcknowledgeDue s k → step s = .next t → ∀ j, ¬AcknowledgeDue t j

/-- R254: the vectors, and the SCALL opcodes that lead to them. -/
def Obligations.InterruptVectors : Prop :=
  [0, 1, 2, 3, 4, 5, 6, 7].map vector =
    [0x040#12, 0x080#12, 0x0C0#12, 0x100#12, 0x140#12, 0x180#12, 0x1C0#12, 0x1E0#12] ∧
  ∀ p ∈ [((0 : Level), 0xC8#8), (1, 0xD0#8), (2, 0xD8#8), (3, 0xE0#8), (4, 0xE8#8), (5, 0xF0#8), (6, 0xF8#8), (7, 0xFC#8)],
    ∃ a, decode [p.2] = .ok (.scall a, []) ∧ scallTarget a = vector p.1

/-- R253, R262: the environment's requests are latched in IPR before the boundary, everything else is as without them; and
requests whose bits are set already change nothing. -/
def Obligations.RequestsAreLatched : Prop :=
  (∀ (s : State) (r : BitVec 8) (rest : List EnvEvent),
    step { s with env := .request r :: rest } =
      mapNext (fun t => { t with env := rest }) (step { s with env := [], ipr := s.ipr ||| r })) ∧
  ∀ (s : State) (r : BitVec 8) (rest : List EnvEvent), s.ipr ||| r = s.ipr →
    step { s with env := .request r :: rest } = step { s with env := .request 0#8 :: rest }

/-- R270: a sleeping core with nothing due executes nothing and keeps its state. That such a step is a next state is the
model's reading of the spec's decision D25 (log entry 29). -/
def Obligations.SleepGoesOn : Prop :=
  ∀ s : State, s.env = [] → s.asleep = true → (∀ k, ¬AcknowledgeDue s k) → step s = .next s

/-- R270: a request wakes a sleeping core: the highest requested level is entered, and the address after SLEEP is saved
(dropped where the entry is the AUTOSLEEP entry). That it is entered in the very step of the request is the spec's decision
D13, and that the flags, `I` among them, are kept is its decision D6 (log entry 21). -/
def Obligations.RequestWakesTheCore : Prop :=
  ∀ (s : State) (r : BitVec 8) (rest : List EnvEvent), s.Inv → s.asleep = true → s.env = .request r :: rest →
    s.ipr ||| r ≠ 0#8 → s.rsHas (s.rp + 4) →
    ∃ k t, HighestBit (s.ipr ||| r) k ∧ step s = .next t ∧ t.asleep = false ∧ t.pc = vector k ∧
      t.iar = 1#8 <<< k.val ∧ t.ipr = s.ipr ||| r ∧ t.rp = s.rp + 4 ∧ t.ccr = s.ccr ∧
      t.rsAt t.rp = if s.rp + 4 = 0xFC#8 then 0x000#12 else s.pc

/-! ## Reset (10_state.md, 70_reset_and_hazards.md) -/

/-- R32: the values the spec gives for reset. -/
def Obligations.ResetValues : Prop :=
  State.reset.pc = 0x008#12 ∧ State.reset.ccr.i = false ∧ State.reset.ipr = 0x00#8 ∧ State.reset.iar = 0x00#8 ∧
  State.reset.rbr.extractLsb' 2 2 = 0b00#2 ∧ State.reset.asleep = false

/-- R290, R32: a reset of the running machine, at any boundary and in sleep too; program memory, the chip, the port events
so far and the events ahead stay. What R290 does not name is not stated. -/
def Obligations.ResetEventResult : Prop :=
  ∀ (s : State) (rest : List EnvEvent), s.env = .reset :: rest →
    ∃ t, step s = .next t ∧ t.pc = 0x008#12 ∧ t.ccr.i = false ∧ t.ipr = 0x00#8 ∧ t.iar = 0x00#8 ∧
      t.rbr.extractLsb' 2 2 = 0b00#2 ∧ t.asleep = false ∧ t.rom = s.rom ∧ t.chip = s.chip ∧ t.out = s.out ∧
      t.env = rest ∧ MemWf 256 t.ram

/-- The invariant holds at reset. -/
def Obligations.ResetHasInvariant : Prop := State.reset.Inv

/-- Every step keeps the invariant: RAM and ROM stay canonical, a sleeping core has `I` set and no active level, every
active level is pending, and RBR selects bank 1 where nothing can write it. -/
def Obligations.StepKeepsInvariant : Prop :=
  ∀ s t : State, s.Inv → step s = .next t → t.Inv

/-! ## Rules about all instructions -/

/-- R22, R23, R24: which instructions can change `C`, `B` and `I`. -/
def Obligations.FlagsAreChangedOnlyByTheirWriters : Prop :=
  ∀ (i : Instr) (s t : State), exec i s = .next t →
    (i ∉ [Instr.add, .addc, .sub, .subb, .daa, .shl, .shr, .rol, .ror, .setBcf, .ccrStore, .cmpEq, .cmpNe, .cmpLt, .cmpLe,
        .cmpGt, .cmpGe] → t.ccr.c = s.ccr.c) ∧
    (i ∉ [Instr.add, .addc, .sub, .subb, .inc, .dec, .daa, .decr, .cmpEq, .cmpNe, .cmpLt, .cmpLe, .cmpGt, .cmpGe,
        .xor, .and, .or, .not, .shl, .shr, .rol, .ror, .togBf, .setBcf, .ccrStore, .inPort] → t.ccr.b = s.ccr.b) ∧
    (i ∉ [Instr.di, .rti, .sleep, .ccrStore] → t.ccr.i = s.ccr.i)

/-- R31: which instructions can change X, Y and RP; R26, R27, R28: IPR, IAR and RBR. That OUT is the one writer of RBR,
where the chip has a port for it, is the model's choice (log entry 9). -/
def Obligations.RegistersAreChangedOnlyByTheirWriters : Prop :=
  ∀ (i : Instr) (s t : State), exec i s = .next t →
    (i ∉ [Instr.setX, .fetchIncX, .fetchXDec, .storeIncX, .storeXDec] →
      (∀ a, i ≠ .loadX a ∧ i ≠ .fetchDirX a ∧ i ≠ .storeDirX a) → t.x = s.x) ∧
    (i ∉ [Instr.setY, .fetchIncY, .fetchYDec, .storeIncY, .storeYDec] →
      (∀ a, i ≠ .loadY a ∧ i ≠ .fetchDirY a ∧ i ≠ .storeDirY a) → t.y = s.y) ∧
    (i ∉ [Instr.setRp, .toR, .twoToR, .threeToR, .dropr, .exit, .rti, .table] →
      (∀ a, i ≠ .loadRp a) → (∀ a, i ≠ .call a) → (∀ a, i ≠ .scall a) → t.rp = s.rp) ∧
    (i ∉ [Instr.swi, .rti] → t.ipr = s.ipr) ∧ (i ≠ .rti → t.iar = s.iar) ∧
    (i ≠ .outPort ∨ s.chip.rbrPort = none → t.rbr = s.rbr)

/-- R43: no step writes program memory; nor the chip's parameters (R3). -/
def Obligations.ProgramMemoryIsNeverWritten : Prop :=
  ∀ s t : State, step s = .next t → t.rom = s.rom ∧ t.chip = s.chip

/-- R160: the address behind a call comes back to PC with the EXIT or RTI that finds the entry, and RP is as before. -/
def Obligations.ReturnFollowsCall : Prop :=
  ∀ s : State, s.rsHas (s.rp + 4) → s.rp + 4 ≠ 0xFC#8 →
    let returns (i : Instr) (behind : RomAddr) : Prop :=
      ∃ t, exec i s = .next t ∧
        (∃ u, exec .exit t = .next u ∧ u.pc = behind ∧ u.rp = s.rp) ∧
        ∃ v, exec .rti t = .next v ∧ v.pc = behind ∧ v.rp = s.rp
    (∀ target, returns (.call target) (s.pc + 2)) ∧ ∀ a, returns (.scall a) (s.pc + 1)

/-- R25: "No instruction reads it except CCR@": changing `CCR2` before any other instruction changes at most `CCR2` after
it. -/
def Obligations.OnlyCcrFetchReadsCcr2 : Prop :=
  ∀ (i : Instr) (s : State) (v : Bool), i ≠ .ccrFetch →
    let forget (t : State) : State := { t with ccr := { t.ccr with ccr2 := false } }
    mapNext forget (exec i { s with ccr := { s.ccr with ccr2 := v } }) = mapNext forget (exec i s)

/-- R300: "no rule of the model reads a cycle count": the count before a step changes nothing but the count after it. -/
def Obligations.CyclesAreOnlyObserved : Prop :=
  ∀ (s : State) (n : Nat),
    let forget (t : State) : State := { t with cycles := 0 }
    mapNext forget (step { s with cycles := n }) = mapNext forget (step s)
end

