-- ==== Sys2Proof/Laws/Memory.lean ====
section
/-!
SUPPORT. Memory as a list of cells: what a read gives after a write, and the canonical form that every memory operation
keeps.
-/

namespace Sys2Proof.Machine

variable {w : Nat}

/-! ## Reading -/

@[simp] theorem cellRead_nil (a : Nat) : cellRead ([] : List (Nat × BitVec w)) a = unlisted := rfl

theorem cellRead_cons (b : Nat) (v : BitVec w) (m : List (Nat × BitVec w)) (a : Nat) :
    cellRead ((b, v) :: m) a = if b = a then v else cellRead m a := rfl

theorem cellRead_of_not_mem {m : List (Nat × BitVec w)} {a : Nat} (h : ∀ c ∈ m, c.1 ≠ a) :
    cellRead m a = unlisted := by
  induction m with
  | nil => rfl
  | cons c m ih =>
    obtain ⟨hc, hm⟩ := List.forall_mem_cons.1 h
    rw [cellRead_cons, if_neg hc, ih hm]

theorem cellErase_mem {m : List (Nat × BitVec w)} {a : Nat} {c : Nat × BitVec w} :
    c ∈ cellErase a m ↔ c ∈ m ∧ c.1 ≠ a := by
  induction m with
  | nil => simp [cellErase]
  | cons d m ih =>
    obtain ⟨b, v⟩ := d
    unfold cellErase
    split <;> rename_i h
    · subst h; rw [ih]; constructor
      · exact fun ⟨h1, h2⟩ => ⟨List.mem_cons_of_mem _ h1, h2⟩
      · rintro ⟨h1, h2⟩
        rcases List.mem_cons.1 h1 with rfl | h1
        · exact absurd rfl h2
        · exact ⟨h1, h2⟩
    · simp only [List.mem_cons, ih]
      constructor
      · rintro (rfl | ⟨h1, h2⟩)
        · exact ⟨.inl rfl, h⟩
        · exact ⟨.inr h1, h2⟩
      · rintro ⟨rfl | h1, h2⟩
        · exact .inl rfl
        · exact .inr ⟨h1, h2⟩

theorem cellInsert_mem {m : List (Nat × BitVec w)} {a : Nat} {v : BitVec w} {c : Nat × BitVec w} :
    c ∈ cellInsert a v m ↔ c = (a, v) ∨ c ∈ m := by
  induction m with
  | nil => simp [cellInsert]
  | cons d m ih =>
    unfold cellInsert
    split
    · simp
    · simp only [List.mem_cons, ih]; tauto

theorem cellRead_cellErase_same (m : List (Nat × BitVec w)) (a : Nat) :
    cellRead (cellErase a m) a = unlisted :=
  cellRead_of_not_mem fun _ h => (cellErase_mem.1 h).2

theorem cellRead_cellErase_other (m : List (Nat × BitVec w)) {a b : Nat} (h : b ≠ a) :
    cellRead (cellErase a m) b = cellRead m b := by
  induction m with
  | nil => rfl
  | cons d m ih =>
    obtain ⟨c, v⟩ := d
    unfold cellErase
    split <;> rename_i hc
    · rw [ih, cellRead_cons, if_neg (by rintro rfl; exact h hc)]
    · rw [cellRead_cons, cellRead_cons, ih]

theorem cellRead_cellInsert_same {m : List (Nat × BitVec w)} {a : Nat} (v : BitVec w) (h : ∀ c ∈ m, c.1 ≠ a) :
    cellRead (cellInsert a v m) a = v := by
  induction m with
  | nil => simp [cellInsert, cellRead_cons]
  | cons d m ih =>
    obtain ⟨hd, hm⟩ := List.forall_mem_cons.1 h
    unfold cellInsert
    split
    · simp [cellRead_cons]
    · rw [cellRead_cons, if_neg hd, ih hm]

theorem cellRead_cellInsert_other (m : List (Nat × BitVec w)) {a b : Nat} (v : BitVec w) (h : b ≠ a) :
    cellRead (cellInsert a v m) b = cellRead m b := by
  induction m with
  | nil => simp [cellInsert, cellRead_cons, Ne.symm h]
  | cons d m ih =>
    unfold cellInsert
    split
    · rw [cellRead_cons, if_neg (Ne.symm h)]
    · rw [cellRead_cons, cellRead_cons, ih]

/-- Reading the cell that was written gives the value written. -/
@[simp] theorem cellRead_cellWrite_same (m : List (Nat × BitVec w)) (a : Nat) (v : BitVec w) :
    cellRead (cellWrite a v m) a = v := by
  unfold cellWrite
  split <;> rename_i h
  · rw [cellRead_cellErase_same, h]
  · exact cellRead_cellInsert_same v fun _ hc => (cellErase_mem.1 hc).2

/-- Reading any other cell gives what it held. -/
theorem cellRead_cellWrite_other (m : List (Nat × BitVec w)) {a b : Nat} (v : BitVec w) (h : b ≠ a) :
    cellRead (cellWrite a v m) b = cellRead m b := by
  unfold cellWrite
  split
  · exact cellRead_cellErase_other m h
  · rw [cellRead_cellInsert_other _ v h, cellRead_cellErase_other m h]

theorem cellRead_cellWrite (m : List (Nat × BitVec w)) (a b : Nat) (v : BitVec w) :
    cellRead (cellWrite a v m) b = if b = a then v else cellRead m b := by
  by_cases h : b = a
  · subst h; simp
  · rw [if_neg h, cellRead_cellWrite_other m v h]

/-! ## The canonical form -/

theorem cellErase_sublist (m : List (Nat × BitVec w)) (a : Nat) : (cellErase a m).Sublist m := by
  induction m with
  | nil => exact .slnil
  | cons d m ih =>
    unfold cellErase
    split
    · exact ih.cons _
    · exact ih.cons_cons _

theorem cellErase_wf {size : Nat} {m : List (Nat × BitVec w)} (a : Nat) (h : MemWf size m) :
    MemWf size (cellErase a m) :=
  ⟨h.1.sublist (cellErase_sublist m a), fun c hc => h.2 c (cellErase_mem.1 hc).1⟩

theorem cellInsert_pairwise {m : List (Nat × BitVec w)} {a : Nat} (v : BitVec w)
    (h : m.Pairwise (fun c d => c.1 < d.1)) (ha : ∀ c ∈ m, c.1 ≠ a) :
    (cellInsert a v m).Pairwise (fun c d => c.1 < d.1) := by
  induction m with
  | nil => simp [cellInsert]
  | cons d m ih =>
    obtain ⟨hd, hm⟩ := List.pairwise_cons.1 h
    obtain ⟨had, ham⟩ := List.forall_mem_cons.1 ha
    unfold cellInsert
    split <;> rename_i hlt
    · refine List.pairwise_cons.2 ⟨fun c hc => ?_, h⟩
      rcases List.mem_cons.1 hc with rfl | hc
      · exact hlt
      · exact lt_trans hlt (hd c hc)
    · refine List.pairwise_cons.2 ⟨fun c hc => ?_, ih hm ham⟩
      rcases cellInsert_mem.1 hc with rfl | hc
      · have : d.1 ≠ a := had
        show d.1 < a
        omega
      · exact hd c hc

/-- A write within the address space keeps the canonical form. -/
theorem cellWrite_wf {size : Nat} {m : List (Nat × BitVec w)} {a : Nat} (v : BitVec w) (ha : a < size)
    (h : MemWf size m) : MemWf size (cellWrite a v m) := by
  unfold cellWrite
  split <;> rename_i hv
  · exact cellErase_wf a h
  · have he := cellErase_wf a h
    refine ⟨cellInsert_pairwise v he.1 fun _ hc => (cellErase_mem.1 hc).2, fun c hc => ?_⟩
    rcases cellInsert_mem.1 hc with rfl | hc
    · exact ⟨ha, hv⟩
    · exact he.2 c hc

theorem cellsOf_mem {f : Nat → BitVec w} {a n : Nat} {c : Nat × BitVec w} (h : c ∈ cellsOf f a n) :
    a ≤ c.1 ∧ c.1 < a + n ∧ c.2 = f c.1 ∧ c.2 ≠ unlisted := by
  induction n generalizing a with
  | zero => simp [cellsOf] at h
  | succ n ih =>
    unfold cellsOf at h
    split at h <;> rename_i hf
    · obtain ⟨h1, h2, h3⟩ := ih h; exact ⟨by omega, by omega, h3⟩
    · rcases List.mem_cons.1 h with rfl | h
      · exact ⟨le_rfl, by simp, rfl, hf⟩
      · obtain ⟨h1, h2, h3⟩ := ih h; exact ⟨by omega, by omega, h3⟩

/-- Memory filled from a function is in canonical form. -/
theorem cellsOf_wf (f : Nat → BitVec w) (a n : Nat) : MemWf (a + n) (cellsOf f a n) := by
  refine ⟨?_, fun c hc => ⟨(cellsOf_mem hc).2.1, (cellsOf_mem hc).2.2.2⟩⟩
  induction n generalizing a with
  | zero => simp [cellsOf]
  | succ n ih =>
    unfold cellsOf
    split
    · exact ih (a + 1)
    · refine List.pairwise_cons.2 ⟨fun c hc => ?_, ih (a + 1)⟩
      have := (cellsOf_mem hc).1
      show a < c.1
      omega

/-- Memory filled from a function reads as the function says. -/
theorem cellRead_cellsOf (f : Nat → BitVec w) (a n b : Nat) :
    cellRead (cellsOf f a n) b = if a ≤ b ∧ b < a + n then f b else unlisted := by
  induction n generalizing a with
  | zero => rw [if_neg (by omega)]; rfl
  | succ n ih =>
    unfold cellsOf
    split <;> rename_i hf
    · rw [ih]
      by_cases hb : b = a
      · subst hb; rw [if_neg (by omega), if_pos (by omega), hf]
      · by_cases h : a + 1 ≤ b ∧ b < a + 1 + n
        · rw [if_pos h, if_pos (by omega)]
        · rw [if_neg h, if_neg (by omega)]
    · rw [cellRead_cons]
      by_cases hb : a = b
      · subst hb; rw [if_pos rfl, if_pos (by omega)]
      · rw [if_neg hb, ih]
        by_cases h : a + 1 ≤ b ∧ b < a + 1 + n
        · rw [if_pos h, if_pos (by omega)]
        · rw [if_neg h, if_neg (by omega)]

end Sys2Proof.Machine
end

