-- ==== Sys2Proof/Laws/State.lean ====
section
/-!
SUPPORT. One lemma per field per update of the state, so that no proof unfolds a record update.
-/

namespace Sys2Proof.Machine

variable (s : State)

/-! ## `withRam` -/

@[simp] theorem withRam_pc (a : RamAddr) (v : Nibble) : (s.withRam a v).pc = s.pc := rfl
@[simp] theorem withRam_tos (a : RamAddr) (v : Nibble) : (s.withRam a v).tos = s.tos := rfl
@[simp] theorem withRam_sp (a : RamAddr) (v : Nibble) : (s.withRam a v).sp = s.sp := rfl
@[simp] theorem withRam_rp (a : RamAddr) (v : Nibble) : (s.withRam a v).rp = s.rp := rfl
@[simp] theorem withRam_x (a : RamAddr) (v : Nibble) : (s.withRam a v).x = s.x := rfl
@[simp] theorem withRam_y (a : RamAddr) (v : Nibble) : (s.withRam a v).y = s.y := rfl
@[simp] theorem withRam_ccr (a : RamAddr) (v : Nibble) : (s.withRam a v).ccr = s.ccr := rfl
@[simp] theorem withRam_ipr (a : RamAddr) (v : Nibble) : (s.withRam a v).ipr = s.ipr := rfl
@[simp] theorem withRam_iar (a : RamAddr) (v : Nibble) : (s.withRam a v).iar = s.iar := rfl
@[simp] theorem withRam_rbr (a : RamAddr) (v : Nibble) : (s.withRam a v).rbr = s.rbr := rfl
@[simp] theorem withRam_asleep (a : RamAddr) (v : Nibble) : (s.withRam a v).asleep = s.asleep := rfl
@[simp] theorem withRam_ram (a : RamAddr) (v : Nibble) : (s.withRam a v).ram = cellWrite a.toNat v s.ram := rfl
@[simp] theorem withRam_rom (a : RamAddr) (v : Nibble) : (s.withRam a v).rom = s.rom := rfl
@[simp] theorem withRam_chip (a : RamAddr) (v : Nibble) : (s.withRam a v).chip = s.chip := rfl
@[simp] theorem withRam_draws (a : RamAddr) (v : Nibble) : (s.withRam a v).draws = s.draws := rfl
@[simp] theorem withRam_env (a : RamAddr) (v : Nibble) : (s.withRam a v).env = s.env := rfl
@[simp] theorem withRam_out (a : RamAddr) (v : Nibble) : (s.withRam a v).out = s.out := rfl
@[simp] theorem withRam_cycles (a : RamAddr) (v : Nibble) : (s.withRam a v).cycles = s.cycles := rfl

/-! ## `withRom` -/

@[simp] theorem withRom_pc (a : RomAddr) (v : Byte) : (s.withRom a v).pc = s.pc := rfl
@[simp] theorem withRom_tos (a : RomAddr) (v : Byte) : (s.withRom a v).tos = s.tos := rfl
@[simp] theorem withRom_sp (a : RomAddr) (v : Byte) : (s.withRom a v).sp = s.sp := rfl
@[simp] theorem withRom_rp (a : RomAddr) (v : Byte) : (s.withRom a v).rp = s.rp := rfl
@[simp] theorem withRom_x (a : RomAddr) (v : Byte) : (s.withRom a v).x = s.x := rfl
@[simp] theorem withRom_y (a : RomAddr) (v : Byte) : (s.withRom a v).y = s.y := rfl
@[simp] theorem withRom_ccr (a : RomAddr) (v : Byte) : (s.withRom a v).ccr = s.ccr := rfl
@[simp] theorem withRom_ipr (a : RomAddr) (v : Byte) : (s.withRom a v).ipr = s.ipr := rfl
@[simp] theorem withRom_iar (a : RomAddr) (v : Byte) : (s.withRom a v).iar = s.iar := rfl
@[simp] theorem withRom_rbr (a : RomAddr) (v : Byte) : (s.withRom a v).rbr = s.rbr := rfl
@[simp] theorem withRom_asleep (a : RomAddr) (v : Byte) : (s.withRom a v).asleep = s.asleep := rfl
@[simp] theorem withRom_ram (a : RomAddr) (v : Byte) : (s.withRom a v).ram = s.ram := rfl
@[simp] theorem withRom_rom (a : RomAddr) (v : Byte) : (s.withRom a v).rom = cellWrite (s.romIndex a) v s.rom := rfl
@[simp] theorem withRom_chip (a : RomAddr) (v : Byte) : (s.withRom a v).chip = s.chip := rfl
@[simp] theorem withRom_draws (a : RomAddr) (v : Byte) : (s.withRom a v).draws = s.draws := rfl
@[simp] theorem withRom_env (a : RomAddr) (v : Byte) : (s.withRom a v).env = s.env := rfl
@[simp] theorem withRom_out (a : RomAddr) (v : Byte) : (s.withRom a v).out = s.out := rfl
@[simp] theorem withRom_cycles (a : RomAddr) (v : Byte) : (s.withRom a v).cycles = s.cycles := rfl

/-! ## `advance` -/

@[simp] theorem advance_pc (n k : Nat) : (s.advance n k).pc = s.pc + BitVec.ofNat 12 n := rfl
@[simp] theorem advance_tos (n k : Nat) : (s.advance n k).tos = s.tos := rfl
@[simp] theorem advance_sp (n k : Nat) : (s.advance n k).sp = s.sp := rfl
@[simp] theorem advance_rp (n k : Nat) : (s.advance n k).rp = s.rp := rfl
@[simp] theorem advance_x (n k : Nat) : (s.advance n k).x = s.x := rfl
@[simp] theorem advance_y (n k : Nat) : (s.advance n k).y = s.y := rfl
@[simp] theorem advance_ccr (n k : Nat) : (s.advance n k).ccr = s.ccr := rfl
@[simp] theorem advance_ipr (n k : Nat) : (s.advance n k).ipr = s.ipr := rfl
@[simp] theorem advance_iar (n k : Nat) : (s.advance n k).iar = s.iar := rfl
@[simp] theorem advance_rbr (n k : Nat) : (s.advance n k).rbr = s.rbr := rfl
@[simp] theorem advance_asleep (n k : Nat) : (s.advance n k).asleep = s.asleep := rfl
@[simp] theorem advance_ram (n k : Nat) : (s.advance n k).ram = s.ram := rfl
@[simp] theorem advance_rom (n k : Nat) : (s.advance n k).rom = s.rom := rfl
@[simp] theorem advance_chip (n k : Nat) : (s.advance n k).chip = s.chip := rfl
@[simp] theorem advance_draws (n k : Nat) : (s.advance n k).draws = s.draws := rfl
@[simp] theorem advance_env (n k : Nat) : (s.advance n k).env = s.env := rfl
@[simp] theorem advance_out (n k : Nat) : (s.advance n k).out = s.out := rfl
@[simp] theorem advance_cycles (n k : Nat) : (s.advance n k).cycles = s.cycles + k := rfl

/-! ## `jump` -/

@[simp] theorem jump_pc (p : RomAddr) (k : Nat) : (s.jump p k).pc = p := rfl
@[simp] theorem jump_tos (p : RomAddr) (k : Nat) : (s.jump p k).tos = s.tos := rfl
@[simp] theorem jump_sp (p : RomAddr) (k : Nat) : (s.jump p k).sp = s.sp := rfl
@[simp] theorem jump_rp (p : RomAddr) (k : Nat) : (s.jump p k).rp = s.rp := rfl
@[simp] theorem jump_x (p : RomAddr) (k : Nat) : (s.jump p k).x = s.x := rfl
@[simp] theorem jump_y (p : RomAddr) (k : Nat) : (s.jump p k).y = s.y := rfl
@[simp] theorem jump_ccr (p : RomAddr) (k : Nat) : (s.jump p k).ccr = s.ccr := rfl
@[simp] theorem jump_ipr (p : RomAddr) (k : Nat) : (s.jump p k).ipr = s.ipr := rfl
@[simp] theorem jump_iar (p : RomAddr) (k : Nat) : (s.jump p k).iar = s.iar := rfl
@[simp] theorem jump_rbr (p : RomAddr) (k : Nat) : (s.jump p k).rbr = s.rbr := rfl
@[simp] theorem jump_asleep (p : RomAddr) (k : Nat) : (s.jump p k).asleep = s.asleep := rfl
@[simp] theorem jump_ram (p : RomAddr) (k : Nat) : (s.jump p k).ram = s.ram := rfl
@[simp] theorem jump_rom (p : RomAddr) (k : Nat) : (s.jump p k).rom = s.rom := rfl
@[simp] theorem jump_chip (p : RomAddr) (k : Nat) : (s.jump p k).chip = s.chip := rfl
@[simp] theorem jump_draws (p : RomAddr) (k : Nat) : (s.jump p k).draws = s.draws := rfl
@[simp] theorem jump_env (p : RomAddr) (k : Nat) : (s.jump p k).env = s.env := rfl
@[simp] theorem jump_out (p : RomAddr) (k : Nat) : (s.jump p k).out = s.out := rfl
@[simp] theorem jump_cycles (p : RomAddr) (k : Nat) : (s.jump p k).cycles = s.cycles + k := rfl

/-! ## `latch` -/

@[simp] theorem latch_pc (r : BitVec 8) : (s.latch r).pc = s.pc := rfl
@[simp] theorem latch_tos (r : BitVec 8) : (s.latch r).tos = s.tos := rfl
@[simp] theorem latch_sp (r : BitVec 8) : (s.latch r).sp = s.sp := rfl
@[simp] theorem latch_rp (r : BitVec 8) : (s.latch r).rp = s.rp := rfl
@[simp] theorem latch_x (r : BitVec 8) : (s.latch r).x = s.x := rfl
@[simp] theorem latch_y (r : BitVec 8) : (s.latch r).y = s.y := rfl
@[simp] theorem latch_ccr (r : BitVec 8) : (s.latch r).ccr = s.ccr := rfl
@[simp] theorem latch_ipr (r : BitVec 8) : (s.latch r).ipr = s.ipr ||| r := rfl
@[simp] theorem latch_iar (r : BitVec 8) : (s.latch r).iar = s.iar := rfl
@[simp] theorem latch_rbr (r : BitVec 8) : (s.latch r).rbr = s.rbr := rfl
@[simp] theorem latch_asleep (r : BitVec 8) : (s.latch r).asleep = s.asleep := rfl
@[simp] theorem latch_ram (r : BitVec 8) : (s.latch r).ram = s.ram := rfl
@[simp] theorem latch_rom (r : BitVec 8) : (s.latch r).rom = s.rom := rfl
@[simp] theorem latch_chip (r : BitVec 8) : (s.latch r).chip = s.chip := rfl
@[simp] theorem latch_draws (r : BitVec 8) : (s.latch r).draws = s.draws := rfl
@[simp] theorem latch_env (r : BitVec 8) : (s.latch r).env = s.env := rfl
@[simp] theorem latch_out (r : BitVec 8) : (s.latch r).out = s.out := rfl
@[simp] theorem latch_cycles (r : BitVec 8) : (s.latch r).cycles = s.cycles := rfl

/-! ## `disturbCcr2` -/

@[simp] theorem disturbCcr2_pc : (s.disturbCcr2).pc = s.pc := rfl
@[simp] theorem disturbCcr2_tos : (s.disturbCcr2).tos = s.tos := rfl
@[simp] theorem disturbCcr2_sp : (s.disturbCcr2).sp = s.sp := rfl
@[simp] theorem disturbCcr2_rp : (s.disturbCcr2).rp = s.rp := rfl
@[simp] theorem disturbCcr2_x : (s.disturbCcr2).x = s.x := rfl
@[simp] theorem disturbCcr2_y : (s.disturbCcr2).y = s.y := rfl
@[simp] theorem disturbCcr2_ccr : (s.disturbCcr2).ccr = { s.ccr with ccr2 := Config.freeCcr2 s.draws } := rfl
@[simp] theorem disturbCcr2_ipr : (s.disturbCcr2).ipr = s.ipr := rfl
@[simp] theorem disturbCcr2_iar : (s.disturbCcr2).iar = s.iar := rfl
@[simp] theorem disturbCcr2_rbr : (s.disturbCcr2).rbr = s.rbr := rfl
@[simp] theorem disturbCcr2_asleep : (s.disturbCcr2).asleep = s.asleep := rfl
@[simp] theorem disturbCcr2_ram : (s.disturbCcr2).ram = s.ram := rfl
@[simp] theorem disturbCcr2_rom : (s.disturbCcr2).rom = s.rom := rfl
@[simp] theorem disturbCcr2_chip : (s.disturbCcr2).chip = s.chip := rfl
@[simp] theorem disturbCcr2_draws : (s.disturbCcr2).draws = s.draws + 1 := rfl
@[simp] theorem disturbCcr2_env : (s.disturbCcr2).env = s.env := rfl
@[simp] theorem disturbCcr2_out : (s.disturbCcr2).out = s.out := rfl
@[simp] theorem disturbCcr2_cycles : (s.disturbCcr2).cycles = s.cycles := rfl

/-! ## `setB` -/

@[simp] theorem setB_pc (b : Bool) : (s.setB b).pc = s.pc := rfl
@[simp] theorem setB_tos (b : Bool) : (s.setB b).tos = s.tos := rfl
@[simp] theorem setB_sp (b : Bool) : (s.setB b).sp = s.sp := rfl
@[simp] theorem setB_rp (b : Bool) : (s.setB b).rp = s.rp := rfl
@[simp] theorem setB_x (b : Bool) : (s.setB b).x = s.x := rfl
@[simp] theorem setB_y (b : Bool) : (s.setB b).y = s.y := rfl
@[simp] theorem setB_ccr (b : Bool) : (s.setB b).ccr = { s.ccr with b := b, ccr2 := Config.freeCcr2 s.draws } := rfl
@[simp] theorem setB_ipr (b : Bool) : (s.setB b).ipr = s.ipr := rfl
@[simp] theorem setB_iar (b : Bool) : (s.setB b).iar = s.iar := rfl
@[simp] theorem setB_rbr (b : Bool) : (s.setB b).rbr = s.rbr := rfl
@[simp] theorem setB_asleep (b : Bool) : (s.setB b).asleep = s.asleep := rfl
@[simp] theorem setB_ram (b : Bool) : (s.setB b).ram = s.ram := rfl
@[simp] theorem setB_rom (b : Bool) : (s.setB b).rom = s.rom := rfl
@[simp] theorem setB_chip (b : Bool) : (s.setB b).chip = s.chip := rfl
@[simp] theorem setB_draws (b : Bool) : (s.setB b).draws = s.draws + 1 := rfl
@[simp] theorem setB_env (b : Bool) : (s.setB b).env = s.env := rfl
@[simp] theorem setB_out (b : Bool) : (s.setB b).out = s.out := rfl
@[simp] theorem setB_cycles (b : Bool) : (s.setB b).cycles = s.cycles := rfl

/-! ## `setCB` -/

@[simp] theorem setCB_pc (b : Bool) : (s.setCB b).pc = s.pc := rfl
@[simp] theorem setCB_tos (b : Bool) : (s.setCB b).tos = s.tos := rfl
@[simp] theorem setCB_sp (b : Bool) : (s.setCB b).sp = s.sp := rfl
@[simp] theorem setCB_rp (b : Bool) : (s.setCB b).rp = s.rp := rfl
@[simp] theorem setCB_x (b : Bool) : (s.setCB b).x = s.x := rfl
@[simp] theorem setCB_y (b : Bool) : (s.setCB b).y = s.y := rfl
@[simp] theorem setCB_ccr (b : Bool) : (s.setCB b).ccr = { s.ccr with c := b, b := b, ccr2 := Config.freeCcr2 s.draws } := rfl
@[simp] theorem setCB_ipr (b : Bool) : (s.setCB b).ipr = s.ipr := rfl
@[simp] theorem setCB_iar (b : Bool) : (s.setCB b).iar = s.iar := rfl
@[simp] theorem setCB_rbr (b : Bool) : (s.setCB b).rbr = s.rbr := rfl
@[simp] theorem setCB_asleep (b : Bool) : (s.setCB b).asleep = s.asleep := rfl
@[simp] theorem setCB_ram (b : Bool) : (s.setCB b).ram = s.ram := rfl
@[simp] theorem setCB_rom (b : Bool) : (s.setCB b).rom = s.rom := rfl
@[simp] theorem setCB_chip (b : Bool) : (s.setCB b).chip = s.chip := rfl
@[simp] theorem setCB_draws (b : Bool) : (s.setCB b).draws = s.draws + 1 := rfl
@[simp] theorem setCB_env (b : Bool) : (s.setCB b).env = s.env := rfl
@[simp] theorem setCB_out (b : Bool) : (s.setCB b).out = s.out := rfl
@[simp] theorem setCB_cycles (b : Bool) : (s.setCB b).cycles = s.cycles := rfl

/-! ## `setI` -/

@[simp] theorem setI_pc (b : Bool) : (s.setI b).pc = s.pc := rfl
@[simp] theorem setI_tos (b : Bool) : (s.setI b).tos = s.tos := rfl
@[simp] theorem setI_sp (b : Bool) : (s.setI b).sp = s.sp := rfl
@[simp] theorem setI_rp (b : Bool) : (s.setI b).rp = s.rp := rfl
@[simp] theorem setI_x (b : Bool) : (s.setI b).x = s.x := rfl
@[simp] theorem setI_y (b : Bool) : (s.setI b).y = s.y := rfl
@[simp] theorem setI_ccr (b : Bool) : (s.setI b).ccr = { s.ccr with i := b, ccr2 := Config.freeCcr2 s.draws } := rfl
@[simp] theorem setI_ipr (b : Bool) : (s.setI b).ipr = s.ipr := rfl
@[simp] theorem setI_iar (b : Bool) : (s.setI b).iar = s.iar := rfl
@[simp] theorem setI_rbr (b : Bool) : (s.setI b).rbr = s.rbr := rfl
@[simp] theorem setI_asleep (b : Bool) : (s.setI b).asleep = s.asleep := rfl
@[simp] theorem setI_ram (b : Bool) : (s.setI b).ram = s.ram := rfl
@[simp] theorem setI_rom (b : Bool) : (s.setI b).rom = s.rom := rfl
@[simp] theorem setI_chip (b : Bool) : (s.setI b).chip = s.chip := rfl
@[simp] theorem setI_draws (b : Bool) : (s.setI b).draws = s.draws + 1 := rfl
@[simp] theorem setI_env (b : Bool) : (s.setI b).env = s.env := rfl
@[simp] theorem setI_out (b : Bool) : (s.setI b).out = s.out := rfl
@[simp] theorem setI_cycles (b : Bool) : (s.setI b).cycles = s.cycles := rfl

/-! ## `setResult` -/

@[simp] theorem setResult_pc (r : AluOut) : (s.setResult r).pc = s.pc := rfl
@[simp] theorem setResult_tos (r : AluOut) : (s.setResult r).tos = r.value := rfl
@[simp] theorem setResult_sp (r : AluOut) : (s.setResult r).sp = s.sp := rfl
@[simp] theorem setResult_rp (r : AluOut) : (s.setResult r).rp = s.rp := rfl
@[simp] theorem setResult_x (r : AluOut) : (s.setResult r).x = s.x := rfl
@[simp] theorem setResult_y (r : AluOut) : (s.setResult r).y = s.y := rfl
@[simp] theorem setResult_ccr (r : AluOut) : (s.setResult r).ccr = { s.ccr with c := r.carry, b := r.carry, ccr2 := Config.freeCcr2 s.draws } := rfl
@[simp] theorem setResult_ipr (r : AluOut) : (s.setResult r).ipr = s.ipr := rfl
@[simp] theorem setResult_iar (r : AluOut) : (s.setResult r).iar = s.iar := rfl
@[simp] theorem setResult_rbr (r : AluOut) : (s.setResult r).rbr = s.rbr := rfl
@[simp] theorem setResult_asleep (r : AluOut) : (s.setResult r).asleep = s.asleep := rfl
@[simp] theorem setResult_ram (r : AluOut) : (s.setResult r).ram = s.ram := rfl
@[simp] theorem setResult_rom (r : AluOut) : (s.setResult r).rom = s.rom := rfl
@[simp] theorem setResult_chip (r : AluOut) : (s.setResult r).chip = s.chip := rfl
@[simp] theorem setResult_draws (r : AluOut) : (s.setResult r).draws = s.draws + 1 := rfl
@[simp] theorem setResult_env (r : AluOut) : (s.setResult r).env = s.env := rfl
@[simp] theorem setResult_out (r : AluOut) : (s.setResult r).out = s.out := rfl
@[simp] theorem setResult_cycles (r : AluOut) : (s.setResult r).cycles = s.cycles := rfl

/-! ## `setLogic` -/

@[simp] theorem setLogic_pc (v : Nibble) : (s.setLogic v).pc = s.pc := rfl
@[simp] theorem setLogic_tos (v : Nibble) : (s.setLogic v).tos = v := rfl
@[simp] theorem setLogic_sp (v : Nibble) : (s.setLogic v).sp = s.sp := rfl
@[simp] theorem setLogic_rp (v : Nibble) : (s.setLogic v).rp = s.rp := rfl
@[simp] theorem setLogic_x (v : Nibble) : (s.setLogic v).x = s.x := rfl
@[simp] theorem setLogic_y (v : Nibble) : (s.setLogic v).y = s.y := rfl
@[simp] theorem setLogic_ccr (v : Nibble) : (s.setLogic v).ccr = { s.ccr with b := v == 0#4, ccr2 := Config.freeCcr2 s.draws } := rfl
@[simp] theorem setLogic_ipr (v : Nibble) : (s.setLogic v).ipr = s.ipr := rfl
@[simp] theorem setLogic_iar (v : Nibble) : (s.setLogic v).iar = s.iar := rfl
@[simp] theorem setLogic_rbr (v : Nibble) : (s.setLogic v).rbr = s.rbr := rfl
@[simp] theorem setLogic_asleep (v : Nibble) : (s.setLogic v).asleep = s.asleep := rfl
@[simp] theorem setLogic_ram (v : Nibble) : (s.setLogic v).ram = s.ram := rfl
@[simp] theorem setLogic_rom (v : Nibble) : (s.setLogic v).rom = s.rom := rfl
@[simp] theorem setLogic_chip (v : Nibble) : (s.setLogic v).chip = s.chip := rfl
@[simp] theorem setLogic_draws (v : Nibble) : (s.setLogic v).draws = s.draws + 1 := rfl
@[simp] theorem setLogic_env (v : Nibble) : (s.setLogic v).env = s.env := rfl
@[simp] theorem setLogic_out (v : Nibble) : (s.setLogic v).out = s.out := rfl
@[simp] theorem setLogic_cycles (v : Nibble) : (s.setLogic v).cycles = s.cycles := rfl

/-! ## `setCompare` -/

@[simp] theorem setCompare_pc (b : Bool) : (s.setCompare b).pc = s.pc := rfl
@[simp] theorem setCompare_tos (b : Bool) : (s.setCompare b).tos = s.tos := rfl
@[simp] theorem setCompare_sp (b : Bool) : (s.setCompare b).sp = s.sp := rfl
@[simp] theorem setCompare_rp (b : Bool) : (s.setCompare b).rp = s.rp := rfl
@[simp] theorem setCompare_x (b : Bool) : (s.setCompare b).x = s.x := rfl
@[simp] theorem setCompare_y (b : Bool) : (s.setCompare b).y = s.y := rfl
@[simp] theorem setCompare_ccr (b : Bool) : (s.setCompare b).ccr = { s.ccr with c := Config.freeCarry s.draws, b := b, ccr2 := Config.freeCcr2 s.draws } := rfl
@[simp] theorem setCompare_ipr (b : Bool) : (s.setCompare b).ipr = s.ipr := rfl
@[simp] theorem setCompare_iar (b : Bool) : (s.setCompare b).iar = s.iar := rfl
@[simp] theorem setCompare_rbr (b : Bool) : (s.setCompare b).rbr = s.rbr := rfl
@[simp] theorem setCompare_asleep (b : Bool) : (s.setCompare b).asleep = s.asleep := rfl
@[simp] theorem setCompare_ram (b : Bool) : (s.setCompare b).ram = s.ram := rfl
@[simp] theorem setCompare_rom (b : Bool) : (s.setCompare b).rom = s.rom := rfl
@[simp] theorem setCompare_chip (b : Bool) : (s.setCompare b).chip = s.chip := rfl
@[simp] theorem setCompare_draws (b : Bool) : (s.setCompare b).draws = s.draws + 1 := rfl
@[simp] theorem setCompare_env (b : Bool) : (s.setCompare b).env = s.env := rfl
@[simp] theorem setCompare_out (b : Bool) : (s.setCompare b).out = s.out := rfl
@[simp] theorem setCompare_cycles (b : Bool) : (s.setCompare b).cycles = s.cycles := rfl

/-! ## `setPtr` -/

@[simp] theorem setPtr_pc (r : PtrReg) (v : RamAddr) : (s.setPtr r v).pc = s.pc := by cases r <;> rfl
@[simp] theorem setPtr_tos (r : PtrReg) (v : RamAddr) : (s.setPtr r v).tos = s.tos := by cases r <;> rfl
@[simp] theorem setPtr_sp (r : PtrReg) (v : RamAddr) : (s.setPtr r v).sp = s.sp := by cases r <;> rfl
@[simp] theorem setPtr_rp (r : PtrReg) (v : RamAddr) : (s.setPtr r v).rp = s.rp := by cases r <;> rfl
@[simp] theorem setPtr_x_x (v : RamAddr) : (s.setPtr .x v).x = v := rfl
@[simp] theorem setPtr_x_y (v : RamAddr) : (s.setPtr .x v).y = s.y := rfl
@[simp] theorem setPtr_y_y (v : RamAddr) : (s.setPtr .y v).y = v := rfl
@[simp] theorem setPtr_y_x (v : RamAddr) : (s.setPtr .y v).x = s.x := rfl
@[simp] theorem setPtr_ccr (r : PtrReg) (v : RamAddr) : (s.setPtr r v).ccr = s.ccr := by cases r <;> rfl
@[simp] theorem setPtr_ipr (r : PtrReg) (v : RamAddr) : (s.setPtr r v).ipr = s.ipr := by cases r <;> rfl
@[simp] theorem setPtr_iar (r : PtrReg) (v : RamAddr) : (s.setPtr r v).iar = s.iar := by cases r <;> rfl
@[simp] theorem setPtr_rbr (r : PtrReg) (v : RamAddr) : (s.setPtr r v).rbr = s.rbr := by cases r <;> rfl
@[simp] theorem setPtr_asleep (r : PtrReg) (v : RamAddr) : (s.setPtr r v).asleep = s.asleep := by cases r <;> rfl
@[simp] theorem setPtr_ram (r : PtrReg) (v : RamAddr) : (s.setPtr r v).ram = s.ram := by cases r <;> rfl
@[simp] theorem setPtr_rom (r : PtrReg) (v : RamAddr) : (s.setPtr r v).rom = s.rom := by cases r <;> rfl
@[simp] theorem setPtr_chip (r : PtrReg) (v : RamAddr) : (s.setPtr r v).chip = s.chip := by cases r <;> rfl
@[simp] theorem setPtr_draws (r : PtrReg) (v : RamAddr) : (s.setPtr r v).draws = s.draws := by cases r <;> rfl
@[simp] theorem setPtr_env (r : PtrReg) (v : RamAddr) : (s.setPtr r v).env = s.env := by cases r <;> rfl
@[simp] theorem setPtr_out (r : PtrReg) (v : RamAddr) : (s.setPtr r v).out = s.out := by cases r <;> rfl
@[simp] theorem setPtr_cycles (r : PtrReg) (v : RamAddr) : (s.setPtr r v).cycles = s.cycles := by cases r <;> rfl

/-! ## Views that an update leaves alone -/

@[simp] theorem withRam_romAt (a : RamAddr) (v : Nibble) (c : RomAddr) : (s.withRam a v).romAt c = s.romAt c := rfl
@[simp] theorem withRom_ramAt (a : RomAddr) (v : Byte) (c : RamAddr) : (s.withRom a v).ramAt c = s.ramAt c := rfl
@[simp] theorem advance_ramAt (n k : Nat) (c : RamAddr) : (s.advance n k).ramAt c = s.ramAt c := rfl
@[simp] theorem advance_romAt (n k : Nat) (c : RomAddr) : (s.advance n k).romAt c = s.romAt c := rfl
@[simp] theorem jump_ramAt (p : RomAddr) (k : Nat) (c : RamAddr) : (s.jump p k).ramAt c = s.ramAt c := rfl
@[simp] theorem jump_romAt (p : RomAddr) (k : Nat) (c : RomAddr) : (s.jump p k).romAt c = s.romAt c := rfl
@[simp] theorem latch_ramAt (r : BitVec 8) (c : RamAddr) : (s.latch r).ramAt c = s.ramAt c := rfl
@[simp] theorem latch_romAt (r : BitVec 8) (c : RomAddr) : (s.latch r).romAt c = s.romAt c := rfl
@[simp] theorem disturbCcr2_ramAt (c : RamAddr) : (s.disturbCcr2).ramAt c = s.ramAt c := rfl
@[simp] theorem disturbCcr2_romAt (c : RomAddr) : (s.disturbCcr2).romAt c = s.romAt c := rfl
@[simp] theorem setB_ramAt (b : Bool) (c : RamAddr) : (s.setB b).ramAt c = s.ramAt c := rfl
@[simp] theorem setB_romAt (b : Bool) (c : RomAddr) : (s.setB b).romAt c = s.romAt c := rfl
@[simp] theorem setCB_ramAt (b : Bool) (c : RamAddr) : (s.setCB b).ramAt c = s.ramAt c := rfl
@[simp] theorem setCB_romAt (b : Bool) (c : RomAddr) : (s.setCB b).romAt c = s.romAt c := rfl
@[simp] theorem setI_ramAt (b : Bool) (c : RamAddr) : (s.setI b).ramAt c = s.ramAt c := rfl
@[simp] theorem setI_romAt (b : Bool) (c : RomAddr) : (s.setI b).romAt c = s.romAt c := rfl
@[simp] theorem setResult_ramAt (r : AluOut) (c : RamAddr) : (s.setResult r).ramAt c = s.ramAt c := rfl
@[simp] theorem setResult_romAt (r : AluOut) (c : RomAddr) : (s.setResult r).romAt c = s.romAt c := rfl
@[simp] theorem setLogic_ramAt (v : Nibble) (c : RamAddr) : (s.setLogic v).ramAt c = s.ramAt c := rfl
@[simp] theorem setLogic_romAt (v : Nibble) (c : RomAddr) : (s.setLogic v).romAt c = s.romAt c := rfl
@[simp] theorem setCompare_ramAt (b : Bool) (c : RamAddr) : (s.setCompare b).ramAt c = s.ramAt c := rfl
@[simp] theorem setCompare_romAt (b : Bool) (c : RomAddr) : (s.setCompare b).romAt c = s.romAt c := rfl

end Sys2Proof.Machine
end

