-- ==== Sys2Proof/Laws/Ops.lean ====
section
/-!
SUPPORT. One lemma per shared operation that says once when it answers a state and which.
-/

namespace Sys2Proof.Machine

/-! ## Answers -/

/-- A chain of operations answers exactly if each does. -/
theorem res_bind_ok_iff {α β : Type} {r : Res α} {f : α → Res β} {b : β} :
    (r >>= f) = .ok b ↔ ∃ a, r = .ok a ∧ f a = .ok b := by
  cases r with
  | error e =>
    constructor
    · intro h; cases h
    · rintro ⟨_, h, _⟩; cases h
  | ok a =>
    constructor
    · exact fun h => ⟨a, rfl, h⟩
    · rintro ⟨_, h, h'⟩; cases h; exact h'

@[simp] theorem res_bind_ok {α β : Type} (a : α) (f : α → Res β) : ((.ok a : Res α) >>= f) = f a := rfl

@[simp] theorem res_bind_error {α β : Type} (e : Stop) (f : α → Res β) : ((.error e : Res α) >>= f) = .error e := rfl

@[simp] theorem finish_ok (s : State) : finish (.ok s) = .next s := rfl

@[simp] theorem finish_fault (e : Fault) : finish (.error (.fault e)) = .fault e := rfl

@[simp] theorem finish_refused (e : Refusal) : finish (.error (.refused e)) = .refused e := rfl

/-- A meaning answers a next state exactly if its operation answers that state. -/
@[simp] theorem finish_next_iff {r : Res State} {t : State} : finish r = .next t ↔ r = .ok t := by
  cases r with
  | ok s => simp [finish]
  | error e => cases e <;> simp [finish, Stop.outcome]

theorem ite_ok_iff {α : Type} {c : Prop} [Decidable c] {a b : α} {e : Stop} :
    (if c then (.ok a : Res α) else .error e) = .ok b ↔ c ∧ a = b := by
  split <;> simp_all

/-! ## RAM and ROM -/

theorem ramAt_withRam (s : State) (a b : RamAddr) (v : Nibble) :
    (s.withRam a v).ramAt b = if b = a then v else s.ramAt b := by
  unfold State.ramAt
  rw [withRam_ram, cellRead_cellWrite]
  exact if_congr BitVec.toNat_inj rfl rfl

theorem ramRead_ok_iff {s : State} {a : RamAddr} {v : Nibble} : s.ramRead a = .ok v ↔ s.ramHas a ∧ s.ramAt a = v :=
  ite_ok_iff

theorem ramWrite_ok_iff {s t : State} {a : RamAddr} {v : Nibble} :
    s.ramWrite a v = .ok t ↔ s.ramHas a ∧ s.withRam a v = t :=
  ite_ok_iff

theorem romRead_ok_iff {s : State} {a : RomAddr} {v : Byte} : s.romRead a = .ok v ↔ s.romHas a ∧ s.romAt a = v :=
  ite_ok_iff

theorem romAt_withRom (s : State) (a b : RomAddr) (v : Byte) :
    (s.withRom a v).romAt b = if s.romIndex b = s.romIndex a then v else s.romAt b := by
  unfold State.romAt
  rw [withRom_rom, cellRead_cellWrite]
  rfl

theorem withRam_wf {s : State} (a : RamAddr) (v : Nibble) (h : MemWf 256 s.ram) : MemWf 256 (s.withRam a v).ram :=
  cellWrite_wf v a.isLt h

theorem romIndex_lt (s : State) (a : RomAddr) : s.romIndex a < 10240 := by
  have hb : s.bank < 4 := (s.rbr.extractLsb' 2 2).isLt
  have ha : a.toNat < 4096 := a.isLt
  unfold State.romIndex
  split <;> omega

theorem withRom_wf {s : State} (a : RomAddr) (v : Byte) (h : MemWf 10240 s.rom) : MemWf 10240 (s.withRom a v).rom :=
  cellWrite_wf v (romIndex_lt s a) h

/-! ## The Expression Stack -/

theorem push_ok_iff {s t : State} {v : Nibble} :
    s.push v = .ok t ↔ s.ramHas (s.sp + 1) ∧ { s.withRam (s.sp + 1) s.tos with sp := s.sp + 1, tos := v } = t := by
  simp only [State.push, res_bind_ok_iff, ramWrite_ok_iff, Except.ok.injEq]
  constructor
  · rintro ⟨_, ⟨h, rfl⟩, e⟩; exact ⟨h, e⟩
  · rintro ⟨h, e⟩; exact ⟨_, ⟨h, rfl⟩, e⟩

theorem pop_ok_iff {s t : State} {v : Nibble} :
    s.pop = .ok (v, t) ↔ s.ramHas s.sp ∧ s.tos = v ∧ { s with tos := s.ramAt s.sp, sp := s.sp - 1 } = t := by
  simp [State.pop, res_bind_ok_iff, ramRead_ok_iff]

theorem takeTwo_ok_iff {s t : State} {n1 n2 : Nibble} :
    s.takeTwo = .ok (n1, n2, t) ↔ s.ramHas s.sp ∧ s.ramAt s.sp = n1 ∧ s.tos = n2 ∧ { s with sp := s.sp - 1 } = t := by
  simp [State.takeTwo, res_bind_ok_iff, ramRead_ok_iff]

theorem pushByte_ok_iff {s t : State} {v : BitVec 8} :
    s.pushByte v = .ok t ↔ ∃ u, s.push (hiNibble v) = .ok u ∧ u.push (loNibble v) = .ok t :=
  res_bind_ok_iff

theorem popByte_ok_iff {s t : State} {v : BitVec 8} :
    s.popByte = .ok (v, t) ↔ ∃ dl u dh, s.pop = .ok (dl, u) ∧ u.pop = .ok (dh, t) ∧ dh ++ dl = v := by
  simp only [State.popByte, res_bind_ok_iff, Prod.exists, Except.ok.injEq, Prod.mk.injEq]
  constructor
  · rintro ⟨dl, u, h1, dh, t', h2, rfl, rfl⟩; exact ⟨dl, u, dh, h1, h2, rfl⟩
  · rintro ⟨dl, u, dh, h1, h2, rfl⟩; exact ⟨dl, u, h1, dh, t, h2, rfl, rfl⟩

/-! ## The Return Stack -/

theorem rsAt_eq (s : State) (a : RamAddr) : s.rsAt a = entryWord s.chip.rsLayout s.ramAt a := rfl

theorem rsCell_ne {a : RamAddr} {o p : Fin 4} (h : o ≠ p) : rsCell a o ≠ rsCell a p := by
  have key : ∀ o p : Fin 4, o ≠ p → BitVec.ofNat 8 o.val ≠ BitVec.ofNat 8 p.val := by decide
  exact fun e => key o p h (BitVec.add_right_inj a |>.1 e)

theorem rsRead_ok_iff {s : State} {a : RamAddr} {w : RomAddr} : s.rsRead a = .ok w ↔ s.rsHas a ∧ s.rsAt a = w := by
  unfold State.rsRead State.rsAt State.rsHas
  by_cases ha : a = autosleepEntry
  · simp [ha]
  · by_cases hr : rsAligned a
    · rw [if_neg ha, if_neg ha, if_pos hr]
      simp only [ha, false_or, res_bind_ok_iff, ramRead_ok_iff, Except.ok.injEq]
      constructor
      · rintro ⟨_, ⟨h1, rfl⟩, _, ⟨h2, rfl⟩, _, ⟨h3, rfl⟩, e⟩; exact ⟨⟨hr, h1, h2, h3⟩, e⟩
      · rintro ⟨⟨_, h1, h2, h3⟩, e⟩; exact ⟨_, ⟨h1, rfl⟩, _, ⟨h2, rfl⟩, _, ⟨h3, rfl⟩, e⟩
    · simp [ha, hr]

theorem ramAt_withRam_eq (s : State) (a : RamAddr) (v : Nibble) : (s.withRam a v).ramAt = setCell s.ramAt a v := by
  funext b; exact ramAt_withRam s a b v

/-- A write of a Return Stack entry: which cells it leaves, and that nothing else changes but the count of draws. -/
theorem rsWrite_ok {s t : State} {a : RamAddr} {w : RomAddr} {mask : RsMask} (h : s.rsWrite a w mask = .ok t) :
    s.rsHas a ∧ t = { s with ram := t.ram, draws := s.draws + mask.draws } ∧
      t.ramAt = setEntry s.chip.rsLayout s.ramAt a (s.rsWord w mask) ∧ (MemWf 256 s.ram → MemWf 256 t.ram) := by
  unfold State.rsWrite at h
  unfold State.rsHas setEntry
  by_cases ha : a = autosleepEntry
  · rw [if_pos ha] at h
    cases h
    exact ⟨.inl ha, rfl, by rw [if_pos ha]; rfl, id⟩
  · rw [if_neg ha] at h
    by_cases hr : rsAligned a
    · rw [if_pos hr] at h
      simp only [res_bind_ok_iff, ramWrite_ok_iff, Except.ok.injEq] at h
      obtain ⟨_, ⟨h1, rfl⟩, _, ⟨h2, rfl⟩, _, ⟨h3, rfl⟩, rfl⟩ := h
      refine ⟨.inr ⟨hr, h1, h2, h3⟩, rfl, ?_, fun hw => withRam_wf _ _ (withRam_wf _ _ (withRam_wf _ _ hw))⟩
      rw [if_neg ha, ← ramAt_withRam_eq, ← ramAt_withRam_eq, ← ramAt_withRam_eq]
      rfl
    · rw [if_neg hr] at h; cases h

/-- A Return Stack access the spec describes is not stopped. -/
theorem rsWrite_of_rsHas {s : State} {a : RamAddr} (w : RomAddr) (mask : RsMask) (h : s.rsHas a) :
    ∃ t, s.rsWrite a w mask = .ok t := by
  unfold State.rsWrite
  by_cases ha : a = autosleepEntry
  · exact ⟨_, if_pos ha⟩
  · obtain ⟨hr, h1, h2, h3⟩ := h.resolve_left ha
    rw [if_neg ha, if_pos hr]
    exact ⟨_, res_bind_ok_iff.2 ⟨_, ramWrite_ok_iff.2 ⟨h1, rfl⟩, res_bind_ok_iff.2 ⟨_, ramWrite_ok_iff.2 ⟨h2, rfl⟩,
      res_bind_ok_iff.2 ⟨_, ramWrite_ok_iff.2 ⟨h3, rfl⟩, rfl⟩⟩⟩⟩

theorem rpop_ok_iff {s t : State} {w : RomAddr} :
    s.rpop = .ok (w, t) ↔ s.rsHas s.rp ∧ s.rsAt s.rp = w ∧ { s with rp := s.rp - 4 } = t := by
  simp only [State.rpop, res_bind_ok_iff, rsRead_ok_iff, Except.ok.injEq, Prod.mk.injEq]
  constructor
  · rintro ⟨_, ⟨h, rfl⟩, e, e'⟩; exact ⟨h, e, e'⟩
  · rintro ⟨h, e, e'⟩; exact ⟨_, ⟨h, rfl⟩, e, e'⟩

theorem rpush_ok {s t : State} {w : RomAddr} {mask : RsMask} (h : s.rpush w mask = .ok t) :
    s.rsHas (s.rp + 4) ∧ t = { s with ram := t.ram, rp := s.rp + 4, draws := s.draws + mask.draws } ∧
      t.ramAt = setEntry s.chip.rsLayout s.ramAt (s.rp + 4) (s.rsWord w mask) ∧
      (MemWf 256 s.ram → MemWf 256 t.ram) :=
  rsWrite_ok h

theorem rpush_of_rsHas {s : State} (w : RomAddr) (mask : RsMask) (h : s.rsHas (s.rp + 4)) :
    ∃ t, s.rpush w mask = .ok t :=
  rsWrite_of_rsHas (s := { s with rp := s.rp + 4 }) w mask h

/-! ## Calls, ports and RAM through X and Y -/

theorem callTo_ok {s t : State} {target : RomAddr} {n k : Nat} (h : s.callTo target n k = .ok t) :
    ∃ u, s.rpush (s.pc + BitVec.ofNat 12 n) .word = .ok u ∧ u.jump target k = t := by
  simpa [State.callTo, res_bind_ok_iff] using h

theorem pageTarget_ok_iff {s : State} {a : BitVec 6} {p : RomAddr} :
    s.pageTarget a = .ok p ↔ s.pc.extractLsb' 0 6 ≠ 0x3F#6 ∧ s.pc.extractLsb' 6 6 ++ a = p := by
  unfold State.pageTarget
  split <;> simp_all

/-- A port write changes the trace of events, and RBR where the port is the chip's bank register. -/
theorem portWrite_ok {s t : State} {p : Port} {v : Nibble} (h : s.portWrite p v = .ok t) :
    s.chip.rbrPort = some p ∧ s.pc.toNat < 0x800 ∧ t = { s with out := s.out ++ [(p, v)], rbr := v } ∨
      s.chip.rbrPort ≠ some p ∧ t = { s with out := s.out ++ [(p, v)] } := by
  unfold State.portWrite at h
  simp only at h
  split at h <;> rename_i hp
  · split at h <;> rename_i hc
    · cases h; exact .inl ⟨hp, hc, rfl⟩
    · cases h
  · cases h; exact .inr ⟨hp, rfl⟩

theorem fetchVia_ok {s t : State} {r : PtrReg} {m : PtrMode} (h : s.fetchVia r m = .ok t) :
    m.ea (s.ptr r) ≠ s.sp + 1 ∧ s.ramHas (m.ea (s.ptr r)) ∧
      ∃ u, s.push (s.ramAt (m.ea (s.ptr r))) = .ok u ∧ u.setPtr r (m.after (s.ptr r)) = t := by
  unfold State.fetchVia at h
  simp only at h
  split at h <;> rename_i he
  · cases h
  · simp only [res_bind_ok_iff, ramRead_ok_iff, Except.ok.injEq] at h
    obtain ⟨_, ⟨hh, rfl⟩, u, hu, e⟩ := h
    exact ⟨he, hh, u, hu, e⟩

theorem storeVia_ok {s t : State} {r : PtrReg} {m : PtrMode} (h : s.storeVia r m = .ok t) :
    m.ea (s.ptr r) ≠ s.sp ∧ s.ramHas (m.ea (s.ptr r)) ∧
      ∃ n u, (s.withRam (m.ea (s.ptr r)) s.tos).pop = .ok (n, u) ∧ u.setPtr r (m.after (s.ptr r)) = t := by
  unfold State.storeVia at h
  simp only at h
  split at h <;> rename_i he
  · cases h
  · simp only [res_bind_ok_iff, ramWrite_ok_iff, Prod.exists, Except.ok.injEq] at h
    obtain ⟨_, ⟨hh, rfl⟩, n, u, hu, e⟩ := h
    exact ⟨he, hh, n, u, hu, e⟩

end Sys2Proof.Machine
end

