-- ==== Sys2Proof/Laws/Interrupts.lean ====
section
/-!
SUPPORT. The interrupt controller: which level is acknowledged, and what taking an interrupt and returning from one do.
-/

namespace Sys2Proof.Machine

theorem hiLevel_some_iff {v : BitVec 8} {k : Level} : hiLevel v = some k ↔ HighestBit v k := by
  revert v k
  decide

theorem hiLevel_none_iff {v : BitVec 8} : hiLevel v = none ↔ v = 0#8 := by
  revert v
  decide

theorem waiting_bit (p a : BitVec 8) (j : Level) :
    (p &&& ~~~a).getLsbD j.val = (p.getLsbD j.val && !a.getLsbD j.val) := by
  simp [j.isLt]

/-- The candidate is the pending level above which none is pending or active, if it is not active itself. -/
theorem candidate_iff {p a : BitVec 8} {k : Level} :
    candidate p a = some k ↔ p.getLsbD k.val = true ∧ a.getLsbD k.val = false ∧
      ∀ j : Level, k < j → p.getLsbD j.val = false ∧ a.getLsbD j.val = false := by
  unfold candidate
  constructor
  · intro h
    split at h
    · cases h
    · rename_i j hj hn
      cases h
      obtain ⟨h1, h2⟩ := hiLevel_some_iff.1 hj
      rw [hiLevel_none_iff] at hn
      subst hn
      simp only [waiting_bit] at h1 h2
      simp_all
    · rename_i j m hj hm
      split at h <;> rename_i hlt
      · cases h
        obtain ⟨h1, h2⟩ := hiLevel_some_iff.1 hj
        obtain ⟨_, h4⟩ := hiLevel_some_iff.1 hm
        simp only [waiting_bit] at h1 h2
        refine ⟨by simp_all, by simp_all, fun i hi => ?_⟩
        have ha := h4 i (lt_trans hlt hi)
        have := h2 i hi
        simp_all
      · cases h
  · rintro ⟨h1, h2, h3⟩
    have hk : hiLevel (p &&& ~~~a) = some k := by
      refine hiLevel_some_iff.2 ⟨by rw [waiting_bit, h1, h2]; rfl, fun j hj => ?_⟩
      rw [waiting_bit, (h3 j hj).1]; rfl
    rw [hk]
    cases hm : hiLevel a with
    | none => rfl
    | some m =>
      have hb := (hiLevel_some_iff.1 hm).1
      have hmk : m < k := by
        rcases lt_trichotomy m k with h | h | h
        · exact h
        · subst h; rw [h2] at hb; cases hb
        · rw [(h3 m h).2] at hb; cases hb
      simp [hmk]

/-- The acknowledged level is the one that is due (60_exceptions.md R256, R257). -/
theorem acknowledged_iff {s : State} {k : Level} : s.acknowledged = some k ↔ AcknowledgeDue s k := by
  unfold State.acknowledged AcknowledgeDue
  split <;> rename_i hi
  · rw [candidate_iff]; simp [hi]
  · simp [hi]

theorem acknowledged_none_iff {s : State} : s.acknowledged = none ↔ ∀ k, ¬AcknowledgeDue s k := by
  constructor
  · intro h k hk
    rw [acknowledged_iff.2 hk] at h
    cases h
  · intro h
    cases hk : s.acknowledged with
    | none => rfl
    | some k => exact absurd (acknowledged_iff.1 hk) (h k)

theorem acknowledge_ok {s t : State} {k : Level} (h : s.acknowledge k = .ok t) :
    ∃ u, { s with asleep := false, iar := s.iar ||| levelBit k }.rpush s.pc .word = .ok u ∧ u.jump (vector k) 2 = t := by
  simpa [State.acknowledge, res_bind_ok_iff] using h

/-- The end of a service changes IAR and IPR only: the bit of the highest active level goes. -/
theorem endService_cases (s : State) :
    (s.iar = 0#8 ∧ s.endService = s) ∨
      ∃ k, HighestBit s.iar k ∧
        s.endService = { s with iar := s.iar &&& ~~~levelBit k, ipr := s.ipr &&& ~~~levelBit k } := by
  unfold State.endService
  split <;> rename_i h
  · exact .inl ⟨hiLevel_none_iff.1 h, rfl⟩
  · exact .inr ⟨_, hiLevel_some_iff.1 h, rfl⟩

theorem returnFromInterrupt_ok {s t : State} (h : s.returnFromInterrupt = .ok t) :
    ∃ w u, s.rpop = .ok (w, u) ∧
      { u.endService with ccr := { u.endService.ccr with i := true } }.jump w 2 = t := by
  simpa [State.returnFromInterrupt, res_bind_ok_iff, Prod.exists] using h

end Sys2Proof.Machine
end

