-- ==== Sys2Proof/Laws/PerInstr.lean ====
section
/-!
SUPPORT. Statements made per instruction: one lemma for each constructor.

`LengthOfFirstByte`: an instruction has as many bytes as its first byte says (30_encoding.md R70).
-/

namespace Sys2Proof.Laws

/-- The encoding of `i` is not empty, and its length is the one its first byte tells (30_encoding.md R70). -/
def LengthOfFirstByte.Statement (i : Instr) : Prop :=
  ∃ b rest, encode i = b :: rest ∧ (encode i).length = opLength b

namespace LengthOfFirstByte

theorem longRom (op n : Nibble) (h : op = 0x4#4 ∨ op = 0x5#4) : opLength (op ++ n) = 2 := by
  rcases h with rfl | rfl <;> revert n <;> decide

theorem literal : ∀ n : Nibble, opLength (0x6#4 ++ n) = 1 := by decide

theorem shortRom : ∀ a : BitVec 6, opLength (0b10#2 ++ a) = 1 ∧ opLength (0b11#2 ++ a) = 1 := by decide

theorem add : Statement .add := ⟨_, _, rfl, rfl⟩
theorem addc : Statement .addc := ⟨_, _, rfl, rfl⟩
theorem sub : Statement .sub := ⟨_, _, rfl, rfl⟩
theorem subb : Statement .subb := ⟨_, _, rfl, rfl⟩
theorem xor : Statement .xor := ⟨_, _, rfl, rfl⟩
theorem and : Statement .and := ⟨_, _, rfl, rfl⟩
theorem cmpEq : Statement .cmpEq := ⟨_, _, rfl, rfl⟩
theorem cmpNe : Statement .cmpNe := ⟨_, _, rfl, rfl⟩
theorem cmpLt : Statement .cmpLt := ⟨_, _, rfl, rfl⟩
theorem cmpLe : Statement .cmpLe := ⟨_, _, rfl, rfl⟩
theorem cmpGt : Statement .cmpGt := ⟨_, _, rfl, rfl⟩
theorem cmpGe : Statement .cmpGe := ⟨_, _, rfl, rfl⟩
theorem or : Statement .or := ⟨_, _, rfl, rfl⟩
theorem ccrFetch : Statement .ccrFetch := ⟨_, _, rfl, rfl⟩
theorem ccrStore : Statement .ccrStore := ⟨_, _, rfl, rfl⟩
theorem sleep : Statement .sleep := ⟨_, _, rfl, rfl⟩
theorem shl : Statement .shl := ⟨_, _, rfl, rfl⟩
theorem rol : Statement .rol := ⟨_, _, rfl, rfl⟩
theorem shr : Statement .shr := ⟨_, _, rfl, rfl⟩
theorem ror : Statement .ror := ⟨_, _, rfl, rfl⟩
theorem inc : Statement .inc := ⟨_, _, rfl, rfl⟩
theorem dec : Statement .dec := ⟨_, _, rfl, rfl⟩
theorem daa : Statement .daa := ⟨_, _, rfl, rfl⟩
theorem not : Statement .not := ⟨_, _, rfl, rfl⟩
theorem togBf : Statement .togBf := ⟨_, _, rfl, rfl⟩
theorem setBcf : Statement .setBcf := ⟨_, _, rfl, rfl⟩
theorem di : Statement .di := ⟨_, _, rfl, rfl⟩
theorem inPort : Statement .inPort := ⟨_, _, rfl, rfl⟩
theorem decr : Statement .decr := ⟨_, _, rfl, rfl⟩
theorem rti : Statement .rti := ⟨_, _, rfl, rfl⟩
theorem swi : Statement .swi := ⟨_, _, rfl, rfl⟩
theorem outPort : Statement .outPort := ⟨_, _, rfl, rfl⟩
theorem table : Statement .table := ⟨_, _, rfl, rfl⟩
theorem unassigned21 : Statement .unassigned21 := ⟨_, _, rfl, rfl⟩
theorem toR : Statement .toR := ⟨_, _, rfl, rfl⟩
theorem rCopy : Statement .rCopy := ⟨_, _, rfl, rfl⟩
theorem unassigned24 : Statement .unassigned24 := ⟨_, _, rfl, rfl⟩
theorem exit : Statement .exit := ⟨_, _, rfl, rfl⟩
theorem swap : Statement .swap := ⟨_, _, rfl, rfl⟩
theorem overCopy : Statement .overCopy := ⟨_, _, rfl, rfl⟩
theorem twoToR : Statement .twoToR := ⟨_, _, rfl, rfl⟩
theorem threeToR : Statement .threeToR := ⟨_, _, rfl, rfl⟩
theorem twoRCopy : Statement .twoRCopy := ⟨_, _, rfl, rfl⟩
theorem threeRCopy : Statement .threeRCopy := ⟨_, _, rfl, rfl⟩
theorem rot : Statement .rot := ⟨_, _, rfl, rfl⟩
theorem dup : Statement .dup := ⟨_, _, rfl, rfl⟩
theorem drop : Statement .drop := ⟨_, _, rfl, rfl⟩
theorem dropr : Statement .dropr := ⟨_, _, rfl, rfl⟩
theorem fetchX : Statement .fetchX := ⟨_, _, rfl, rfl⟩
theorem fetchIncX : Statement .fetchIncX := ⟨_, _, rfl, rfl⟩
theorem fetchXDec : Statement .fetchXDec := ⟨_, _, rfl, rfl⟩
theorem fetchDirX (a : RamAddr) : Statement (.fetchDirX a) := ⟨_, _, rfl, rfl⟩
theorem fetchY : Statement .fetchY := ⟨_, _, rfl, rfl⟩
theorem fetchIncY : Statement .fetchIncY := ⟨_, _, rfl, rfl⟩
theorem fetchYDec : Statement .fetchYDec := ⟨_, _, rfl, rfl⟩
theorem fetchDirY (a : RamAddr) : Statement (.fetchDirY a) := ⟨_, _, rfl, rfl⟩
theorem storeX : Statement .storeX := ⟨_, _, rfl, rfl⟩
theorem storeIncX : Statement .storeIncX := ⟨_, _, rfl, rfl⟩
theorem storeXDec : Statement .storeXDec := ⟨_, _, rfl, rfl⟩
theorem storeDirX (a : RamAddr) : Statement (.storeDirX a) := ⟨_, _, rfl, rfl⟩
theorem storeY : Statement .storeY := ⟨_, _, rfl, rfl⟩
theorem storeIncY : Statement .storeIncY := ⟨_, _, rfl, rfl⟩
theorem storeYDec : Statement .storeYDec := ⟨_, _, rfl, rfl⟩
theorem storeDirY (a : RamAddr) : Statement (.storeDirY a) := ⟨_, _, rfl, rfl⟩
theorem call (a : RomAddr) : Statement (.call a) := ⟨_, _, rfl, (longRom _ _ (.inl rfl)).symm⟩
theorem bra (a : RomAddr) : Statement (.bra a) := ⟨_, _, rfl, (longRom _ _ (.inr rfl)).symm⟩
theorem lit (a : Nibble) : Statement (.lit a) := ⟨_, _, rfl, (literal _).symm⟩
theorem getSp : Statement .getSp := ⟨_, _, rfl, rfl⟩
theorem getRp : Statement .getRp := ⟨_, _, rfl, rfl⟩
theorem getX : Statement .getX := ⟨_, _, rfl, rfl⟩
theorem getY : Statement .getY := ⟨_, _, rfl, rfl⟩
theorem setSp : Statement .setSp := ⟨_, _, rfl, rfl⟩
theorem setRp : Statement .setRp := ⟨_, _, rfl, rfl⟩
theorem setX : Statement .setX := ⟨_, _, rfl, rfl⟩
theorem setY : Statement .setY := ⟨_, _, rfl, rfl⟩
theorem loadSp (a : RamAddr) : Statement (.loadSp a) := ⟨_, _, rfl, rfl⟩
theorem loadRp (a : RamAddr) : Statement (.loadRp a) := ⟨_, _, rfl, rfl⟩
theorem loadX (a : RamAddr) : Statement (.loadX a) := ⟨_, _, rfl, rfl⟩
theorem loadY (a : RamAddr) : Statement (.loadY a) := ⟨_, _, rfl, rfl⟩
theorem nop : Statement .nop := ⟨_, _, rfl, rfl⟩
theorem nop7D : Statement .nop7D := ⟨_, _, rfl, rfl⟩
theorem nop7E : Statement .nop7E := ⟨_, _, rfl, rfl⟩
theorem nop7F : Statement .nop7F := ⟨_, _, rfl, rfl⟩
theorem sbra (a : BitVec 6) : Statement (.sbra a) := ⟨_, _, rfl, (shortRom _).1.symm⟩
theorem scall (a : BitVec 6) : Statement (.scall a) := ⟨_, _, rfl, (shortRom _).2.symm⟩

end LengthOfFirstByte

end Sys2Proof.Laws
end

