-- ==== Sys2Proof/Laws/Step.lean ====
section
/-!
SUPPORT. What a fetch and a step can do.
-/

namespace Sys2Proof.Machine

theorem stop_outcome_ne_next (e : Stop) (t : State) : e.outcome ≠ .next t := by
  cases e <;> simp [Stop.outcome]

theorem fetch_ok_iff {s : State} {i : Instr} :
    s.fetch = .ok i ↔ s.codePresent ∧
      i = if opLength (s.romAt s.pc) = 2 then decodeOp (s.romAt s.pc) (s.romAt (s.pc + 1))
        else decodeOp (s.romAt s.pc) 0#8 := by
  unfold State.fetch State.codePresent
  rw [res_bind_ok_iff]
  constructor
  · rintro ⟨b, hb, h⟩
    obtain ⟨h1, rfl⟩ := romRead_ok_iff.1 hb
    split at h <;> rename_i hl
    · obtain ⟨b, hb, h⟩ := res_bind_ok_iff.1 h
      obtain ⟨h2, rfl⟩ := romRead_ok_iff.1 hb
      cases h
      exact ⟨⟨h1, fun _ => h2⟩, by rw [if_pos hl]⟩
    · cases h
      exact ⟨⟨h1, fun e => absurd e hl⟩, by rw [if_neg hl]⟩
  · rintro ⟨⟨h1, h2⟩, rfl⟩
    refine ⟨_, romRead_ok_iff.2 ⟨h1, rfl⟩, ?_⟩
    split <;> rename_i hl
    · exact res_bind_ok_iff.2 ⟨_, romRead_ok_iff.2 ⟨h2 hl, rfl⟩, rfl⟩
    · rfl

/-- What the boundary can come to once the environment has had its turn. -/
theorem proceed_cases (s : State) :
    (∃ k t, AcknowledgeDue s k ∧ s.acknowledge k = .ok t ∧ s.proceed = .settled t) ∨
    (∃ k e, AcknowledgeDue s k ∧ s.acknowledge k = .error e ∧ s.proceed = .stopped e) ∨
    ((∀ k, ¬AcknowledgeDue s k) ∧ s.asleep = true ∧ s.proceed = .settled s) ∨
    ((∀ k, ¬AcknowledgeDue s k) ∧ s.asleep = false ∧ ∃ i, s.fetch = .ok i ∧ s.proceed = .execute i s) ∨
    ((∀ k, ¬AcknowledgeDue s k) ∧ s.asleep = false ∧ ∃ e, s.fetch = .error e ∧ s.proceed = .stopped e) := by
  unfold State.proceed
  split <;> rename_i h
  · rename_i k
    have hk := acknowledged_iff.1 h
    cases ht : s.acknowledge k with
    | ok t => exact .inl ⟨k, t, hk, ht, rfl⟩
    | error e => exact .inr (.inl ⟨k, e, hk, ht, rfl⟩)
  · have hn := acknowledged_none_iff.1 h
    cases hs : s.asleep with
    | true => exact .inr (.inr (.inl ⟨hn, rfl, by simp⟩))
    | false =>
      cases hf : s.fetch with
      | ok i => exact .inr (.inr (.inr (.inl ⟨hn, rfl, i, rfl, by simp⟩)))
      | error e => exact .inr (.inr (.inr (.inr ⟨hn, rfl, e, rfl, by simp⟩)))

/-- What a step can do: a reset; or, in `u`, the state with the environment's requests latched, an acknowledge, nothing
because the core is asleep, or the execution of the instruction at PC. -/
theorem step_next_cases {s t : State} (h : step s = .next t) :
    (∃ rest, s.env = .reset :: rest ∧ t = { s with env := rest }.hardReset) ∨
    ∃ u, ((s.env = [] ∧ u = s) ∨ ∃ r rest, s.env = .request r :: rest ∧ u = { s with env := rest }.latch r) ∧
      ((∃ k, AcknowledgeDue u k ∧ u.acknowledge k = .ok t) ∨ (u.asleep = true ∧ t = u) ∨
        (u.asleep = false ∧ ∃ i, u.fetch = .ok i ∧ exec i u = .next t)) := by
  have key : ∀ u : State, (match u.proceed with
      | .settled t => (.next t : Host.Outcome State Fault Refusal)
      | .execute i t => exec i t
      | .stopped e => e.outcome) = .next t →
      ((∃ k, AcknowledgeDue u k ∧ u.acknowledge k = .ok t) ∨ (u.asleep = true ∧ t = u) ∨
        (u.asleep = false ∧ ∃ i, u.fetch = .ok i ∧ exec i u = .next t)) := by
    intro u hu
    rcases proceed_cases u with ⟨k, t', hk, ha, hp⟩ | ⟨k, e, hk, ha, hp⟩ | ⟨_, hs, hp⟩ | ⟨_, hs, i, hf, hp⟩ | ⟨_, hs, e, hf, hp⟩ <;>
      rw [hp] at hu
    · cases hu; exact .inl ⟨k, hk, ha⟩
    · exact absurd hu (stop_outcome_ne_next e t)
    · cases hu; exact .inr (.inl ⟨hs, rfl⟩)
    · exact .inr (.inr ⟨hs, i, hf, hu⟩)
    · exact absurd hu (stop_outcome_ne_next e t)
  unfold step State.boundary at h
  split at h <;> rename_i he
  · split at he <;> rename_i hv
    · exact .inr ⟨s, .inl ⟨hv, rfl⟩, key s (by rw [he]; exact h)⟩
    · exact .inr ⟨_, .inr ⟨_, _, hv, rfl⟩, key _ (by rw [he]; exact h)⟩
    · cases he; cases h; exact .inl ⟨_, hv, rfl⟩
  · split at he <;> rename_i hv
    · exact .inr ⟨s, .inl ⟨hv, rfl⟩, key s (by rw [he]; exact h)⟩
    · exact .inr ⟨_, .inr ⟨_, _, hv, rfl⟩, key _ (by rw [he]; exact h)⟩
    · cases he
  · exact absurd h (stop_outcome_ne_next _ t)

end Sys2Proof.Machine
end

