-- ==== Sys2Proof/Laws/Stops.lean ====
section
/-!
SUPPORT. When the shared operations answer no state, and with which stop: the other half of Laws/Ops.lean.
-/

namespace Sys2Proof.Machine

variable {s : State} {a : RamAddr}

/-! ## Memory that is not there -/

theorem ramRead_absent (h : ¬s.ramHas a) : s.ramRead a = .error (.fault (.ramAbsent a)) := if_neg h

theorem ramWrite_absent (v : Nibble) (h : ¬s.ramHas a) : s.ramWrite a v = .error (.fault (.ramAbsent a)) := if_neg h

theorem romRead_absent {p : RomAddr} (h : ¬s.romHas p) : s.romRead p = .error (.fault (.romAbsent p)) := if_neg h

theorem push_absent (v : Nibble) (h : ¬s.ramHas (s.sp + 1)) :
    s.push v = .error (.fault (.ramAbsent (s.sp + 1))) := by
  unfold State.push
  rw [ramWrite_absent _ (by exact h)]
  rfl

theorem pop_absent (h : ¬s.ramHas s.sp) : s.pop = .error (.fault (.ramAbsent s.sp)) := by
  unfold State.pop
  rw [ramRead_absent h]
  rfl

theorem takeTwo_absent (h : ¬s.ramHas s.sp) : s.takeTwo = .error (.fault (.ramAbsent s.sp)) := by
  unfold State.takeTwo
  rw [ramRead_absent h]
  rfl

theorem fetchVia_absent {r : PtrReg} {m : PtrMode} (hc : m.ea (s.ptr r) ≠ s.sp + 1) (h : ¬s.ramHas (m.ea (s.ptr r))) :
    s.fetchVia r m = .error (.fault (.ramAbsent (m.ea (s.ptr r)))) := by
  unfold State.fetchVia
  simp only [hc, if_false, ramRead_absent h, res_bind_error]

theorem storeVia_absent {r : PtrReg} {m : PtrMode} (hc : m.ea (s.ptr r) ≠ s.sp) (h : ¬s.ramHas (m.ea (s.ptr r))) :
    s.storeVia r m = .error (.fault (.ramAbsent (m.ea (s.ptr r)))) := by
  unfold State.storeVia
  simp only [hc, if_false, ramWrite_absent _ h, res_bind_error]

/-! ## Return Stack entries -/

/-- An entry that is not all there stops a read at one of its cells. -/
theorem rsRead_absent (h : s.rsAbsent a) :
    ∃ b ∈ [rsCell a s.chip.rsLayout.oH, rsCell a s.chip.rsLayout.oM, rsCell a s.chip.rsLayout.oL],
      ¬s.ramHas b ∧ s.rsRead a = .error (.fault (.ramAbsent b)) := by
  obtain ⟨hf, ha, hn⟩ := h
  unfold State.rsRead
  rw [if_neg hf, if_pos ha]
  by_cases h1 : s.ramHas (rsCell a s.chip.rsLayout.oH)
  · rw [ramRead_ok_iff.2 ⟨h1, rfl⟩, res_bind_ok]
    by_cases h2 : s.ramHas (rsCell a s.chip.rsLayout.oM)
    · rw [ramRead_ok_iff.2 ⟨h2, rfl⟩, res_bind_ok]
      have h3 : ¬s.ramHas (rsCell a s.chip.rsLayout.oL) := fun h3 => hn (.inr ⟨ha, h1, h2, h3⟩)
      exact ⟨_, by simp, h3, by rw [ramRead_absent h3]; rfl⟩
    · exact ⟨_, by simp, h2, by rw [ramRead_absent h2]; rfl⟩
  · exact ⟨_, by simp, h1, by rw [ramRead_absent h1]; rfl⟩

/-- An entry that is not all there stops a write at one of its cells. -/
theorem rsWrite_absent (w : RomAddr) (mask : RsMask) (h : s.rsAbsent a) :
    ∃ b ∈ [rsCell a s.chip.rsLayout.oH, rsCell a s.chip.rsLayout.oM, rsCell a s.chip.rsLayout.oL],
      ¬s.ramHas b ∧ s.rsWrite a w mask = .error (.fault (.ramAbsent b)) := by
  obtain ⟨hf, ha, hn⟩ := h
  unfold State.rsWrite
  rw [if_neg hf, if_pos ha]
  by_cases h1 : s.ramHas (rsCell a s.chip.rsLayout.oH)
  · simp only [ramWrite_ok_iff.2 ⟨h1, rfl⟩, res_bind_ok]
    by_cases h2 : s.ramHas (rsCell a s.chip.rsLayout.oM)
    · have h3 : ¬s.ramHas (rsCell a s.chip.rsLayout.oL) := fun h3 => hn (.inr ⟨ha, h1, h2, h3⟩)
      refine ⟨_, by simp, h3, ?_⟩
      rw [ramWrite_ok_iff.2 ⟨by exact h2, rfl⟩, res_bind_ok, ramWrite_absent _ (by exact h3), res_bind_error]
      rfl
    · refine ⟨_, by simp, h2, ?_⟩
      rw [ramWrite_absent _ (by exact h2), res_bind_error]
      rfl
  · exact ⟨_, by simp, h1, by simp only [ramWrite_absent _ h1, res_bind_error]⟩

theorem rpop_absent (h : s.rsAbsent s.rp) :
    ∃ b ∈ [rsCell s.rp s.chip.rsLayout.oH, rsCell s.rp s.chip.rsLayout.oM, rsCell s.rp s.chip.rsLayout.oL],
      ¬s.ramHas b ∧ s.rpop = .error (.fault (.ramAbsent b)) := by
  obtain ⟨b, hb, hn, e⟩ := rsRead_absent h
  exact ⟨b, hb, hn, by unfold State.rpop; rw [e]; rfl⟩

theorem rpush_absent (w : RomAddr) (mask : RsMask) (h : s.rsAbsent (s.rp + 4)) :
    ∃ b ∈ [rsCell (s.rp + 4) s.chip.rsLayout.oH, rsCell (s.rp + 4) s.chip.rsLayout.oM,
        rsCell (s.rp + 4) s.chip.rsLayout.oL],
      ¬s.ramHas b ∧ s.rpush w mask = .error (.fault (.ramAbsent b)) :=
  rsWrite_absent (s := { s with rp := s.rp + 4 }) w mask h

/-- Moving RP by one entry keeps its alignment, and FCh is aligned. -/
theorem unaligned_add_four : ∀ a : RamAddr, ¬rsAligned a → a ≠ autosleepEntry ∧ ¬rsAligned (a + 4) := by decide

theorem rsRead_unaligned (h : ¬rsAligned a) : s.rsRead a = .error (.refused (.rpUnaligned a)) := by
  unfold State.rsRead
  rw [if_neg (unaligned_add_four a h).1, if_neg h]

theorem rsWrite_unaligned (w : RomAddr) (mask : RsMask) (h : ¬rsAligned a) :
    s.rsWrite a w mask = .error (.refused (.rpUnaligned a)) := by
  unfold State.rsWrite
  rw [if_neg (unaligned_add_four a h).1, if_neg h]

theorem rpop_unaligned (h : ¬rsAligned s.rp) : s.rpop = .error (.refused (.rpUnaligned s.rp)) := by
  unfold State.rpop
  rw [rsRead_unaligned h]
  rfl

theorem rpush_unaligned (w : RomAddr) (mask : RsMask) (h : ¬rsAligned s.rp) :
    s.rpush w mask = .error (.refused (.rpUnaligned (s.rp + 4))) :=
  rsWrite_unaligned (s := { s with rp := s.rp + 4 }) w mask (unaligned_add_four _ h).2

/-! ## The acknowledge -/

/-- With no environment event and an interrupt due, a step is the acknowledge. -/
theorem step_of_due {k : Level} (he : s.env = []) (hk : AcknowledgeDue s k) : step s = finish (s.acknowledge k) := by
  unfold step State.boundary
  simp only [he, State.proceed, acknowledged_iff.2 hk]
  cases s.acknowledge k <;> rfl

/-- The acknowledge stops where its push does. -/
theorem acknowledge_error {k : Level} {e : Stop}
    (h : { s with asleep := false, iar := s.iar ||| levelBit k }.rpush s.pc .word = .error e) :
    s.acknowledge k = .error e := by
  unfold State.acknowledge
  rw [h]
  rfl

end Sys2Proof.Machine
end

