-- ==== Sys2Proof/Tests/Slice0.lean ====
section
/-!
SUPPORT. The model's own tests: ill-formed terms, words written out from the opcode map, one-step vectors taken from
95_test_vectors.md (section and row in each comment), and for each statement that has hypotheses states that meet them.
-/

namespace Sys2Proof.Tests

open Sys2Proof.Machine

/-! ## Well-formedness (30_encoding.md R79) -/

theorem test_wellFormed_refuses_21 : Instr.wellFormed .unassigned21 = false := by decide
theorem test_wellFormed_refuses_24 : Instr.wellFormed .unassigned24 = false := by decide
theorem test_wellFormed_accepts_call : Instr.wellFormed (.call 0xABC#12) = true := by decide

/-! ## Decoding: every row of the opcode map (30_encoding.md R71 to R77), bit by bit -/

/-- Opcode map, 00h to 0Fh. -/
theorem test_decode_alu_codes :
    [0b00000000#8, 0b00000001#8, 0b00000010#8, 0b00000011#8, 0b00000100#8, 0b00000101#8, 0b00000110#8,
     0b00000111#8, 0b00001000#8, 0b00001001#8, 0b00001010#8, 0b00001011#8, 0b00001100#8, 0b00001101#8,
     0b00001110#8, 0b00001111#8].map (fun b => decode [b]) =
      [.add, .addc, .sub, .subb, .xor, .and, .cmpEq, .cmpNe, .cmpLt, .cmpLe, .cmpGt, .cmpGe, .or, .ccrFetch,
       .ccrStore, .sleep].map
        (fun i => .ok (i, [])) := by decide
/-- Opcode map, 10h to 1Fh. -/
theorem test_decode_shift_flag_system_codes :
    [0b00010000#8, 0b00010001#8, 0b00010010#8, 0b00010011#8, 0b00010100#8, 0b00010101#8, 0b00010110#8,
     0b00010111#8, 0b00011000#8, 0b00011001#8, 0b00011010#8, 0b00011011#8, 0b00011100#8, 0b00011101#8,
     0b00011110#8, 0b00011111#8].map (fun b => decode [b]) =
      [.shl, .rol, .shr, .ror, .inc, .dec, .daa, .not, .togBf, .setBcf, .di, .inPort, .decr, .rti, .swi,
       .outPort].map
        (fun i => .ok (i, [])) := by decide
/-- Opcode map, 20h to 2Fh. -/
theorem test_decode_stack_codes :
    [0b00100000#8, 0b00100001#8, 0b00100010#8, 0b00100011#8, 0b00100100#8, 0b00100101#8, 0b00100110#8,
     0b00100111#8, 0b00101000#8, 0b00101001#8, 0b00101010#8, 0b00101011#8, 0b00101100#8, 0b00101101#8,
     0b00101110#8, 0b00101111#8].map (fun b => decode [b]) =
      [.table, .unassigned21, .toR, .rCopy, .unassigned24, .exit, .swap, .overCopy, .twoToR, .threeToR,
       .twoRCopy, .threeRCopy, .rot, .dup, .drop, .dropr].map
        (fun i => .ok (i, [])) := by decide
/-- Opcode map, 30h to 3Fh, one byte. -/
theorem test_decode_memory_codes :
    [0b00110000#8, 0b00110001#8, 0b00110010#8, 0b00110100#8, 0b00110101#8, 0b00110110#8, 0b00111000#8,
     0b00111001#8, 0b00111010#8, 0b00111100#8, 0b00111101#8, 0b00111110#8].map (fun b => decode [b]) =
      [.fetchX, .fetchIncX, .fetchXDec, .fetchY, .fetchIncY, .fetchYDec, .storeX, .storeIncX, .storeXDec,
       .storeY, .storeIncY, .storeYDec].map
        (fun i => .ok (i, [])) := by decide
/-- Opcode map, 70h to 7Fh, one byte. -/
theorem test_decode_register_codes :
    [0b01110000#8, 0b01110001#8, 0b01110010#8, 0b01110011#8, 0b01110100#8, 0b01110101#8, 0b01110110#8,
     0b01110111#8, 0b01111100#8, 0b01111101#8, 0b01111110#8, 0b01111111#8].map (fun b => decode [b]) =
      [.getSp, .getRp, .getX, .getY, .setSp, .setRp, .setX, .setY, .nop, .nop7D, .nop7E, .nop7F].map
        (fun i => .ok (i, [])) := by decide
/-- Opcode map, the codes with a RAM address as second byte. -/
theorem test_decode_address_codes :
    [0b00110011#8, 0b00110111#8, 0b00111011#8, 0b00111111#8, 0b01111000#8, 0b01111001#8,
     0b01111010#8, 0b01111011#8].map
        (fun b => decode [b, 0b11111100#8]) =
      [.fetchDirX 0xFC#8, .fetchDirY 0xFC#8, .storeDirX 0xFC#8, .storeDirY 0xFC#8, .loadSp 0xFC#8,
       .loadRp 0xFC#8, .loadX 0xFC#8, .loadY 0xFC#8].map
        (fun i => .ok (i, [])) := by decide
/-- Long branch and call: the second byte is the low one (R72); 95_test_vectors.md 2.5, bytes `52 34` and `4A BC`. -/
theorem test_decode_long_targets :
    decode [0b01010010#8, 0b00110100#8] = .ok (.bra 0x234#12, []) ∧
      decode [0b01001010#8, 0b10111100#8] = .ok (.call 0xABC#12, []) := by decide
/-- Short branch, short call and literal (R73 to R75); 95_test_vectors.md 2.5, bytes `85`, `D8`; 2.7, byte `6F`. -/
theorem test_decode_short_forms :
    decode [0b10000101#8] = .ok (.sbra 0b000101#6, []) ∧ decode [0b11011000#8] = .ok (.scall 0b011000#6, []) ∧
      decode [0b01101111#8] = .ok (.lit 0xF#4, []) := by decide
theorem test_decode_second_byte_missing : decode [0x52#8] = .error (.secondByteMissing 0x52#8) := by decide
theorem test_decode_no_bytes : decode [] = .error .noBytes := by decide
/-- The table's numbering: the first byte is the low one. -/
theorem test_decode_table_word : decodeTableWord 16 0x3452 = some (.bra 0x234#12) := by decide

/-! ## Helpers for the vectors -/

/-- The cells of a stack list without its top, from `a` up. -/
def cells (a : Nat) : List Nibble → List (Nat × Nibble)
  | [] => []
  | [_] => []
  | v :: e => cellWrite a v (cells (a + 1) e)

/-- `E ( e )` of 95_test_vectors.md: SP = 40h + n, the elements below the top from RAM[42h] up; PC = 100h, RP = 04h. -/
def start (e : List Nibble) (c b i : Bool) : State :=
  { State.reset with
    pc := 0x100#12, sp := 0x40#8 + BitVec.ofNat 8 e.length, rp := 0x04#8, tos := e.getLastD 0#4, ram := cells 0x42 e
    ccr := { c := c, ccr2 := false, b := b, i := i } }

/-- `RS [a]=w` of 95_test_vectors.md, in the default layout. -/
def entry (a : RamAddr) (w : RomAddr) (s : State) : State :=
  ((s.withRam a (entryH w)).withRam (a + 1) (entryM w)).withRam (a + 2) (entryL w)

/-- The stack list of a state. -/
def elements (s : State) : List Nibble :=
  if s.sp = 0x40#8 then []
  else (List.range (s.sp.toNat - 0x41)).map (fun k => s.ramAt (BitVec.ofNat 8 (0x42 + k))) ++ [s.tos]

/-- `C`, `B` and `I`. -/
def flags (s : State) : Bool × Bool × Bool := (s.ccr.c, s.ccr.b, s.ccr.i)

/-- What is seen of the next state of an instruction. -/
def seen {α : Type} (i : Instr) (s : State) (f : State → α) : Option α :=
  match exec i s with
  | .next t => some (f t)
  | .fault _ => none
  | .refused _ => none

/-! ## Arithmetic (section 2.1) -/

/-- Section 2.1: E ( C 5 ), C B I = 1 0 0. -/
theorem test_add_carry :
    seen .add (start [0xC#4, 0x5#4] true false false) (fun t => (elements t, flags t, t.pc)) =
      some ([0x1#4], (true, true, false), 0x101#12) := by decide
/-- Section 2.1: E ( 7 8 ), C B I = 1 0 0. -/
theorem test_add_ignores_old_carry :
    seen .add (start [0x7#4, 0x8#4] true false false) (fun t => (elements t, flags t, t.pc)) =
      some ([0xF#4], (false, false, false), 0x101#12) := by decide
/-- Section 2.1: E ( 7 8 ), C B I = 1 0 0. -/
theorem test_addc_carry_in :
    seen .addc (start [0x7#4, 0x8#4] true false false) (fun t => (elements t, flags t, t.pc)) =
      some ([0x0#4], (true, true, false), 0x101#12) := by decide
/-- Section 2.1: E ( 2 3 ), C B I = 0 0 0. -/
theorem test_addc_no_carry_in :
    seen .addc (start [0x2#4, 0x3#4] false false false) (fun t => (elements t, flags t, t.pc)) =
      some ([0x5#4], (false, false, false), 0x101#12) := by decide
/-- Section 2.1: E ( 9 5 ), C B I = 1 0 0. -/
theorem test_sub_no_borrow :
    seen .sub (start [0x9#4, 0x5#4] true false false) (fun t => (elements t, flags t, t.pc)) =
      some ([0x4#4], (false, false, false), 0x101#12) := by decide
/-- Section 2.1: E ( 3 F ), C B I = 1 0 0. -/
theorem test_sub_borrow :
    seen .sub (start [0x3#4, 0xF#4] true false false) (fun t => (elements t, flags t, t.pc)) =
      some ([0x4#4], (true, true, false), 0x101#12) := by decide
/-- Section 2.1: E ( 0 3 ), C B I = 1 0 0. -/
theorem test_subb_borrow_in :
    seen .subb (start [0x0#4, 0x3#4] true false false) (fun t => (elements t, flags t, t.pc)) =
      some ([0xC#4], (true, true, false), 0x101#12) := by decide
/-- Section 2.1: E ( 9 5 ), C B I = 0 0 0. -/
theorem test_subb_no_borrow_in :
    seen .subb (start [0x9#4, 0x5#4] false false false) (fun t => (elements t, flags t, t.pc)) =
      some ([0x4#4], (false, false, false), 0x101#12) := by decide
/-- Section 2.1: E ( F ), C B I = 0 0 0. -/
theorem test_inc_wraps :
    seen .inc (start [0xF#4] false false false) (fun t => (elements t, flags t, t.pc)) =
      some ([0x0#4], (false, true, false), 0x101#12) := by decide
/-- Section 2.1: E ( A ), C B I = 0 0 0. -/
theorem test_inc_nonzero :
    seen .inc (start [0xA#4] false false false) (fun t => (elements t, flags t, t.pc)) =
      some ([0xB#4], (false, false, false), 0x101#12) := by decide
/-- Section 2.1: E ( 0 ), C B I = 0 0 0. -/
theorem test_dec_wraps :
    seen .dec (start [0x0#4] false false false) (fun t => (elements t, flags t, t.pc)) =
      some ([0xF#4], (false, false, false), 0x101#12) := by decide
/-- Section 2.1: E ( 1 ), C B I = 1 0 0. -/
theorem test_dec_to_zero :
    seen .dec (start [0x1#4] true false false) (fun t => (elements t, flags t, t.pc)) =
      some ([0x0#4], (true, true, false), 0x101#12) := by decide
/-- Section 2.1: E ( C ), C B I = 0 0 0. -/
theorem test_daa_adjusts :
    seen .daa (start [0xC#4] false false false) (fun t => (elements t, flags t, t.pc)) =
      some ([0x2#4], (true, true, false), 0x101#12) := by decide
/-- Section 2.1: E ( 2 ), C B I = 1 0 0. -/
theorem test_daa_adjusts_for_carry :
    seen .daa (start [0x2#4] true false false) (fun t => (elements t, flags t, t.pc)) =
      some ([0x8#4], (true, true, false), 0x101#12) := by decide
/-- Section 2.1: RS [04]=uu1, C B = 1 1; the entry then holds free values beside the index. -/
theorem test_decr_to_zero :
    seen .decr (entry 0x04#8 0x001#12 (start [] true true false)) (fun t => (t.rp, t.pc, flags t)) =
      some (0x04#8, 0x101#12, (true, false, false)) := by decide
/-- Section 2.1: RP = FCh reads 0, computes Fh and drops the write. -/
theorem test_decr_at_autosleep :
    seen .decr { start [] false false false with rp := 0xFC#8 } (fun t => (t.ram, t.rp, flags t)) =
      some ([], 0xFC#8, (false, true, false)) := by decide

/-! ## Compare (section 2.2): `C` is not looked at -/

/-- Section 2.2: E ( 5 5 ). -/
theorem test_cmp_eq_equal :
    seen .cmpEq (start [0x5#4, 0x5#4] false false false) (fun t => (elements t, t.ccr.b, t.ccr.i, t.pc)) =
      some ([0x5#4], true, false, 0x101#12) := by decide
/-- Section 2.2: E ( 9 5 ). -/
theorem test_cmp_eq_above :
    seen .cmpEq (start [0x9#4, 0x5#4] false false false) (fun t => (elements t, t.ccr.b, t.ccr.i, t.pc)) =
      some ([0x9#4], false, false, 0x101#12) := by decide
/-- Section 2.2: E ( 5 5 ). -/
theorem test_cmp_ne_equal :
    seen .cmpNe (start [0x5#4, 0x5#4] false false false) (fun t => (elements t, t.ccr.b, t.ccr.i, t.pc)) =
      some ([0x5#4], false, false, 0x101#12) := by decide
/-- Section 2.2: E ( 5 9 ). -/
theorem test_cmp_ne_below :
    seen .cmpNe (start [0x5#4, 0x9#4] false false false) (fun t => (elements t, t.ccr.b, t.ccr.i, t.pc)) =
      some ([0x5#4], true, false, 0x101#12) := by decide
/-- Section 2.2: E ( 0 F ). -/
theorem test_cmp_lt_unsigned :
    seen .cmpLt (start [0x0#4, 0xF#4] false false false) (fun t => (elements t, t.ccr.b, t.ccr.i, t.pc)) =
      some ([0x0#4], true, false, 0x101#12) := by decide
/-- Section 2.2: E ( 5 5 ). -/
theorem test_cmp_lt_equal :
    seen .cmpLt (start [0x5#4, 0x5#4] false false false) (fun t => (elements t, t.ccr.b, t.ccr.i, t.pc)) =
      some ([0x5#4], false, false, 0x101#12) := by decide
/-- Section 2.2: E ( 5 5 ). -/
theorem test_cmp_le_equal :
    seen .cmpLe (start [0x5#4, 0x5#4] false false false) (fun t => (elements t, t.ccr.b, t.ccr.i, t.pc)) =
      some ([0x5#4], true, false, 0x101#12) := by decide
/-- Section 2.2: E ( 9 5 ). -/
theorem test_cmp_le_above :
    seen .cmpLe (start [0x9#4, 0x5#4] false false false) (fun t => (elements t, t.ccr.b, t.ccr.i, t.pc)) =
      some ([0x9#4], false, false, 0x101#12) := by decide
/-- Section 2.2: E ( 9 5 ). -/
theorem test_cmp_gt_above :
    seen .cmpGt (start [0x9#4, 0x5#4] false false false) (fun t => (elements t, t.ccr.b, t.ccr.i, t.pc)) =
      some ([0x9#4], true, false, 0x101#12) := by decide
/-- Section 2.2: E ( 0 F ). -/
theorem test_cmp_gt_unsigned :
    seen .cmpGt (start [0x0#4, 0xF#4] false false false) (fun t => (elements t, t.ccr.b, t.ccr.i, t.pc)) =
      some ([0x0#4], false, false, 0x101#12) := by decide
/-- Section 2.2: E ( 5 5 ). -/
theorem test_cmp_ge_equal :
    seen .cmpGe (start [0x5#4, 0x5#4] false false false) (fun t => (elements t, t.ccr.b, t.ccr.i, t.pc)) =
      some ([0x5#4], true, false, 0x101#12) := by decide
/-- Section 2.2: E ( 5 9 ). -/
theorem test_cmp_ge_below :
    seen .cmpGe (start [0x5#4, 0x9#4] false false false) (fun t => (elements t, t.ccr.b, t.ccr.i, t.pc)) =
      some ([0x5#4], false, false, 0x101#12) := by decide

/-! ## Logic and shifts (section 2.3) -/

/-- Section 2.3: E ( 7 3 ), C B I = 1 0 0. -/
theorem test_xor_keeps_carry :
    seen .xor (start [0x7#4, 0x3#4] true false false) (fun t => (elements t, flags t, t.pc)) =
      some ([0x4#4], (true, false, false), 0x101#12) := by decide
/-- Section 2.3: E ( 5 5 ), C B I = 1 0 0. -/
theorem test_xor_zero :
    seen .xor (start [0x5#4, 0x5#4] true false false) (fun t => (elements t, flags t, t.pc)) =
      some ([0x0#4], (true, true, false), 0x101#12) := by decide
/-- Section 2.3: E ( 5 3 ), C B I = 1 0 0. -/
theorem test_and_keeps_carry :
    seen .and (start [0x5#4, 0x3#4] true false false) (fun t => (elements t, flags t, t.pc)) =
      some ([0x1#4], (true, false, false), 0x101#12) := by decide
/-- Section 2.3: E ( A 5 ), C B I = 1 0 0. -/
theorem test_and_zero :
    seen .and (start [0xA#4, 0x5#4] true false false) (fun t => (elements t, flags t, t.pc)) =
      some ([0x0#4], (true, true, false), 0x101#12) := by decide
/-- Section 2.3: E ( 8 1 ), C B I = 0 0 0. -/
theorem test_or_nonzero :
    seen .or (start [0x8#4, 0x1#4] false false false) (fun t => (elements t, flags t, t.pc)) =
      some ([0x9#4], (false, false, false), 0x101#12) := by decide
/-- Section 2.3: E ( 0 0 ), C B I = 0 0 0. -/
theorem test_or_zero :
    seen .or (start [0x0#4, 0x0#4] false false false) (fun t => (elements t, flags t, t.pc)) =
      some ([0x0#4], (false, true, false), 0x101#12) := by decide
/-- Section 2.3: E ( 6 ), C B I = 1 0 0. -/
theorem test_not_keeps_carry :
    seen .not (start [0x6#4] true false false) (fun t => (elements t, flags t, t.pc)) =
      some ([0x9#4], (true, false, false), 0x101#12) := by decide
/-- Section 2.3: E ( F ), C B I = 1 0 0. -/
theorem test_not_zero :
    seen .not (start [0xF#4] true false false) (fun t => (elements t, flags t, t.pc)) =
      some ([0x0#4], (true, true, false), 0x101#12) := by decide
/-- Section 2.3: E ( 9 ), C B I = 0 0 0. -/
theorem test_shl_bit_out :
    seen .shl (start [0x9#4] false false false) (fun t => (elements t, flags t, t.pc)) =
      some ([0x2#4], (true, true, false), 0x101#12) := by decide
/-- Section 2.3: E ( 4 ), C B I = 1 0 0. -/
theorem test_shl_no_carry_in :
    seen .shl (start [0x4#4] true false false) (fun t => (elements t, flags t, t.pc)) =
      some ([0x8#4], (false, false, false), 0x101#12) := by decide
/-- Section 2.3: E ( 9 ), C B I = 0 0 0. -/
theorem test_shr_bit_out :
    seen .shr (start [0x9#4] false false false) (fun t => (elements t, flags t, t.pc)) =
      some ([0x4#4], (true, true, false), 0x101#12) := by decide
/-- Section 2.3: E ( 2 ), C B I = 1 0 0. -/
theorem test_shr_no_carry_in :
    seen .shr (start [0x2#4] true false false) (fun t => (elements t, flags t, t.pc)) =
      some ([0x1#4], (false, false, false), 0x101#12) := by decide
/-- Section 2.3: E ( 4 ), C B I = 1 0 0. -/
theorem test_rol_carry_in :
    seen .rol (start [0x4#4] true false false) (fun t => (elements t, flags t, t.pc)) =
      some ([0x9#4], (false, false, false), 0x101#12) := by decide
/-- Section 2.3: E ( 9 ), C B I = 0 0 0. -/
theorem test_rol_bit_out :
    seen .rol (start [0x9#4] false false false) (fun t => (elements t, flags t, t.pc)) =
      some ([0x2#4], (true, true, false), 0x101#12) := by decide
/-- Section 2.3: E ( 2 ), C B I = 1 0 0. -/
theorem test_ror_carry_in :
    seen .ror (start [0x2#4] true false false) (fun t => (elements t, flags t, t.pc)) =
      some ([0x9#4], (false, false, false), 0x101#12) := by decide
/-- Section 2.3: E ( 9 ), C B I = 0 0 0. -/
theorem test_ror_bit_out :
    seen .ror (start [0x9#4] false false false) (fun t => (elements t, flags t, t.pc)) =
      some ([0x4#4], (true, true, false), 0x101#12) := by decide

/-! ## Flags (section 2.4) -/

/-- Section 2.4: E (  ), C B I = 1 1 0. -/
theorem test_tog_bf_clears :
    seen .togBf (start [] true true false) (fun t => (elements t, flags t, t.pc)) =
      some ([], (true, false, false), 0x101#12) := by decide
/-- Section 2.4: E (  ), C B I = 0 0 0. -/
theorem test_tog_bf_sets :
    seen .togBf (start [] false false false) (fun t => (elements t, flags t, t.pc)) =
      some ([], (false, true, false), 0x101#12) := by decide
/-- Section 2.4: E (  ), C B I = 0 0 0. -/
theorem test_set_bcf_sets :
    seen .setBcf (start [] false false false) (fun t => (elements t, flags t, t.pc)) =
      some ([], (true, true, false), 0x101#12) := by decide
/-- Section 2.4: E (  ), C B I = 1 1 1. -/
theorem test_di_clears :
    seen .di (start [] true true true) (fun t => (elements t, flags t, t.pc)) =
      some ([], (true, true, false), 0x101#12) := by decide
/-- Section 2.4: E ( 7 ), C B I = 0 0 1. -/
theorem test_ccr_fetch_i_is_bit_0 :
    seen .ccrFetch (start [0x7#4] false false true) (fun t => (elements t, flags t, t.pc)) =
      some ([0x7#4, 0x1#4], (false, false, true), 0x101#12) := by decide
/-- Section 2.4: E ( 7 ), C B I = 1 1 0. -/
theorem test_ccr_fetch_c_is_bit_3 :
    seen .ccrFetch (start [0x7#4] true true false) (fun t => (elements t, flags t, t.pc)) =
      some ([0x7#4, 0xA#4], (true, true, false), 0x101#12) := by decide
/-- Section 2.4: E ( 3 5 ), C B I = 1 0 0. -/
theorem test_ccr_store_loads_i :
    seen .ccrStore (start [0x3#4, 0x5#4] true false false) (fun t => (elements t, flags t, t.pc)) =
      some ([0x3#4], (false, false, true), 0x101#12) := by decide
/-- Section 2.4: E ( 3 F ); CCR2 is bit 2 (10_state.md R21). -/
theorem test_ccr_store_loads_ccr2 :
    seen .ccrStore (start [0x3#4, 0xF#4] true false false) (fun t => (t.ccr.ccr2, flags t)) =
      some (true, (true, true, true)) := by decide

/-! ## Branches, calls and system instructions (section 2.5) -/

/-- Section 2.5: BRA $234, B = 1. -/
theorem test_bra_taken :
    seen (.bra 0x234#12) (start [] false true false) (fun t => (t.pc, flags t)) =
      some (0x234#12, (false, true, false)) := by decide
/-- Section 2.5: BRA $234, B = 0. -/
theorem test_bra_not_taken :
    seen (.bra 0x234#12) (start [] true false false) (fun t => (t.pc, flags t)) =
      some (0x102#12, (true, false, false)) := by decide
/-- Section 2.5: SBRA $105 at 120h. -/
theorem test_sbra_taken :
    seen (.sbra 0x05#6) { start [] false true false with pc := 0x120#12 } (fun t => t.pc) =
      some 0x105#12 := by decide
/-- Section 2.5: SBRA at 13Fh, B = 0. -/
theorem test_sbra_not_taken_at_page_end :
    seen (.sbra 0x05#6) { start [] false false false with pc := 0x13F#12 } (fun t => t.pc) =
      some 0x140#12 := by decide
/-- Section 2.5: SBRA at 13Fh, B = 1, "refused (U9)". -/
theorem test_sbra_taken_at_page_end :
    exec (.sbra 0x05#6) { start [] false true false with pc := 0x13F#12 } = .refused (.sbraAtPageEnd 0x13F#12) := rfl
/-- Section 2.5: CALL $ABC at 100h, RP = 04h. -/
theorem test_call_pushes_next_address :
    seen (.call 0xABC#12) (start [] false false false) (fun t => (t.pc, t.rp, t.rsAt 0x08#8)) =
      some (0xABC#12, 0x08#8, 0x102#12) := by decide
/-- Section 2.5: CALL $ABC, RP = F8h, nothing is stored. -/
theorem test_call_onto_autosleep_entry :
    seen (.call 0xABC#12) { start [] false false false with rp := 0xF8#8 } (fun t => (t.pc, t.rp, t.ram)) =
      some (0xABC#12, 0xFC#8, []) := by decide
/-- Section 2.5: SCALL $008 at 234h, RP = 00h. -/
theorem test_scall_pushes_next_address :
    seen (.scall 0x01#6) { start [] false false false with pc := 0x234#12, rp := 0x00#8 }
      (fun t => (t.pc, t.rp, t.rsAt 0x04#8)) =
      some (0x008#12, 0x04#8, 0x235#12) := by decide
/-- Section 2.5: SCALL $0C0 as a program instruction. -/
theorem test_scall_to_vector :
    seen (.scall 0x18#6) { start [] false false false with pc := 0x300#12, rp := 0x00#8 }
      (fun t => (t.pc, t.rsAt 0x04#8, t.ipr, t.iar)) =
      some (0x0C0#12, 0x301#12, 0x00#8, 0x00#8) := by decide
/-- Section 2.5: EXIT, RS [00]=017 [04]=102. -/
theorem test_exit_returns :
    seen .exit (entry 0x04#8 0x102#12 (entry 0x00#8 0x017#12 (start [] true true false)))
      (fun t => (t.pc, t.rp, flags t)) =
      some (0x102#12, 0x00#8, (true, true, false)) := by decide
/-- Section 2.5: EXIT, RP = FCh. -/
theorem test_exit_at_autosleep :
    seen .exit { start [] false false false with rp := 0xFC#8 } (fun t => (t.pc, t.rp)) =
      some (0x000#12, 0xF8#8) := by decide
/-- Section 2.5: RTI, IPR = 29h, IAR = 09h, RS [04]=047. -/
theorem test_rti_clears_highest_level :
    seen .rti { entry 0x04#8 0x047#12 (start [] false false false) with ipr := 0x29#8, iar := 0x09#8 }
      (fun t => (t.pc, t.rp, t.ipr, t.iar, t.ccr.i)) =
      some (0x047#12, 0x00#8, 0x21#8, 0x01#8, true) := by decide
/-- Section 2.5: RTI, IPR = 04h, IAR = 00h. -/
theorem test_rti_with_no_active_level :
    seen .rti { entry 0x04#8 0x047#12 (start [] false false false) with ipr := 0x04#8 }
      (fun t => (t.pc, t.ipr, t.iar, t.ccr.i)) =
      some (0x047#12, 0x04#8, 0x00#8, true) := by decide
/-- Section 2.5: E ( 2 0 ), IPR = 01h. -/
theorem test_swi_high_mask :
    seen .swi { start [0x2#4, 0x0#4] false false false with ipr := 0x01#8 } (fun t => (elements t, t.ipr, flags t)) =
      some ([], 0x21#8, (false, false, false)) := by decide
/-- Section 2.5: E ( 0 3 ), "refused (SWI operand)". -/
theorem test_swi_other_operand :
    exec .swi (start [0x0#4, 0x3#4] false false false) = .refused (.swiOperand 0x0#4 0x3#4) := rfl
/-- Section 2.5: SLEEP with nothing pending or active. -/
theorem test_sleep_stops :
    seen .sleep (start [] false false false) (fun t => (t.pc, t.asleep, t.ccr.i)) =
      some (0x101#12, true, true) := by decide
/-- Section 2.5: SLEEP, IPR = 02h. -/
theorem test_sleep_with_request_pending :
    seen .sleep { start [] false false false with ipr := 0x02#8 } (fun t => (t.pc, t.asleep, t.ccr.i, t.ipr)) =
      some (0x101#12, false, true, 0x02#8) := by decide
/-- Section 2.5: NOP at FFFh. -/
theorem test_nop_wraps :
    seen .nop { start [0x5#4] true true true with pc := 0xFFF#12 } (fun t => (t.pc, elements t, flags t)) =
      some (0x000#12, [0x5#4], (true, true, true)) := by decide
/-- 44_branch_system.md R171: as NOP. -/
theorem test_nop_7D :
    seen .nop7D (start [0x5#4] true true true) (fun t => (t.pc, elements t, flags t)) =
      some (0x101#12, [0x5#4], (true, true, true)) := by decide
/-- 44_branch_system.md R171: as NOP. -/
theorem test_nop_7E :
    seen .nop7E (start [0x5#4] true true true) (fun t => (t.pc, elements t, flags t)) =
      some (0x101#12, [0x5#4], (true, true, true)) := by decide
/-- 44_branch_system.md R171: as NOP. -/
theorem test_nop_7F :
    seen .nop7F (start [0x5#4] true true true) (fun t => (t.pc, elements t, flags t)) =
      some (0x101#12, [0x5#4], (true, true, true)) := by decide
/-- Section 2.5: code 21h, "refused (opcode 21)". -/
theorem test_unassigned_21 : exec .unassigned21 (start [] false false false) = .refused (.unassignedCode 0x21#8) := rfl
/-- Section 2.5: code 24h, "refused (opcode 24)". -/
theorem test_unassigned_24 : exec .unassigned24 (start [] false false false) = .refused (.unassignedCode 0x24#8) := rfl

/-! ## Registers (section 2.6) -/

/-- Section 2.6: E ( 7 ), SP = 41h. -/
theorem test_sp_fetch :
    seen .getSp (start [0x7#4] false false false) (fun t => (elements t, t.sp)) =
      some ([0x7#4, 0x4#4, 0x2#4], 0x43#8) := by decide
/-- Section 2.6: SP = FFh. -/
theorem test_sp_fetch_wraps :
    seen .getSp { start [0x7#4] false false false with sp := 0xFF#8 }
      (fun t => (t.ramAt 0x00#8, t.ramAt 0x01#8, t.tos, t.sp)) =
      some (0x7#4, 0x0#4, 0x0#4, 0x01#8) := by decide
/-- Section 2.6: RP = FCh. -/
theorem test_rp_fetch :
    seen .getRp { start [0x7#4] false false false with rp := 0xFC#8 } (fun t => (elements t, t.rp)) =
      some ([0x7#4, 0xF#4, 0xC#4], 0xFC#8) := by decide
/-- Section 2.6: X = 3A. -/
theorem test_x_fetch :
    seen .getX { start [0x7#4] false false false with x := 0x3A#8 } (fun t => (elements t, t.x)) =
      some ([0x7#4, 0x3#4, 0xA#4], 0x3A#8) := by decide
/-- Section 2.6: Y = 05. -/
theorem test_y_fetch :
    seen .getY { start [0x7#4] false false false with y := 0x05#8 } (fun t => (elements t, t.y)) =
      some ([0x7#4, 0x0#4, 0x5#4], 0x05#8) := by decide
/-- Section 2.6: E ( 7 2 0 ), RAM[42h..43h] unchanged. -/
theorem test_sp_store :
    seen .setSp (start [0x7#4, 0x2#4, 0x0#4] false false false) (fun t => (t.sp, t.ramAt 0x42#8, t.ramAt 0x43#8)) =
      some (0x20#8, 0x7#4, 0x2#4) := by decide
/-- Section 2.6: E ( 7 F C ). -/
theorem test_rp_store :
    seen .setRp (start [0x7#4, 0xF#4, 0xC#4] false false false) (fun t => (elements t, t.rp)) =
      some ([0x7#4], 0xFC#8) := by decide
/-- Section 2.6: E ( 7 3 0 ). -/
theorem test_x_store :
    seen .setX (start [0x7#4, 0x3#4, 0x0#4] false false false) (fun t => (elements t, t.x)) =
      some ([0x7#4], 0x30#8) := by decide
/-- Section 2.6: E ( 7 A 5 ). -/
theorem test_y_store :
    seen .setY (start [0x7#4, 0xA#4, 0x5#4] false false false) (fun t => (elements t, t.y)) =
      some ([0x7#4], 0xA5#8) := by decide
/-- Section 2.6: >SP $20, TOS unchanged. -/
theorem test_sp_load :
    seen (.loadSp 0x20#8) (start [0x7#4] false false false) (fun t => (t.sp, t.tos, t.pc)) =
      some (0x20#8, 0x7#4, 0x102#12) := by decide
/-- Section 2.6: >RP $FC. -/
theorem test_rp_load :
    seen (.loadRp 0xFC#8) { start [] false false false with rp := 0x33#8 } (fun t => (t.rp, t.pc)) =
      some (0xFC#8, 0x102#12) := by decide
/-- Section 2.6: >X $30. -/
theorem test_x_load :
    seen (.loadX 0x30#8) (start [0x7#4] false false false) (fun t => (t.x, elements t, t.pc)) =
      some (0x30#8, [0x7#4], 0x102#12) := by decide
/-- Section 2.6: >Y $FF. -/
theorem test_y_load :
    seen (.loadY 0xFF#8) (start [] true true false) (fun t => (t.y, flags t, t.pc)) =
      some (0xFF#8, (true, true, false), 0x102#12) := by decide

/-! ## Stack (section 2.7) -/

/-- Section 2.7: E ( 4 2 ). -/
theorem test_swap :
    seen .swap (start [0x4#4, 0x2#4] true true false) (fun t => (elements t, flags t, t.pc)) =
      some ([0x2#4, 0x4#4], (true, true, false), 0x101#12) := by decide
/-- Section 2.7: E ( 4 2 ). -/
theorem test_over :
    seen .overCopy (start [0x4#4, 0x2#4] true true false) (fun t => (elements t, flags t, t.pc)) =
      some ([0x4#4, 0x2#4, 0x4#4], (true, true, false), 0x101#12) := by decide
/-- Section 2.7: E ( 4 2 ). -/
theorem test_dup :
    seen .dup (start [0x4#4, 0x2#4] true true false) (fun t => (elements t, flags t, t.pc)) =
      some ([0x4#4, 0x2#4, 0x2#4], (true, true, false), 0x101#12) := by decide
/-- Section 2.7: E ( 1 2 3 ). -/
theorem test_rot :
    seen .rot (start [0x1#4, 0x2#4, 0x3#4] true true false) (fun t => (elements t, flags t, t.pc)) =
      some ([0x2#4, 0x3#4, 0x1#4], (true, true, false), 0x101#12) := by decide
/-- Section 2.7: E ( 4 2 ). -/
theorem test_drop :
    seen .drop (start [0x4#4, 0x2#4] true true false) (fun t => (elements t, flags t, t.pc)) =
      some ([0x4#4], (true, true, false), 0x101#12) := by decide
/-- Section 2.7: E ( 4 ). -/
theorem test_lit_0 :
    seen (.lit 0x0#4) (start [0x4#4] true true false) (fun t => (elements t, flags t, t.pc)) =
      some ([0x4#4, 0x0#4], (true, true, false), 0x101#12) := by decide
/-- Section 2.7: E ( 4 ). -/
theorem test_lit_F :
    seen (.lit 0xF#4) (start [0x4#4] true true false) (fun t => (elements t, flags t, t.pc)) =
      some ([0x4#4, 0xF#4], (true, true, false), 0x101#12) := by decide
/-- Section 2.7: RP = 04h, RS [04]=123. -/
theorem test_dropr :
    seen .dropr (entry 0x04#8 0x123#12 (start [] false false false)) (fun t => (t.rp, t.rsAt 0x04#8)) =
      some (0x00#8, 0x123#12) := by decide
/-- Section 2.7: RP = 00h. -/
theorem test_dropr_wraps :
    seen .dropr { start [] false false false with rp := 0x00#8 } (fun t => t.rp) =
      some 0xFC#8 := by decide
/-- Section 2.7: E ( 7 5 ), RP = 00h; the entry holds free values beside the 5. -/
theorem test_to_r :
    seen .toR { start [0x7#4, 0x5#4] false false false with rp := 0x00#8 } (fun t => (t.tos, t.sp, t.rp)) =
      some (0x7#4, 0x41#8, 0x04#8) := by decide
/-- Section 2.7: E ( 7 C 5 ), RP = 00h; the entry holds a free value above C5. -/
theorem test_two_to_r :
    seen .twoToR { start [0x7#4, 0xC#4, 0x5#4] false false false with rp := 0x00#8 } (fun t => (t.tos, t.sp, t.rp)) =
      some (0x7#4, 0x41#8, 0x04#8) := by decide
/-- Section 2.7: E ( 7 1 2 3 ), RP = 00h. -/
theorem test_three_to_r :
    seen .threeToR { start [0x7#4, 0x1#4, 0x2#4, 0x3#4] false false false with rp := 0x00#8 }
      (fun t => (elements t, t.rp, t.rsAt 0x04#8)) =
      some ([0x7#4], 0x04#8, 0x123#12) := by decide
/-- Section 2.7: >R, RP = F8h. -/
theorem test_to_r_onto_autosleep_entry :
    seen .toR { start [0x5#4] false false false with rp := 0xF8#8 } (fun t => (elements t, t.rp, t.ram)) =
      some ([], 0xFC#8, []) := by decide
/-- Section 2.7: I, RS [04]=uC5. -/
theorem test_r_copy :
    seen .rCopy (entry 0x04#8 0x9C5#12 (start [0x7#4] false false false)) (fun t => (elements t, t.rp)) =
      some ([0x7#4, 0x5#4], 0x04#8) := by decide
/-- Section 2.7: 2R@, RS [04]=uC5. -/
theorem test_two_r_copy :
    seen .twoRCopy (entry 0x04#8 0x9C5#12 (start [0x7#4] false false false)) (fun t => (elements t, t.rp)) =
      some ([0x7#4, 0xC#4, 0x5#4], 0x04#8) := by decide
/-- Section 2.7: 3R@, RS [04]=123. -/
theorem test_three_r_copy :
    seen .threeRCopy (entry 0x04#8 0x123#12 (start [0x7#4] false false false)) (fun t => (elements t, t.rp)) =
      some ([0x7#4, 0x1#4, 0x2#4, 0x3#4], 0x04#8) := by decide
/-- Section 2.7: 3R@, RP = FCh. -/
theorem test_three_r_copy_at_autosleep :
    seen .threeRCopy { start [0x7#4] false false false with rp := 0xFC#8 } (fun t => elements t) =
      some [0x7#4, 0x0#4, 0x0#4, 0x0#4] := by decide

/-! ## Memory, ROM data and ports (section 2.8) -/

/-- Section 2.8: E ( 7 ), X = 30, RAM[30h] = 9. -/
theorem test_x_fetch_indirect :
    seen .fetchX { (start [0x7#4] false false false).withRam 0x30#8 0x9#4 with x := 0x30#8 }
      (fun t => (elements t, t.x, t.pc)) =
      some ([0x7#4, 0x9#4], 0x30#8, 0x101#12) := by decide
/-- Section 2.8: E ( 7 ), X = FF, RAM[00h] = 3. -/
theorem test_x_fetch_pre_increment_wraps :
    seen .fetchIncX { (start [0x7#4] false false false).withRam 0x00#8 0x3#4 with x := 0xFF#8 }
      (fun t => (elements t, t.x, t.pc)) =
      some ([0x7#4, 0x3#4], 0x00#8, 0x101#12) := by decide
/-- Section 2.8: E ( 7 ), X = 00, RAM[00h] = 3. -/
theorem test_x_fetch_post_decrement_wraps :
    seen .fetchXDec { (start [0x7#4] false false false).withRam 0x00#8 0x3#4 with x := 0x00#8 }
      (fun t => (elements t, t.x, t.pc)) =
      some ([0x7#4, 0x3#4], 0xFF#8, 0x101#12) := by decide
/-- Section 2.8: E ( 7 ), X = 00, RAM[31h] = C. -/
theorem test_x_fetch_direct :
    seen (.fetchDirX 0x31#8) { (start [0x7#4] false false false).withRam 0x31#8 0xC#4 with x := 0x00#8 }
      (fun t => (elements t, t.x, t.pc)) =
      some ([0x7#4, 0xC#4], 0x31#8, 0x102#12) := by decide
/-- Section 2.8: E ( 7 ), Y = 30, RAM[30h] = 9. -/
theorem test_y_fetch_indirect :
    seen .fetchY { (start [0x7#4] false false false).withRam 0x30#8 0x9#4 with y := 0x30#8 }
      (fun t => (elements t, t.y, t.pc)) =
      some ([0x7#4, 0x9#4], 0x30#8, 0x101#12) := by decide
/-- Section 2.8: E ( 7 ), Y = 30, RAM[31h] = C. -/
theorem test_y_fetch_pre_increment :
    seen .fetchIncY { (start [0x7#4] false false false).withRam 0x31#8 0xC#4 with y := 0x30#8 }
      (fun t => (elements t, t.y, t.pc)) =
      some ([0x7#4, 0xC#4], 0x31#8, 0x101#12) := by decide
/-- Section 2.8: E ( 7 ), Y = 30, RAM[30h] = 9. -/
theorem test_y_fetch_post_decrement :
    seen .fetchYDec { (start [0x7#4] false false false).withRam 0x30#8 0x9#4 with y := 0x30#8 }
      (fun t => (elements t, t.y, t.pc)) =
      some ([0x7#4, 0x9#4], 0x2F#8, 0x101#12) := by decide
/-- Section 2.8: E ( 7 ), Y = 00, RAM[31h] = C. -/
theorem test_y_fetch_direct :
    seen (.fetchDirY 0x31#8) { (start [0x7#4] false false false).withRam 0x31#8 0xC#4 with y := 0x00#8 }
      (fun t => (elements t, t.y, t.pc)) =
      some ([0x7#4, 0xC#4], 0x31#8, 0x102#12) := by decide
/-- Section 2.8: E ( 7 5 ), X = 30, RAM[30h] = 9. -/
theorem test_x_store_indirect :
    seen .storeX { (start [0x7#4, 0x5#4] false false false).withRam 0x30#8 0x9#4 with x := 0x30#8 }
      (fun t => (elements t, t.ramAt 0x30#8, t.x, t.pc)) =
      some ([0x7#4], 0x5#4, 0x30#8, 0x101#12) := by decide
/-- Section 2.8: E ( 7 5 ), X = 30, RAM[31h] = 9. -/
theorem test_x_store_pre_increment :
    seen .storeIncX { (start [0x7#4, 0x5#4] false false false).withRam 0x31#8 0x9#4 with x := 0x30#8 }
      (fun t => (elements t, t.ramAt 0x31#8, t.x, t.pc)) =
      some ([0x7#4], 0x5#4, 0x31#8, 0x101#12) := by decide
/-- Section 2.8: E ( 7 5 ), X = 30, RAM[30h] = 9. -/
theorem test_x_store_post_decrement :
    seen .storeXDec { (start [0x7#4, 0x5#4] false false false).withRam 0x30#8 0x9#4 with x := 0x30#8 }
      (fun t => (elements t, t.ramAt 0x30#8, t.x, t.pc)) =
      some ([0x7#4], 0x5#4, 0x2F#8, 0x101#12) := by decide
/-- Section 2.8: E ( 7 5 ), X = 00, RAM[31h] = 9. -/
theorem test_x_store_direct :
    seen (.storeDirX 0x31#8) { (start [0x7#4, 0x5#4] false false false).withRam 0x31#8 0x9#4 with x := 0x00#8 }
      (fun t => (elements t, t.ramAt 0x31#8, t.x, t.pc)) =
      some ([0x7#4], 0x5#4, 0x31#8, 0x102#12) := by decide
/-- Section 2.8: E ( 7 5 ), Y = 30, RAM[30h] = 9. -/
theorem test_y_store_indirect :
    seen .storeY { (start [0x7#4, 0x5#4] false false false).withRam 0x30#8 0x9#4 with y := 0x30#8 }
      (fun t => (elements t, t.ramAt 0x30#8, t.y, t.pc)) =
      some ([0x7#4], 0x5#4, 0x30#8, 0x101#12) := by decide
/-- Section 2.8: E ( 7 5 ), Y = FF, RAM[00h] = 9. -/
theorem test_y_store_pre_increment_wraps :
    seen .storeIncY { (start [0x7#4, 0x5#4] false false false).withRam 0x00#8 0x9#4 with y := 0xFF#8 }
      (fun t => (elements t, t.ramAt 0x00#8, t.y, t.pc)) =
      some ([0x7#4], 0x5#4, 0x00#8, 0x101#12) := by decide
/-- Section 2.8: E ( 7 5 ), Y = 30, RAM[30h] = 9. -/
theorem test_y_store_post_decrement :
    seen .storeYDec { (start [0x7#4, 0x5#4] false false false).withRam 0x30#8 0x9#4 with y := 0x30#8 }
      (fun t => (elements t, t.ramAt 0x30#8, t.y, t.pc)) =
      some ([0x7#4], 0x5#4, 0x2F#8, 0x101#12) := by decide
/-- Section 2.8: E ( 7 5 ), Y = 00, RAM[31h] = 9. -/
theorem test_y_store_direct :
    seen (.storeDirY 0x31#8) { (start [0x7#4, 0x5#4] false false false).withRam 0x31#8 0x9#4 with y := 0x00#8 }
      (fun t => (elements t, t.ramAt 0x31#8, t.y, t.pc)) =
      some ([0x7#4], 0x5#4, 0x31#8, 0x102#12) := by decide
/-- Section 2.8: [X]@ with X = SP + 1, "refused (U10)". -/
theorem test_x_fetch_of_spill_cell :
    exec .fetchX { start [0x7#4] false false false with x := 0x42#8 } = .refused (.stackCellCollision 0x42#8) := rfl
/-- Section 2.8: [X]! with X = SP, "refused (U10)". -/
theorem test_x_store_to_refill_cell :
    exec .storeX { start [0x7#4, 0x5#4] false false false with x := 0x42#8 } = .refused (.stackCellCollision 0x42#8) := rfl
/-- Section 2.8: TABLE at 024h, RS [00]=00E [04]=100, ROM[100h] = 31h. -/
theorem test_table :
    seen .table ((entry 0x04#8 0x100#12 (entry 0x00#8 0x00E#12 (start [0x7#4] false false false))).withRom 0x100#12 0x31#8)
      (fun t => (elements t, t.pc, t.rp)) =
      some ([0x7#4, 0x3#4, 0x1#4], 0x00E#12, 0xFC#8) := by decide
/-- Section 2.8: TABLE, RP = 00h, RS [00]=101, ROM[101h] = 28h. -/
theorem test_table_returns_to_autosleep :
    seen .table ({ entry 0x00#8 0x101#12 (start [0x7#4] false false false) with rp := 0x00#8 }.withRom 0x101#12 0x28#8)
      (fun t => (elements t, t.pc, t.rp)) =
      some ([0x7#4, 0x2#4, 0x8#4], 0x000#12, 0xF8#8) := by decide
/-- Section 2.8: IN (port), E ( 7 0 ); the nibble read is not looked at. -/
theorem test_in_tests_port_address :
    seen .inPort (start [0x7#4, 0x0#4] true false false) (fun t => (t.sp, t.ramAt 0x42#8, flags t)) =
      some (0x42#8, 0x7#4, (true, true, false)) := by decide
/-- Section 2.8: E ( 7 8 4 ). -/
theorem test_out_port_is_top :
    seen .outPort (start [0x7#4, 0x8#4, 0x4#4] true true false) (fun t => (elements t, flags t, t.out)) =
      some ([0x7#4], (true, true, false), [(0x4#4, 0x8#4)]) := by decide
/-- Section 2.8: E ( F 1 ). -/
theorem test_out :
    seen .outPort (start [0xF#4, 0x1#4] false false false) (fun t => (elements t, t.out)) =
      some ([], [(0x1#4, 0xF#4)]) := by decide

/-! ## Interrupts, sleep and reset (sections 3.1 to 3.3) -/

/-- The state of a row of section 3.1. -/
def boundary (i : Bool) (ipr iar : BitVec 8) (asleep : Bool) (pc : RomAddr) (rp : RamAddr) : State :=
  { start [] false false i with ipr := ipr, iar := iar, asleep := asleep, pc := pc, rp := rp }

/-- What is seen of the next state of a step. -/
def stepSeen {α : Type} (s : State) (f : State → α) : Option α :=
  match step s with
  | .next t => some (f t)
  | .fault _ => none
  | .refused _ => none

/-- Section 3.1 row 1: INT3 is acknowledged. -/
theorem test_acknowledge_int3 :
    stepSeen (boundary true 0x08#8 0x00#8 false 0x234#12 0x00#8)
      (fun t => ((t.pc, t.rp, t.rsAt 0x04#8), t.ipr, t.iar, t.ccr.i, t.asleep)) =
      some ((0x100#12, 0x04#8, 0x234#12), 0x08#8, 0x08#8, true, false) := by decide
/-- Section 3.1 row 2: `I` = 0. -/
theorem test_no_acknowledge_disabled : (boundary false 0x08#8 0x00#8 false 0x234#12 0x00#8).acknowledged = none := by decide
/-- Section 3.1 row 3: INT0 does not preempt INT3. -/
theorem test_no_acknowledge_below_active : (boundary true 0x09#8 0x08#8 false 0x105#12 0x04#8).acknowledged = none := by
  decide
/-- Section 3.1 row 4: INT5 preempts INT3. -/
theorem test_acknowledge_preempts :
    stepSeen (boundary true 0x29#8 0x08#8 false 0x105#12 0x04#8) (fun t => (t.pc, t.rp, t.rsAt 0x08#8, t.iar)) =
      some (0x180#12, 0x08#8, 0x105#12, 0x28#8) := by decide
/-- Section 3.1 row 5: the active level does not retrigger. -/
theorem test_no_acknowledge_of_active : (boundary true 0x08#8 0x08#8 false 0x105#12 0x04#8).acknowledged = none := by decide
/-- Section 3.1 row 7: the highest of eight. -/
theorem test_acknowledge_highest : (boundary true 0xFF#8 0x00#8 false 0x234#12 0x00#8).acknowledged = some 7 := by decide
/-- Section 3.1 row 8 and section 3.2 row 4: a request wakes the core, the entry at FCh is not written. -/
theorem test_request_wakes :
    stepSeen { boundary true 0x00#8 0x00#8 true 0x002#12 0xF8#8 with env := [.request 0x01#8] }
      (fun t => ((t.pc, t.rp, t.ram.length), t.ipr, t.iar, t.asleep)) =
      some ((0x040#12, 0xFC#8, 0), 0x01#8, 0x01#8, false) := by decide
/-- Section 3.1 row 9: INT6 preempts INT0, RP wraps. -/
theorem test_acknowledge_rp_wraps :
    stepSeen (boundary true 0x41#8 0x01#8 false 0x045#12 0xFC#8) (fun t => (t.pc, t.rp, t.rsAt 0x00#8, t.iar)) =
      some (0x1C0#12, 0x00#8, 0x045#12, 0x41#8) := by decide
/-- Section 3.2 row 2: a second request is lost. -/
theorem test_second_request_is_lost : ((boundary false 0x08#8 0x00#8 false 0x234#12 0x00#8).latch 0x08#8).ipr = 0x08#8 := by
  decide
/-- Section 3.3: a reset of a sleeping core. -/
theorem test_reset_event :
    stepSeen { boundary true 0x08#8 0x04#8 true 0x234#12 0x00#8 with env := [.reset] }
      (fun t => (t.pc, t.ccr.i, t.ipr, t.iar, t.asleep)) = some (0x008#12, false, 0x00#8, 0x00#8, false) := by decide

/-! ## The statements' hypotheses can be met, each clause of them, at the ends of the ranges -/

/-- A chip with 64 RAM cells, 2 Kbytes of ROM and no bank. -/
def smallChip : Config.Chip := { Config.defaultChip with romSize := 0x800, romBanks := 0, ramSize := 0x40 }

theorem witness_AddAndAddcResults :
    (start [0xC#4, 0x5#4] true false false).ramHas 0x42#8 ∧ { State.reset with sp := 0xFF#8 }.ramHas 0xFF#8 := by decide
theorem witness_SubAndSubbResults : (start [0x3#4, 0xF#4] true false false).ramHas 0x42#8 := by decide
theorem witness_DecrResult :
    (entry 0x04#8 0x123#12 (start [] false false false)).rsHas 0x04#8 ∧ State.reset.rsHas State.reset.rp := by decide
theorem witness_CompareResults : (start [0x9#4, 0x5#4] false false false).ramHas 0x42#8 := by decide
theorem witness_XorAndOrResults : (start [0x9#4, 0x5#4] false false false).ramHas 0x42#8 := by decide
theorem witness_CcrFetchAndStoreResults :
    { State.reset with sp := 0xFF#8 }.ramHas (0xFF#8 + 1) ∧ (start [0x3#4, 0x5#4] true false false).ramHas 0x42#8 := by decide
theorem witness_BraAndSbraResults :
    ((start [] false false false).ccr.b = false) ∧ (0x13E#12).extractLsb' 0 6 ≠ 0x3F#6 ∧ (0x140#12).extractLsb' 0 6 ≠ 0x3F#6 := by
  decide
theorem witness_TakenSbraAtPageEndIsRefused :
    { start [] false true false with pc := 0x13F#12 }.ccr.b = true ∧ (0x13F#12).extractLsb' 0 6 = 0x3F#6 := by decide
theorem witness_CallAndScallResults :
    { State.reset with rp := 0xF4#8 }.rsHas (0xF4#8 + 4) ∧ { State.reset with rp := 0xF8#8 }.rsHas (0xF8#8 + 4) ∧
      { State.reset with rp := 0xFC#8 }.rsHas (0xFC#8 + 4) := by decide
theorem witness_ExitResult : State.reset.rsHas 0x00#8 ∧ State.reset.rsHas 0xF8#8 ∧ State.reset.rsHas 0xFC#8 := by decide
theorem witness_RtiResult :
    State.reset.rsHas State.reset.rp ∧ State.reset.iar = 0#8 ∧ HighestBit 0x01#8 0 ∧ HighestBit 0x21#8 5 ∧ HighestBit 0xFF#8 7 := by
  decide
theorem witness_SwiResult :
    (start [0x0#4, 0x8#4] false false false).ramHas 0x42#8 ∧ (start [0x0#4, 0x8#4] false false false).ramHas (0x42#8 - 1) ∧
      (start [0x0#4, 0x8#4] false false false).ramAt 0x42#8 ∈ [0#4, 1#4, 2#4, 4#4, 8#4] ∧
      (start [0x0#4, 0x8#4] false false false).tos ∈ [0#4, 1#4, 2#4, 4#4, 8#4] := by decide
theorem witness_SwiOtherOperandsAreRefused :
    (start [0x3#4, 0x8#4] false false false).ramAt 0x42#8 ∉ [0#4, 1#4, 2#4, 4#4, 8#4] ∧
      (start [0x0#4, 0x9#4] false false false).tos ∉ [0#4, 1#4, 2#4, 4#4, 8#4] ∧
      (start [0x0#4, 0x9#4] false false false).ramHas 0x42#8 ∧ (start [0x0#4, 0x9#4] false false false).ramHas (0x42#8 - 1) := by
  decide
theorem witness_RegisterFetchResults :
    { State.reset with sp := 0xFE#8 }.ramHas (0xFE#8 + 1) ∧ { State.reset with sp := 0xFE#8 }.ramHas (0xFE#8 + 2) := by decide
theorem witness_SetSpResult : State.reset.ramHas 0x00#8 ∧ State.reset.ramHas 0xFF#8 := by decide
theorem witness_RegisterStoreResults : State.reset.ramHas 0x00#8 ∧ State.reset.ramHas (0x00#8 - 1) := by decide
theorem witness_SwapAndRotResults :
    (start [0x1#4, 0x2#4, 0x3#4] false false false).ramHas 0x43#8 ∧
      (start [0x1#4, 0x2#4, 0x3#4] false false false).ramHas (0x43#8 - 1) := by decide
theorem witness_OverDupAndLitResults :
    (start [0x4#4, 0x2#4] false false false).ramHas (0x42#8 + 1) ∧ (start [0x4#4, 0x2#4] false false false).ramHas 0x42#8 := by
  decide
theorem witness_DropAndDroprResults : { State.reset with chip := smallChip }.ramHas 0x3F#8 := by decide
theorem witness_MoveToReturnStackResults :
    { State.reset with rp := 0x00#8 }.rsHas (0x00#8 + 4) ∧ { State.reset with rp := 0xF8#8 }.rsHas (0xF8#8 + 4) ∧
      State.reset.ramHas 0x44#8 ∧ State.reset.ramHas (0x44#8 - 1) ∧ State.reset.ramHas (0x44#8 - 2) := by decide
theorem witness_CopyFromReturnStackResults :
    (entry 0x04#8 0x123#12 (start [0x7#4] false false false)).rsHas 0x04#8 ∧ State.reset.rsHas 0xFC#8 ∧
      State.reset.ramHas (0x41#8 + 1) ∧ State.reset.ramHas (0x41#8 + 2) ∧ State.reset.ramHas (0x41#8 + 3) := by decide
/-- The state of section 2.8's first TABLE row. -/
theorem witness_TableResult :
    let s := entry 0x04#8 0x100#12 (entry 0x00#8 0x00E#12 (start [0x7#4] false false false))
    s.rsHas s.rp ∧ s.romHas (s.rsAt s.rp) ∧ s.ramHas (s.sp + 1) ∧ s.ramHas (s.sp + 2) ∧ s.rsHas (s.rp - 4) := by decide
theorem witness_FetchThroughXAndYResults :
    (start [0x7#4] false false false).ramHas (0x41#8 + 1) ∧ (start [0x7#4] false false false).ramHas 0xFF#8 ∧
      ∀ ea ∈ [0x41#8, 0x43#8, 0x00#8, 0xFF#8], ea ≠ 0x41#8 + 1 := by decide
theorem witness_StoreThroughXAndYResults :
    (start [0x7#4, 0x5#4] false false false).ramHas 0x42#8 ∧ (start [0x7#4, 0x5#4] false false false).ramHas 0xFF#8 ∧
      ∀ ea ∈ [0x41#8, 0x43#8, 0x00#8, 0xFF#8], ea ≠ 0x42#8 := by decide
theorem witness_StackCellCollisionsAreRefused :
    let s := { start [0x7#4] false false false with x := 0x42#8, y := 0x41#8 }
    s.x = s.sp + 1 ∧ s.y + 1 = s.sp + 1 ∧ s.y = s.sp := by decide
theorem witness_InResult :
    State.reset.chip.inBranch = .port ∧
      { State.reset with chip := { Config.defaultChip with inBranch := .data } }.chip.inBranch = .data := by decide
theorem witness_OutResult :
    State.reset.ramHas 0x43#8 ∧ State.reset.ramHas (0x43#8 - 1) ∧ State.reset.chip.rbrPort ≠ some 0x4#4 := by decide
theorem witness_OutToBankRegister :
    let s := { start [0x7#4, 0x8#4, 0x4#4] false false false with chip := { Config.defaultChip with rbrPort := some 0x4#4 } }
    s.ramHas s.sp ∧ s.ramHas (s.sp - 1) ∧ s.chip.rbrPort = some s.tos ∧ (0x7FF#12).toNat < 0x800 ∧
      0x800 ≤ (0x800#12).toNat := by decide
theorem witness_UnalignedReturnStackIsRefused :
    let s := { start [0x7#4, 0x1#4, 0x2#4, 0x3#4] false false false with rp := 0xFD#8 }
    let due := boundary true 0x29#8 0x08#8 false 0x105#12 0xFB#8
    (s.rp &&& 3#8 ≠ 0#8 ∧ s.ramHas s.sp ∧ s.ramHas (s.sp - 1) ∧ s.ramHas (s.sp - 2)) ∧
      due.rp &&& 3#8 ≠ 0#8 ∧ due.env = [] ∧ AcknowledgeDue due 5 := by decide
theorem witness_ReturnStackEntryReadsBack :
    State.reset.rsHas 0x00#8 ∧ State.reset.rsHas 0xF8#8 ∧ State.reset.rsHas 0xFC#8 ∧
      { State.reset with chip := smallChip }.rsHas 0x3C#8 ∧ ¬{ State.reset with chip := smallChip }.rsHas 0x40#8 := by decide
theorem witness_RomBankSelection :
    (0x7FF#12).toNat < 0x800 ∧ ¬(0x800#12).toNat < 0x800 ∧ (0x7#4).extractLsb' 2 2 = (0x4#4).extractLsb' 2 2 := by decide
/-- A fetch: of the first byte, and of the second byte of the last place in ROM. -/
theorem witness_AbsentMemoryFaults_fetch :
    let s := { start [] false false false with chip := smallChip, pc := 0x800#12 }
    let t := { s with pc := 0x7FF#12 }.withRom 0x7FF#12 0x52#8
    (s.env = [] ∧ (∀ k, ¬AcknowledgeDue s k) ∧ s.asleep = false ∧ ¬s.romHas s.pc) ∧
      t.env = [] ∧ (∀ k, ¬AcknowledgeDue t k) ∧ t.asleep = false ∧ t.romHas t.pc ∧ opLength (t.romAt t.pc) = 2 ∧
      ¬t.romHas (t.pc + 1) := by decide
/-- TABLE's byte, and the Expression Stack at both ends of a RAM of 64 cells. -/
theorem witness_AbsentMemoryFaults_stack :
    let s := { State.reset with chip := smallChip }
    (let t := entry 0x04#8 0x800#12 { s with rp := 0x04#8 }
     t.rsHas t.rp ∧ ¬t.romHas (t.rsAt t.rp)) ∧
      ¬s.ramHas 0x40#8 ∧ (s.ramHas 0x00#8 ∧ ¬s.ramHas (0x00#8 - 1)) ∧
      (s.ramHas 0x01#8 ∧ s.ramHas (0x01#8 - 1) ∧ ¬s.ramHas (0x01#8 - 2)) ∧
      (¬s.ramHas (0x3F#8 + 1) ∧ s.ramHas 0x3F#8 ∧ s.rsHas s.rp ∧ s.romHas (s.rsAt s.rp)) ∧
      (s.ramHas (0x3E#8 + 1) ∧ ¬s.ramHas (0x3E#8 + 2)) ∧
      (s.ramHas (0x3D#8 + 1) ∧ s.ramHas (0x3D#8 + 2) ∧ ¬s.ramHas (0x3D#8 + 3)) := by decide
/-- RAM through X and Y: the cell addressed, and the cell TOS goes to or comes from. -/
theorem witness_AbsentMemoryFaults_pointer :
    let s := { State.reset with chip := smallChip }
    (0x40#8 ≠ 0x15#8 + 1 ∧ ¬s.ramHas 0x40#8) ∧ (0x3F#8 ≠ 0x3F#8 + 1 ∧ s.ramHas 0x3F#8 ∧ ¬s.ramHas (0x3F#8 + 1)) ∧
      (0x40#8 ≠ 0x15#8 ∧ ¬s.ramHas 0x40#8) ∧ (0x3F#8 ≠ 0x40#8 ∧ s.ramHas 0x3F#8 ∧ ¬s.ramHas 0x40#8) := by decide
/-- Return Stack entries on a chip that has two of the three cells of the entry at 3Ch. -/
theorem witness_AbsentMemoryFaults_entry :
    let s := { boundary true 0x29#8 0x08#8 false 0x105#12 0x38#8 with chip := { smallChip with ramSize := 0x3E } }
    let t := { s with rp := 0xFC#8, sp := 0x15#8 }
    s.rsAbsent 0x3C#8 ∧ s.rsAbsent (s.rp + 4) ∧ s.env = [] ∧ AcknowledgeDue s 5 ∧
      (let u := { s with sp := 0x15#8 }
       u.ramHas u.sp ∧ u.ramHas (u.sp - 1) ∧ u.ramHas (u.sp - 2)) ∧
      t.rsHas t.rp ∧ t.romHas (t.rsAt t.rp) ∧ t.ramHas (t.sp + 1) ∧ t.ramHas (t.sp + 2) ∧ t.rsAbsent (t.rp - 4) := by
  decide
theorem witness_EncodeOfDecode : decode [0x52#8, 0x34#8, 0x7C#8] = .ok (.bra 0x234#12, [0x7C#8]) := by decide
theorem witness_StepRunsTheDecodedInstruction :
    let s := (start [0x7#4] false false false).withFetchWord 16 0x3452
    s.env = [] ∧ (∀ k, ¬AcknowledgeDue s k) ∧ s.asleep = false ∧ s.codePresent ∧
      decode s.codeBytes = .ok (.bra 0x234#12, []) := by decide
theorem witness_InterruptIsTaken :
    let s := boundary true 0x29#8 0x08#8 false 0x105#12 0x04#8
    let sleeping := boundary true 0x01#8 0x00#8 true 0x002#12 0xF8#8
    (s.env = [] ∧ AcknowledgeDue s 5 ∧ s.rsHas (s.rp + 4)) ∧
      sleeping.env = [] ∧ AcknowledgeDue sleeping 0 ∧ sleeping.rsHas (sleeping.rp + 4) := by decide
theorem witness_NoInterruptIsDueAfterAcknowledge :
    let s := boundary true 0xFF#8 0x00#8 false 0x234#12 0x00#8
    s.env = [] ∧ AcknowledgeDue s 7 ∧ stepSeen s (fun t => t.pc) = some 0x1E0#12 := by decide
theorem witness_RequestsAreLatched : 0x09#8 ||| 0x08#8 = 0x09#8 := by decide
theorem witness_SleepGoesOn :
    let s := boundary true 0x00#8 0x00#8 true 0x002#12 0xF8#8
    s.env = [] ∧ s.asleep = true ∧ ∀ k, ¬AcknowledgeDue s k := by decide
theorem witness_RequestWakesTheCore :
    let s := { boundary true 0x00#8 0x00#8 true 0x002#12 0xF8#8 with env := [.request 0x81#8] }
    let t := { boundary true 0x00#8 0x00#8 true 0x002#12 0x00#8 with env := [.request 0x01#8] }
    (s.Inv ∧ s.asleep = true ∧ s.env = [.request 0x81#8] ∧ s.ipr ||| 0x81#8 ≠ 0#8 ∧ s.rsHas (s.rp + 4)) ∧
      t.Inv ∧ t.asleep = true ∧ t.env = [.request 0x01#8] ∧ t.ipr ||| 0x01#8 ≠ 0#8 ∧ t.rsHas (t.rp + 4) := by decide
theorem witness_ResetEventResult : { State.reset with env := [.reset] }.env = [.reset] := by decide
theorem witness_StepKeepsInvariant :
    let s := boundary true 0x29#8 0x08#8 false 0x105#12 0x04#8
    s.Inv ∧ stepSeen s (fun t => t.iar) = some 0x28#8 := by decide
theorem witness_FlagsAreChangedOnlyByTheirWriters : seen .dup (start [0x7#4] true false true) flags = some (true, false, true) := by
  decide
theorem witness_RegistersAreChangedOnlyByTheirWriters :
    seen .swap (start [0x4#4, 0x2#4] false false false) (fun t => (t.rp, t.x, t.y, t.ipr, t.iar)) =
      some (0x04#8, 0x00#8, 0x00#8, 0x00#8, 0x00#8) := by decide
theorem witness_ProgramMemoryIsNeverWritten : stepSeen State.reset (fun t => t.rom) = some [] := by decide
theorem witness_ReturnFollowsCall :
    { State.reset with rp := 0xF4#8 }.rsHas (0xF4#8 + 4) ∧ 0xF4#8 + 4 ≠ 0xFC#8 ∧ State.reset.rsHas (0xFC#8 + 4) ∧
      0xFC#8 + 4 ≠ 0xFC#8 := by decide
theorem witness_OnlyCcrFetchReadsCcr2 : Instr.ccrStore ≠ .ccrFetch := by decide

end Sys2Proof.Tests
end

section
/-!
SUPPORT and the statement of 30_encoding.md: an instruction of one byte as its opcode, and the two codes to which the source
assigns no instruction (R79).
-/

namespace Sys2Proof.Machine

open Sys2Proof.Laws

/-- A first byte that asks for no second one is an instruction by itself (30_encoding.md R70, R78). -/
theorem decode_of_opLength_one {b : Byte} (rest : List Byte) (h : opLength b = 1) :
    decode (b :: rest) = .ok (decodeOp b 0#8, rest) := by
  simp [decode, h]

/-- For an instruction of one byte, to be encoded as that byte is a row of the encoder and a row of the opcode map; that the
decoder asks for no second byte follows from the length law. -/
theorem encodedAs_singleton {i : Instr} {b : Byte} (hlen : LengthOfFirstByte.Statement i) (henc : encode i = [b])
    (hdec : decodeOp b 0#8 = i) : EncodedAs i [b] := by
  obtain ⟨b', rest, hbytes, hlength⟩ := hlen
  obtain ⟨rfl, rfl⟩ : b = b' ∧ [] = rest := List.cons.inj (henc.symm.trans hbytes)
  have hone : opLength b = 1 := by rw [← hlength, henc, List.length_singleton]
  exact ⟨henc, by rw [decode_of_opLength_one [] hone, hdec]⟩

@[simp] theorem exec_unassigned21 (s : State) : exec .unassigned21 s = .refused (.unassignedCode 0x21#8) := rfl

@[simp] theorem exec_unassigned24 (s : State) : exec .unassigned24 s = .refused (.unassignedCode 0x24#8) := rfl

/-- Settles O20: each code is a row of the opcode map, and its arm of `exec` refuses without looking at the state. -/
theorem unassignedCodesAreRefused : Obligations.UnassignedCodesAreRefused :=
  ⟨encodedAs_singleton LengthOfFirstByte.unassigned21 rfl rfl, encodedAs_singleton LengthOfFirstByte.unassigned24 rfl rfl,
    fun s => ⟨exec_unassigned21 s, exec_unassigned24 s⟩⟩

end Sys2Proof.Machine
end

section
/-!
SUPPORT and the statements of 40_arithmetic.md. The ALU's results in the words of the spec, exact sums and differences of
nibbles, and what an instruction leaves whose result goes to TOS: with the carry in `C` and `B`, or with the zero test in `B`.
-/

namespace Sys2Proof.Machine

open Sys2Proof.Laws

/-! ## The ALU's results -/

/-- The adder's value is the sum modulo 16, and its carry says whether the exact sum reaches 16 (R100, R101). -/
theorem addNibbles_eq (n1 n2 : Nibble) (c : Bool) :
    addNibbles n1 n2 c =
      { value := n1 + n2 + if c then 1#4 else 0#4, carry := decide (16 ≤ n1.toNat + n2.toNat + c.toNat) } := by
  have hvalue : BitVec.ofNat 4 (n1.toNat + n2.toNat + c.toNat) = n1 + n2 + if c then 1#4 else 0#4 := by
    cases c <;> simp [BitVec.ofNat_add]
  rw [← hvalue]
  rfl

theorem addNibbles_false (n1 n2 : Nibble) :
    addNibbles n1 n2 false = { value := n1 + n2, carry := decide (16 ≤ n1.toNat + n2.toNat) } := by
  simp [addNibbles_eq]

/-- The complement of the adder's carry out of `n1 + /n2 + /c` is the borrow of `n1 - n2 - c` (R102, R103, R108). -/
theorem subNibbles_eq (n1 n2 : Nibble) (c : Bool) :
    subNibbles n1 n2 c =
      { value := n1 - n2 - if c then 1#4 else 0#4, carry := decide (n1.toNat < n2.toNat + c.toNat) } := by
  have hvalue : (n1 + ~~~n2 + if !c then 1#4 else 0#4) = n1 - n2 - if c then 1#4 else 0#4 := by
    cases c
    · change n1 + ~~~n2 + 1#4 = n1 - n2 - 0#4
      bv_omega
    · change n1 + ~~~n2 + 0#4 = n1 - n2 - 1#4
      bv_omega
  have hborrow : (!decide (16 ≤ n1.toNat + (~~~n2).toNat + (!c).toNat)) = decide (n1.toNat < n2.toNat + c.toNat) := by
    have hnot : (~~~n2).toNat = 15 - n2.toNat := BitVec.toNat_not
    have hlt := n2.isLt
    rw [hnot, ← decide_not, decide_eq_decide]
    cases c
    · change ¬16 ≤ n1.toNat + (15 - n2.toNat) + 1 ↔ n1.toNat < n2.toNat + 0
      omega
    · change ¬16 ≤ n1.toNat + (15 - n2.toNat) + 0 ↔ n1.toNat < n2.toNat + 1
      omega
  simp only [subNibbles, addNibbles_eq, hvalue, hborrow]

theorem subNibbles_false (n1 n2 : Nibble) :
    subNibbles n1 n2 false = { value := n1 - n2, carry := decide (n1 < n2) } := by
  simp [subNibbles_eq, BitVec.lt_def]

/-- Whether DAA adds 6 is the flag it leaves (R106). -/
theorem decimalAdjust_eq (n : Nibble) (c : Bool) :
    decimalAdjust n c =
      { value := if decide (9 < n.toNat) || c then n + 6#4 else n, carry := decide (9 < n.toNat) || c } := by
  have hadjust : (9#4 < n ∨ c = true) ↔ (decide (9 < n.toNat) || c) = true := by simp [BitVec.lt_def]
  unfold decimalAdjust
  by_cases h : 9#4 < n ∨ c = true
  · rw [if_pos h, hadjust.1 h]; rfl
  · rw [if_neg h, Bool.eq_false_iff.2 fun h' => h (hadjust.2 h')]; rfl

/-! ## What the arithmetic instructions leave -/

/-- An instruction on the two top elements: both are taken, and `f` of them and of `C` goes to TOS, `C` and `B`. -/
def binaryAlu (f : Nibble → Nibble → Bool → AluOut) (s : State) : Host.Outcome State Fault Refusal :=
  finish do
    let (n1, n2, s) ← s.takeTwo
    .ok ((s.setResult (f n1 n2 s.ccr.c)).advance 1 1)

theorem exec_add (s : State) : exec .add s = binaryAlu (fun n1 n2 _ => addNibbles n1 n2 false) s := rfl

theorem exec_addc (s : State) : exec .addc s = binaryAlu addNibbles s := rfl

theorem exec_sub (s : State) : exec .sub s = binaryAlu (fun n1 n2 _ => subNibbles n1 n2 false) s := rfl

theorem exec_subb (s : State) : exec .subb s = binaryAlu subNibbles s := rfl

theorem exec_inc (s : State) : exec .inc s = finish (.ok ((s.setLogic (s.tos + 1#4)).advance 1 1)) := rfl

theorem exec_dec (s : State) : exec .dec s = finish (.ok ((s.setLogic (s.tos - 1#4)).advance 1 1)) := rfl

theorem exec_not (s : State) : exec .not s = finish (.ok ((s.setLogic (~~~s.tos)).advance 1 1)) := rfl

theorem exec_daa (s : State) : exec .daa s = finish (.ok ((s.setResult (decimalAdjust s.tos s.ccr.c)).advance 1 1)) := rfl

theorem completes_of_exec {i : Instr} {s t : State} (h : exec i s = .next t) : Completes i s t t.ramAt :=
  ⟨t, h, rfl, fun _ => rfl⟩

section

variable {i : Instr} {s : State}

theorem takeTwo_of_ramHas (h : s.ramHas s.sp) :
    s.takeTwo = .ok (s.ramAt s.sp, s.tos, { s with sp := s.sp - 1 }) :=
  takeTwo_ok_iff.2 ⟨h, rfl, rfl, rfl⟩

theorem binaryAlu_of_ramHas (f : Nibble → Nibble → Bool → AluOut) (h : s.ramHas s.sp) :
    binaryAlu f s =
      .next (({ s with sp := s.sp - 1 }.setResult (f (s.ramAt s.sp) s.tos s.ccr.c)).advance 1 1) := by
  unfold binaryAlu
  rw [takeTwo_of_ramHas h]
  rfl

/-- The frame of ADD, ADDC, SUB and SUBB, the result being `v` with the flag `carry`. -/
theorem completes_of_binaryAlu {f : Nibble → Nibble → Bool → AluOut} {v : Nibble} {carry : Bool}
    (hexec : exec i s = binaryAlu f s) (h : s.ramHas s.sp)
    (hf : f (s.ramAt s.sp) s.tos s.ccr.c = { value := v, carry := carry }) :
    Completes i s
      { s with
        pc := s.pc + 1, tos := v, sp := s.sp - 1
        ccr := { c := carry, ccr2 := Config.freeCcr2 s.draws, b := carry, i := s.ccr.i }
        draws := s.draws + 1, cycles := s.cycles + 1 } s.ramAt := by
  rw [binaryAlu_of_ramHas f h, hf] at hexec
  exact completes_of_exec hexec

/-- The frame of INC, DEC and NOT, the result being `v`. -/
theorem completes_of_setLogic {v : Nibble} (hexec : exec i s = finish (.ok ((s.setLogic v).advance 1 1))) :
    Completes i s
      { s with
        pc := s.pc + 1, tos := v
        ccr := { c := s.ccr.c, ccr2 := Config.freeCcr2 s.draws, b := decide (v = 0#4), i := s.ccr.i }
        draws := s.draws + 1, cycles := s.cycles + 1 } s.ramAt :=
  completes_of_exec hexec

end

/-- The one's complement of a nibble is its difference to 15 (42_logical_shift.md R133). -/
theorem not_eq_fifteen_sub (n : Nibble) : ~~~n = 15#4 - n := by bv_omega

/-! ## The statements -/

/-- Settles O2: both are the adder on the complement, whose result `subNibbles_eq` reads as difference and borrow. -/
theorem subAndSubbResults : Obligations.SubAndSubbResults :=
  ⟨encodedAs_singleton LengthOfFirstByte.sub rfl rfl, encodedAs_singleton LengthOfFirstByte.subb rfl rfl,
    fun s h => ⟨completes_of_binaryAlu (exec_sub s) h (subNibbles_false _ _),
      completes_of_binaryAlu (exec_subb s) h (subNibbles_eq _ _ _)⟩⟩

/-- Settles O1: both are the adder, without and with `C` as carry in. -/
theorem addAndAddcResults : Obligations.AddAndAddcResults :=
  ⟨encodedAs_singleton LengthOfFirstByte.add rfl rfl, encodedAs_singleton LengthOfFirstByte.addc rfl rfl,
    fun s h => ⟨completes_of_binaryAlu (exec_add s) h (addNibbles_false _ _),
      completes_of_binaryAlu (exec_addc s) h (addNibbles_eq _ _ _)⟩⟩

/-- Settles O3: the three share one frame, and NOT's complement is the difference to 15. -/
theorem incDecAndNotResults : Obligations.IncDecAndNotResults :=
  ⟨encodedAs_singleton LengthOfFirstByte.inc rfl rfl, encodedAs_singleton LengthOfFirstByte.dec rfl rfl,
    encodedAs_singleton LengthOfFirstByte.not rfl rfl,
    fun s => ⟨completes_of_setLogic (exec_inc s), completes_of_setLogic (exec_dec s),
      completes_of_setLogic (by rw [exec_not, not_eq_fifteen_sub])⟩⟩

/-- Settles O4: the condition under which `decimalAdjust` adds 6 is the flag it answers. -/
theorem daaResult : Obligations.DaaResult := by
  refine ⟨encodedAs_singleton LengthOfFirstByte.daa rfl rfl, fun s => ?_⟩
  have hexec := exec_daa s
  rw [decimalAdjust_eq] at hexec
  exact completes_of_exec hexec

end Sys2Proof.Machine
end

section
/-!
The statement of 41_compare.md. The six compares differ in the relation alone: one lemma says what they leave, and each
relation is that of the operands as unsigned numbers.
-/

namespace Sys2Proof.Machine

open Sys2Proof.Laws

theorem exec_cmpEq (s : State) : exec .cmpEq s = finish (s.compare fun n1 n2 => decide (n1 = n2)) := rfl

theorem exec_cmpNe (s : State) : exec .cmpNe s = finish (s.compare fun n1 n2 => decide (n1 ≠ n2)) := rfl

theorem exec_cmpLt (s : State) : exec .cmpLt s = finish (s.compare fun n1 n2 => decide (n1 < n2)) := rfl

theorem exec_cmpLe (s : State) : exec .cmpLe s = finish (s.compare fun n1 n2 => decide (n1 ≤ n2)) := rfl

theorem exec_cmpGt (s : State) : exec .cmpGt s = finish (s.compare fun n1 n2 => decide (n2 < n1)) := rfl

theorem exec_cmpGe (s : State) : exec .cmpGe s = finish (s.compare fun n1 n2 => decide (n2 ≤ n1)) := rfl

section

variable {i : Instr} {s : State}

theorem compare_of_ramHas (relation : Nibble → Nibble → Bool) (h : s.ramHas s.sp) :
    s.compare relation =
      .ok (({ s with sp := s.sp - 1, tos := s.ramAt s.sp }.setCompare (relation (s.ramAt s.sp) s.tos)).advance 1 1) := by
  unfold State.compare
  rw [takeTwo_of_ramHas h]
  rfl

/-- The frame of the six compares, `p` being the relation in the words of the spec (R120). -/
theorem completes_of_compare {relation : Nibble → Nibble → Bool} {p : Prop} [Decidable p]
    (hexec : exec i s = finish (s.compare relation)) (h : s.ramHas s.sp)
    (hp : relation (s.ramAt s.sp) s.tos = decide p) :
    Completes i s
      { s with
        pc := s.pc + 1, tos := s.ramAt s.sp, sp := s.sp - 1
        ccr := { c := Config.freeCarry s.draws, ccr2 := Config.freeCcr2 s.draws, b := decide p, i := s.ccr.i }
        draws := s.draws + 1, cycles := s.cycles + 1 } s.ramAt := by
  rw [compare_of_ramHas relation h, hp] at hexec
  exact completes_of_exec hexec

end

/-- Settles O6: one frame for the six, and each relation on nibbles is the one on the numbers they stand for. -/
theorem compareResults : Obligations.CompareResults :=
  ⟨encodedAs_singleton LengthOfFirstByte.cmpEq rfl rfl, encodedAs_singleton LengthOfFirstByte.cmpNe rfl rfl,
    encodedAs_singleton LengthOfFirstByte.cmpLt rfl rfl, encodedAs_singleton LengthOfFirstByte.cmpLe rfl rfl,
    encodedAs_singleton LengthOfFirstByte.cmpGt rfl rfl, encodedAs_singleton LengthOfFirstByte.cmpGe rfl rfl,
    fun s h =>
      ⟨completes_of_compare (exec_cmpEq s) h (decide_eq_decide.2 BitVec.toNat_inj.symm),
        completes_of_compare (exec_cmpNe s) h (decide_eq_decide.2 BitVec.toNat_inj.symm.not),
        completes_of_compare (exec_cmpLt s) h (decide_eq_decide.2 BitVec.lt_def),
        completes_of_compare (exec_cmpLe s) h (decide_eq_decide.2 BitVec.le_def),
        completes_of_compare (exec_cmpGt s) h (decide_eq_decide.2 BitVec.lt_def),
        completes_of_compare (exec_cmpGe s) h (decide_eq_decide.2 BitVec.le_def)⟩⟩

end Sys2Proof.Machine
end

section
/-!
SUPPORT and the statements of 42_logical_shift.md. The two shifters in the words of the spec, and what an instruction leaves
whose result goes to TOS: a bitwise result of the two top elements, or TOS moved by one place.
-/

namespace Sys2Proof.Machine

open Sys2Proof.Laws

/-! ## The shifters' results -/

/-- The bits above bit 0 are those of the shift, and bit 0, which the shift leaves 0, is `low` (R134, R136). -/
theorem shiftLeft_eq (n : Nibble) (low : Bool) :
    shiftLeft n low = { value := n <<< 1 ||| if low then 1#4 else 0#4, carry := n.getLsbD 3 } := by
  have hvalue : n.extractLsb' 0 3 ++ BitVec.ofBool low = n <<< 1 ||| if low then 1#4 else 0#4 := by
    refine BitVec.eq_of_getLsbD_eq fun k hk => ?_
    rw [BitVec.getLsbD_append, BitVec.getLsbD_or, BitVec.getLsbD_shiftLeft]
    match k with
    | 0 => cases low <;> simp
    | k + 1 =>
      have hk3 : k < 3 := by omega
      cases low <;> simp [hk3, hk]
  rw [← hvalue]
  rfl

theorem shiftLeft_false (n : Nibble) : shiftLeft n false = { value := n <<< 1, carry := n.getLsbD 3 } := by
  simp [shiftLeft_eq]

/-- The bits below bit 3 are those of the shift, and bit 3, which the shift leaves 0, is `high` (R135, R137). -/
theorem shiftRight_eq (n : Nibble) (high : Bool) :
    shiftRight n high = { value := n >>> 1 ||| (if high then 1#4 else 0#4) <<< 3, carry := n.getLsbD 0 } := by
  have hvalue : BitVec.ofBool high ++ n.extractLsb' 1 3 = n >>> 1 ||| (if high then 1#4 else 0#4) <<< 3 := by
    refine BitVec.eq_of_getLsbD_eq fun k hk => ?_
    rw [BitVec.getLsbD_append, BitVec.getLsbD_or, BitVec.getLsbD_shiftLeft]
    by_cases hk3 : k < 3
    · simp [hk3]
    · obtain rfl : k = 3 := by omega
      cases high <;> simp
  rw [← hvalue]
  rfl

theorem shiftRight_false (n : Nibble) : shiftRight n false = { value := n >>> 1, carry := n.getLsbD 0 } := by
  simp [shiftRight_eq]

/-! ## What the instructions leave -/

/-- An instruction on the two top elements: both are taken, `f` of them goes to TOS, and `B` says whether it is 0. -/
def binaryLogic (f : Nibble → Nibble → Nibble) (s : State) : Host.Outcome State Fault Refusal :=
  finish do
    let (n1, n2, s) ← s.takeTwo
    .ok ((s.setLogic (f n1 n2)).advance 1 1)

theorem exec_xor (s : State) : exec .xor s = binaryLogic (· ^^^ ·) s := rfl

theorem exec_and (s : State) : exec .and s = binaryLogic (· &&& ·) s := rfl

theorem exec_or (s : State) : exec .or s = binaryLogic (· ||| ·) s := rfl

theorem exec_shl (s : State) : exec .shl s = finish (.ok ((s.setResult (shiftLeft s.tos false)).advance 1 1)) := rfl

theorem exec_shr (s : State) : exec .shr s = finish (.ok ((s.setResult (shiftRight s.tos false)).advance 1 1)) := rfl

theorem exec_rol (s : State) : exec .rol s = finish (.ok ((s.setResult (shiftLeft s.tos s.ccr.c)).advance 1 1)) := rfl

theorem exec_ror (s : State) : exec .ror s = finish (.ok ((s.setResult (shiftRight s.tos s.ccr.c)).advance 1 1)) := rfl

section

variable {i : Instr} {s : State}

theorem binaryLogic_of_ramHas (f : Nibble → Nibble → Nibble) (h : s.ramHas s.sp) :
    binaryLogic f s = .next (({ s with sp := s.sp - 1 }.setLogic (f (s.ramAt s.sp) s.tos)).advance 1 1) := by
  unfold binaryLogic
  rw [takeTwo_of_ramHas h]
  rfl

/-- The frame of XOR, AND and OR. -/
theorem completes_of_binaryLogic {f : Nibble → Nibble → Nibble} (hexec : exec i s = binaryLogic f s)
    (h : s.ramHas s.sp) :
    Completes i s
      { s with
        pc := s.pc + 1, tos := f (s.ramAt s.sp) s.tos, sp := s.sp - 1
        ccr := { c := s.ccr.c, ccr2 := Config.freeCcr2 s.draws, b := decide (f (s.ramAt s.sp) s.tos = 0#4), i := s.ccr.i }
        draws := s.draws + 1, cycles := s.cycles + 1 } s.ramAt :=
  completes_of_exec (hexec.trans (binaryLogic_of_ramHas f h))

/-- The frame of the shifts and rotates, the result being `v` and the bit that leaves `out`. -/
theorem completes_of_setResult {r : AluOut} {v : Nibble} {out : Bool}
    (hexec : exec i s = finish (.ok ((s.setResult r).advance 1 1))) (hr : r = { value := v, carry := out }) :
    Completes i s
      { s with
        pc := s.pc + 1, tos := v
        ccr := { c := out, ccr2 := Config.freeCcr2 s.draws, b := out, i := s.ccr.i }
        draws := s.draws + 1, cycles := s.cycles + 1 } s.ramAt := by
  rw [hr] at hexec
  exact completes_of_exec hexec

end

/-! ## The statements -/

/-- Settles O7: the three share one frame and differ in the bitwise operator alone. -/
theorem xorAndOrResults : Obligations.XorAndOrResults :=
  ⟨encodedAs_singleton LengthOfFirstByte.xor rfl rfl, encodedAs_singleton LengthOfFirstByte.and rfl rfl,
    encodedAs_singleton LengthOfFirstByte.or rfl rfl,
    fun s h => ⟨completes_of_binaryLogic (exec_xor s) h, completes_of_binaryLogic (exec_and s) h,
      completes_of_binaryLogic (exec_or s) h⟩⟩

/-- Settles O8: two shifters, each with 0 or with the old `C` entering. -/
theorem shiftAndRotateResults : Obligations.ShiftAndRotateResults :=
  ⟨encodedAs_singleton LengthOfFirstByte.shl rfl rfl, encodedAs_singleton LengthOfFirstByte.shr rfl rfl,
    encodedAs_singleton LengthOfFirstByte.rol rfl rfl, encodedAs_singleton LengthOfFirstByte.ror rfl rfl,
    fun s => ⟨completes_of_setResult (exec_shl s) (shiftLeft_false _),
      completes_of_setResult (exec_shr s) (shiftRight_false _),
      completes_of_setResult (exec_rol s) (shiftLeft_eq _ _),
      completes_of_setResult (exec_ror s) (shiftRight_eq _ _)⟩⟩

end Sys2Proof.Machine
end

section
/-!
SUPPORT and the statement of TOG_BF, SET_BCF and DI (43_flag.md). The three flag updates as whole states, and what an
instruction leaves that writes flags alone.
-/

namespace Sys2Proof.Machine

open Sys2Proof.Laws

section

variable {i : Instr} {s t : State}

/-! ## The flag updates: the flags not written are kept, and `CCR2` is drawn -/

theorem setB_eq (flag : Bool) :
    s.setB flag =
      { s with
        ccr := { c := s.ccr.c, ccr2 := Config.freeCcr2 s.draws, b := flag, i := s.ccr.i }
        draws := s.draws + 1 } := rfl

theorem setCB_eq (flag : Bool) :
    s.setCB flag =
      { s with
        ccr := { c := flag, ccr2 := Config.freeCcr2 s.draws, b := flag, i := s.ccr.i }
        draws := s.draws + 1 } := rfl

theorem setI_eq (flag : Bool) :
    s.setI flag =
      { s with
        ccr := { c := s.ccr.c, ccr2 := Config.freeCcr2 s.draws, b := s.ccr.b, i := flag }
        draws := s.draws + 1 } := rfl

/-! ## What the instructions leave -/

theorem exec_togBf (s : State) : exec .togBf s = finish (.ok ((s.setB (!s.ccr.b)).advance 1 1)) := rfl

theorem exec_setBcf (s : State) : exec .setBcf s = finish (.ok ((s.setCB true).advance 1 1)) := rfl

theorem exec_di (s : State) : exec .di s = finish (.ok ((s.setI false).advance 1 1)) := rfl

/-- The frame of TOG_BF, SET_BCF and DI, `c`, `b` and `e` being the flags `C`, `B` and `I` after. -/
theorem completes_of_flags {c b e : Bool} (hexec : exec i s = finish (.ok (t.advance 1 1)))
    (ht : t =
      { s with
        ccr := { c := c, ccr2 := Config.freeCcr2 s.draws, b := b, i := e }
        draws := s.draws + 1 }) :
    Completes i s
      { s with
        pc := s.pc + 1, ccr := { c := c, ccr2 := Config.freeCcr2 s.draws, b := b, i := e }
        draws := s.draws + 1, cycles := s.cycles + 1 } s.ramAt := by
  rw [ht] at hexec
  exact completes_of_exec hexec

end

/-! ## The statement -/

/-- Settles O9: the three share one frame and differ in the flags they write. -/
theorem togBfSetBcfAndDiResults : Obligations.TogBfSetBcfAndDiResults :=
  ⟨encodedAs_singleton LengthOfFirstByte.togBf rfl rfl, encodedAs_singleton LengthOfFirstByte.setBcf rfl rfl,
    encodedAs_singleton LengthOfFirstByte.di rfl rfl,
    fun s => ⟨completes_of_flags (exec_togBf s) (setB_eq _), completes_of_flags (exec_setBcf s) (setCB_eq _),
      completes_of_flags (exec_di s) (setI_eq _)⟩⟩

end Sys2Proof.Machine
end

section
/-!
SUPPORT and the statements of NOP, EXIT, CALL and SCALL (44_branch_system.md). An instruction of two bytes as its bytes, the
address forms of the opcode map that load PC, and what a call leaves on the Return Stack.
-/

namespace Sys2Proof.Machine

open Sys2Proof.Laws

/-! ## The encodings -/

/-- A first byte that asks for a second one is an instruction together with it (30_encoding.md R70, R78). -/
theorem decode_of_opLength_two {b0 : Byte} (b1 : Byte) (rest : List Byte) (h : opLength b0 = 2) :
    decode (b0 :: b1 :: rest) = .ok (decodeOp b0 b1, rest) := by
  simp [decode, h]

/-- The counterpart of `encodedAs_singleton` for an instruction of two bytes. -/
theorem encodedAs_pair {i : Instr} {b0 b1 : Byte} (hlen : LengthOfFirstByte.Statement i) (henc : encode i = [b0, b1])
    (hdec : decodeOp b0 b1 = i) : EncodedAs i [b0, b1] := by
  obtain ⟨b', rest, hbytes, hlength⟩ := hlen
  obtain ⟨rfl, -⟩ : b0 = b' ∧ [b1] = rest := List.cons.inj (henc.symm.trans hbytes)
  have htwo : opLength b0 = 2 := by rw [← hlength, henc]; rfl
  exact ⟨henc, by rw [decode_of_opLength_two b1 [] htwo, hdec]⟩

/-- The row `11aaaaaa` of the opcode map (30_encoding.md R73). -/
theorem decodeOp_scall : ∀ a : BitVec 6, decodeOp (0b11#2 ++ a) 0#8 = .scall a := by decide

/-- The row `0100aaaa` of the opcode map: the first byte holds the target's upper nibble (30_encoding.md R74). -/
theorem decodeOp_call (n : Nibble) (b1 : Byte) : decodeOp (0x4#4 ++ n) b1 = .call (n ++ b1) := by
  have htop : ∀ n : Nibble, (0x4#4 ++ n : Byte).extractLsb' 6 2 = 0b01#2 := by decide
  have hhigh : ∀ n : Nibble, (0x4#4 ++ n : Byte).extractLsb' 4 4 = 0x4#4 := by decide
  have hlow : ∀ n : Nibble, (0x4#4 ++ n : Byte).extractLsb' 0 4 = n := by decide
  simp [decodeOp, htop, hhigh, hlow]

/-- A ROM address is its upper nibble and its lower byte. -/
theorem romAddr_split (target : RomAddr) : target.extractLsb' 8 4 ++ target.extractLsb' 0 8 = target :=
  (BitVec.extractLsb'_append_extractLsb'_eq_extractLsb' (x := target) (start₁ := 0) (len₁ := 8) (len₂ := 4) rfl).trans
    BitVec.extractLsb'_eq_self

theorem encodedAs_call (target : RomAddr) :
    EncodedAs (.call target) [0x4#4 ++ target.extractLsb' 8 4, target.extractLsb' 0 8] :=
  encodedAs_pair (LengthOfFirstByte.call target) rfl (by rw [decodeOp_call, romAddr_split])

theorem encodedAs_scall (a : BitVec 6) : EncodedAs (.scall a) [0b11#2 ++ a] :=
  encodedAs_singleton (LengthOfFirstByte.scall a) rfl (decodeOp_scall a)

/-! ## What the instructions leave -/

theorem exec_call (target : RomAddr) (s : State) : exec (.call target) s = finish (s.callTo target 2 3) := rfl

theorem exec_scall (a : BitVec 6) (s : State) : exec (.scall a) s = finish (s.callTo (scallTarget a) 1 2) := rfl

theorem exec_exit (s : State) : exec .exit s = finish (s.rpop >>= fun r => .ok (r.2.jump r.1 2)) := rfl

/-- NOP and the codes 7Dh to 7Fh have one meaning (R170, R171). -/
theorem exec_nop {i : Instr} (hi : i ∈ [Instr.nop, .nop7D, .nop7E, .nop7F]) (s : State) :
    exec i s = .next (s.advance 1 1) := by
  simp only [List.mem_cons, List.not_mem_nil, or_false] at hi
  obtain rfl | rfl | rfl | rfl := hi <;> rfl

/-- Three zero bits below the operand multiply it by 8 (R164). -/
theorem scallTarget_eq (a : BitVec 6) : scallTarget a = BitVec.ofNat 12 (8 * a.toNat) := by
  have happend : (scallTarget a).toNat = (0#3 ++ a).toNat <<< 3 ||| 0 := BitVec.toNat_append (0#3 ++ a) 0#3
  have hlt := a.isLt
  apply BitVec.eq_of_toNat_eq
  simp only [happend, BitVec.toNat_append, BitVec.toNat_ofNat, Nat.zero_mod, Nat.zero_mul, Nat.zero_or, Nat.or_zero,
    Nat.shiftLeft_eq]
  omega

section

variable {s : State}

theorem rpop_of_rsHas (h : s.rsHas s.rp) : s.rpop = .ok (s.rsAt s.rp, { s with rp := s.rp - 4 }) :=
  rpop_ok_iff.2 ⟨h, rfl, rfl⟩

/-- The frame of CALL and SCALL: `n` is the instruction's length, so that the entry pushed is the next address, and `k` its
cycles (R160). The push of a whole word draws no free value. -/
theorem completes_of_callTo {i : Instr} {target : RomAddr} {n k : Nat} (hexec : exec i s = finish (s.callTo target n k))
    (h : s.rsHas (s.rp + 4)) :
    Completes i s { s with pc := target, rp := s.rp + 4, cycles := s.cycles + k }
      (setEntry s.chip.rsLayout s.ramAt (s.rp + 4) (s.pc + BitVec.ofNat 12 n)) := by
  obtain ⟨u, hpush⟩ := rpush_of_rsHas (s.pc + BitVec.ofNat 12 n) .word h
  obtain ⟨-, hframe, hcells, -⟩ := rpush_ok hpush
  have hcall : s.callTo target n k = .ok (u.jump target k) := by rw [State.callTo, hpush]; rfl
  refine ⟨u.jump target k, by rw [hexec, hcall, finish_ok], ?_, fun b => congrFun hcells b⟩
  rw [hframe]
  rfl

end

/-! ## The statements -/

/-- Settles O13: a call leaves one frame; the two instructions differ in their length, cycles and target. -/
theorem callAndScallResults : Obligations.CallAndScallResults :=
  ⟨encodedAs_call, encodedAs_scall, fun s h =>
    ⟨fun target => completes_of_callTo (exec_call target s) h,
      fun a => completes_of_callTo ((exec_scall a s).trans (by rw [scallTarget_eq])) h⟩⟩

/-- Settles O14: the pop of the entry at RP answers, and PC is loaded with the word it delivers. -/
theorem exitResult : Obligations.ExitResult :=
  ⟨encodedAs_singleton LengthOfFirstByte.exit rfl rfl, fun s h =>
    completes_of_exec (by rw [exec_exit, rpop_of_rsHas h]; rfl)⟩

/-- Settles O19: each of the four codes advances PC and does nothing else. -/
theorem nopResults : Obligations.NopResults :=
  ⟨encodedAs_singleton LengthOfFirstByte.nop rfl rfl, encodedAs_singleton LengthOfFirstByte.nop7D rfl rfl,
    encodedAs_singleton LengthOfFirstByte.nop7E rfl rfl, encodedAs_singleton LengthOfFirstByte.nop7F rfl rfl,
    fun s _ hi => completes_of_exec (exec_nop hi s)⟩

end Sys2Proof.Machine
end

section
/-!
SUPPORT and the statements of RP!, X!, Y!, >SP, >RP, >X and >Y (45_register.md). The byte popped from the Expression Stack as a
whole state, and the instructions that put such a byte, or the one in the instruction, into a register.
-/

namespace Sys2Proof.Machine

open Sys2Proof.Laws

/-! ## A register from the Expression Stack -/

/-- A register instruction that pops a byte (20_memory.md R48); `put` writes it to the register. -/
def storeRegister (put : BitVec 8 → State → State) (s : State) : Host.Outcome State Fault Refusal :=
  finish do
    let (v, s) ← s.popByte
    .ok ((put v s).advance 1 2)

theorem exec_setRp (s : State) : exec .setRp s = storeRegister (fun v t => { t with rp := v }) s := rfl

theorem exec_setX (s : State) : exec .setX s = storeRegister (fun v t => { t with x := v }) s := rfl

theorem exec_setY (s : State) : exec .setY s = storeRegister (fun v t => { t with y := v }) s := rfl

section

variable {i : Instr} {s : State}

/-- The first pop takes TOS as the low nibble and refills it with the cell at SP, which the second takes as the high one. -/
theorem popByte_of_ramHas (h0 : s.ramHas s.sp) (h1 : s.ramHas (s.sp - 1)) :
    s.popByte = .ok (s.ramAt s.sp ++ s.tos, { s with tos := s.ramAt (s.sp - 1), sp := s.sp - 2 }) := by
  have hlow : s.pop = .ok (s.tos, { s with tos := s.ramAt s.sp, sp := s.sp - 1 }) := pop_ok_iff.2 ⟨h0, rfl, rfl⟩
  have hsp : s.sp - 2 = s.sp - 1 - 1 := by bv_omega
  have hhigh : { s with tos := s.ramAt s.sp, sp := s.sp - 1 }.pop =
      .ok (s.ramAt s.sp, { s with tos := s.ramAt (s.sp - 1), sp := s.sp - 2 }) :=
    pop_ok_iff.2 ⟨h1, rfl, by rw [hsp]; rfl⟩
  exact popByte_ok_iff.2 ⟨_, _, _, hlow, hhigh, rfl⟩

/-- What RP!, X! and Y! leave: the two pops, and the byte in the register that `put` writes. -/
theorem completes_of_storeRegister {put : BitVec 8 → State → State} {t : State} (hexec : exec i s = storeRegister put s)
    (h0 : s.ramHas s.sp) (h1 : s.ramHas (s.sp - 1))
    (ht : (put (s.ramAt s.sp ++ s.tos) { s with tos := s.ramAt (s.sp - 1), sp := s.sp - 2 }).advance 1 2 = t) :
    Completes i s t t.ramAt := by
  have hstore : storeRegister put s = .next t := by
    rw [storeRegister, popByte_of_ramHas h0 h1, ← ht]
    rfl
  exact completes_of_exec (hexec.trans hstore)

end

/-! ## A register from the instruction -/

theorem exec_loadSp (v : RamAddr) (s : State) : exec (.loadSp v) s = .next ({ s with sp := v }.advance 2 2) := rfl

theorem exec_loadRp (v : RamAddr) (s : State) : exec (.loadRp v) s = .next ({ s with rp := v }.advance 2 2) := rfl

theorem exec_loadX (v : RamAddr) (s : State) : exec (.loadX v) s = .next ({ s with x := v }.advance 2 2) := rfl

theorem exec_loadY (v : RamAddr) (s : State) : exec (.loadY v) s = .next ({ s with y := v }.advance 2 2) := rfl

/-! ## The statements -/

/-- Settles O23: the three pop one byte and differ in the register they put it in. -/
theorem registerStoreResults : Obligations.RegisterStoreResults :=
  ⟨encodedAs_singleton LengthOfFirstByte.setRp rfl rfl, encodedAs_singleton LengthOfFirstByte.setX rfl rfl,
    encodedAs_singleton LengthOfFirstByte.setY rfl rfl,
    fun s h0 h1 => ⟨completes_of_storeRegister (exec_setRp s) h0 h1 rfl,
      completes_of_storeRegister (exec_setX s) h0 h1 rfl, completes_of_storeRegister (exec_setY s) h0 h1 rfl⟩⟩

/-- Settles O24: each puts its second byte in a register, in every state, since no cell is asked for. -/
theorem registerLoadResults : Obligations.RegisterLoadResults := fun v =>
  ⟨encodedAs_pair (LengthOfFirstByte.loadSp v) rfl rfl, encodedAs_pair (LengthOfFirstByte.loadRp v) rfl rfl,
    encodedAs_pair (LengthOfFirstByte.loadX v) rfl rfl, encodedAs_pair (LengthOfFirstByte.loadY v) rfl rfl,
    fun s => ⟨completes_of_exec (exec_loadSp v s), completes_of_exec (exec_loadRp v s),
      completes_of_exec (exec_loadX v s), completes_of_exec (exec_loadY v s)⟩⟩

end Sys2Proof.Machine
end

section
/-!
SUPPORT and the statements of 46_stack.md. A push and a pop as whole states, what a chain of pushes leaves in RAM, what a push
to the Return Stack leaves after pops, and the stack instructions as such chains.
-/

namespace Sys2Proof.Machine

open Sys2Proof.Laws

/-! ## The encoding of LIT_n -/

/-- The row `0110nnnn` of the opcode map (30_encoding.md R72). -/
theorem decodeOp_lit : ∀ n : Nibble, decodeOp (0x6#4 ++ n) 0#8 = .lit n := by decide

theorem encodedAs_lit (n : Nibble) : EncodedAs (.lit n) [0x6#4 ++ n] :=
  encodedAs_singleton (LengthOfFirstByte.lit n) rfl (decodeOp_lit n)

/-! ## A push and a pop as states -/

/-- The state a push of `v` answers (10_state.md R16). -/
def State.pushed (s : State) (v : Nibble) : State :=
  { s.withRam (s.sp + 1) s.tos with sp := s.sp + 1, tos := v }

/-- The state a pop answers with the old TOS (10_state.md R16). -/
def State.popped (s : State) : State :=
  { s with tos := s.ramAt s.sp, sp := s.sp - 1 }

section

variable {i : Instr} {s : State}

theorem pushed_ramAt (s : State) (v : Nibble) : (s.pushed v).ramAt = setCell s.ramAt (s.sp + 1) s.tos :=
  ramAt_withRam_eq s (s.sp + 1) s.tos

theorem ramRead_of_ramHas {a : RamAddr} (h : s.ramHas a) : s.ramRead a = .ok (s.ramAt a) :=
  ramRead_ok_iff.2 ⟨h, rfl⟩

theorem ramWrite_of_ramHas {a : RamAddr} (v : Nibble) (h : s.ramHas a) : s.ramWrite a v = .ok (s.withRam a v) :=
  ramWrite_ok_iff.2 ⟨h, rfl⟩

theorem rsRead_of_rsHas {a : RamAddr} (h : s.rsHas a) : s.rsRead a = .ok (s.rsAt a) :=
  rsRead_ok_iff.2 ⟨h, rfl⟩

theorem push_of_ramHas (v : Nibble) (h : s.ramHas (s.sp + 1)) : s.push v = .ok (s.pushed v) :=
  push_ok_iff.2 ⟨h, rfl⟩

theorem pop_of_ramHas (h : s.ramHas s.sp) : s.pop = .ok (s.tos, s.popped) :=
  pop_ok_iff.2 ⟨h, rfl, rfl⟩

/-- A step to an explicit state completes as any record says that is this state but for RAM. -/
theorem completes_of_next {t expected : State} {cells : RamAddr → Nibble} (hexec : exec i s = .next t)
    (hframe : t = { expected with ram := t.ram }) (hcells : t.ramAt = cells) : Completes i s expected cells :=
  ⟨t, hexec, hframe, congrFun hcells⟩

end

/-! ## The nibbles that land in a Return Stack entry -/

theorem entryL_append (h : BitVec 8) (l : Nibble) : entryL (h ++ l) = l :=
  BitVec.extractLsb'_append_eq_right

theorem entryM_append (h m l : Nibble) : entryM (h ++ m ++ l) = m := by
  unfold entryM
  rw [BitVec.extractLsb'_append_eq_of_le (by decide)]
  exact BitVec.extractLsb'_append_eq_right

/-- A push that defines bits 3 to 0 alone leaves two free nibbles above them (R206). -/
theorem rsWord_low4 (s : State) (h : BitVec 8) (l : Nibble) :
    s.rsWord (h ++ l) .low4 = Config.freeRsNibble s.draws 2 ++ Config.freeRsNibble s.draws 1 ++ l := by
  rw [State.rsWord, entryL_append]

/-- A push that defines bits 7 to 0 leaves one free nibble above them (R207). -/
theorem rsWord_low8 (s : State) (h m l : Nibble) :
    s.rsWord (h ++ m ++ l) .low8 = Config.freeRsNibble s.draws 2 ++ m ++ l := by
  rw [State.rsWord, entryM_append, entryL_append]

/-! ## The instructions as chains of the shared operations -/

theorem exec_swap (s : State) :
    exec .swap s = finish (s.ramRead s.sp >>= fun n1 => s.ramWrite s.sp s.tos >>= fun t =>
      .ok ({ t with tos := n1 }.advance 1 1)) := rfl

theorem exec_rot (s : State) :
    exec .rot s = finish (s.ramRead s.sp >>= fun n2 => s.ramRead (s.sp - 1) >>= fun n1 =>
      s.ramWrite (s.sp - 1) n2 >>= fun t => t.ramWrite t.sp s.tos >>= fun t =>
        .ok ({ t with tos := n1 }.advance 1 3)) := rfl

theorem exec_overCopy (s : State) :
    exec .overCopy s = finish (s.ramRead s.sp >>= fun n1 => s.push n1 >>= fun t => .ok (t.advance 1 1)) := rfl

theorem exec_dup (s : State) : exec .dup s = finish (s.push s.tos >>= fun t => .ok (t.advance 1 1)) := rfl

theorem exec_lit (n : Nibble) (s : State) : exec (.lit n) s = finish (s.push n >>= fun t => .ok (t.advance 1 1)) := rfl

theorem exec_drop (s : State) : exec .drop s = finish (s.pop >>= fun r => .ok (r.2.advance 1 1)) := rfl

theorem exec_dropr (s : State) : exec .dropr s = .next ({ s with rp := s.rp - 4 }.advance 1 1) := rfl

theorem exec_toR (s : State) :
    exec .toR s = finish (s.pop >>= fun r => r.2.rpush (0#8 ++ r.1) .low4 >>= fun t => .ok (t.advance 1 1)) := rfl

theorem exec_twoToR (s : State) :
    exec .twoToR s = finish (s.pop >>= fun r2 => r2.2.pop >>= fun r1 =>
      r1.2.rpush (0#4 ++ r1.1 ++ r2.1) .low8 >>= fun t => .ok (t.advance 1 3)) := rfl

theorem exec_threeToR (s : State) :
    exec .threeToR s = finish (s.pop >>= fun r3 => r3.2.pop >>= fun r2 => r2.2.pop >>= fun r1 =>
      r1.2.rpush (r1.1 ++ r2.1 ++ r3.1) .word >>= fun t => .ok (t.advance 1 4)) := rfl

theorem exec_rCopy (s : State) :
    exec .rCopy s = finish (s.rsRead s.rp >>= fun w => s.push (entryL w) >>= fun t => .ok (t.advance 1 1)) := rfl

theorem exec_twoRCopy (s : State) :
    exec .twoRCopy s = finish (s.rsRead s.rp >>= fun w => s.push (entryM w) >>= fun t => t.push (entryL w) >>= fun t =>
      .ok (t.advance 1 2)) := rfl

theorem exec_threeRCopy (s : State) :
    exec .threeRCopy s = finish (s.rsRead s.rp >>= fun w => s.push (entryH w) >>= fun t => t.push (entryM w) >>= fun t =>
      t.push (entryL w) >>= fun t => .ok (t.advance 1 4)) := rfl

/-! ## What a chain leaves that ends in a push -/

section

variable {i : Instr} {s u : State} {k : Nat}

/-- The frame of an instruction that, once it has come to `u`, pushes `v` and ends. -/
theorem completes_of_push {v : Nibble} {cells : RamAddr → Nibble}
    (hexec : exec i s = finish (u.push v >>= fun t => .ok (t.advance 1 k))) (h : u.ramHas (u.sp + 1))
    (hcells : setCell u.ramAt (u.sp + 1) u.tos = cells) :
    Completes i s { u with pc := u.pc + 1, tos := v, sp := u.sp + 1, cycles := u.cycles + k } cells := by
  rw [push_of_ramHas v h] at hexec
  exact completes_of_next hexec rfl ((pushed_ramAt u v).trans hcells)

/-- The frame of an instruction that, once it has come to `u`, pushes the nibbles of `w` that `mask` defines to the Return
Stack and ends; `v` is the word that lands in the entry. -/
theorem completes_of_rpush {w v : RomAddr} {mask : RsMask}
    (hexec : exec i s = finish (u.rpush w mask >>= fun t => .ok (t.advance 1 k))) (h : u.rsHas (u.rp + 4))
    (hword : u.rsWord w mask = v) :
    Completes i s
      { u with pc := u.pc + 1, rp := u.rp + 4, draws := u.draws + mask.draws, cycles := u.cycles + k }
      (setEntry u.chip.rsLayout u.ramAt (u.rp + 4) v) := by
  obtain ⟨t, hpush⟩ := rpush_of_rsHas w mask h
  obtain ⟨-, hframe, hcells, -⟩ := rpush_ok hpush
  rw [hpush] at hexec
  refine completes_of_next (t := t.advance 1 k) hexec ?_ (hword ▸ hcells)
  rw [hframe]
  rfl

end

/-! ## The statements -/

/-- Settles O25: both read before they write, so the writes are of the old values, ROT's to the lower cell first. -/
theorem swapAndRotResults : Obligations.SwapAndRotResults := by
  refine ⟨encodedAs_singleton LengthOfFirstByte.swap rfl rfl, encodedAs_singleton LengthOfFirstByte.rot rfl rfl,
    fun s h0 => ⟨?swap, fun h1 => ?rot⟩⟩
  case swap =>
    have hexec := exec_swap s
    rw [ramRead_of_ramHas h0, res_bind_ok, ramWrite_of_ramHas _ h0] at hexec
    exact completes_of_next hexec rfl (ramAt_withRam_eq _ _ _)
  case rot =>
    have hexec := exec_rot s
    have hupper : (s.withRam (s.sp - 1) (s.ramAt s.sp)).ramHas s.sp := h0
    rw [ramRead_of_ramHas h0, res_bind_ok, ramRead_of_ramHas h1, res_bind_ok, ramWrite_of_ramHas _ h1, res_bind_ok,
      withRam_sp, ramWrite_of_ramHas _ hupper] at hexec
    refine completes_of_next hexec rfl ?_
    rw [← ramAt_withRam_eq]
    exact ramAt_withRam_eq _ _ _

/-- Settles O26: the three end in one push and differ in the nibble they push. -/
theorem overDupAndLitResults : Obligations.OverDupAndLitResults := by
  refine ⟨encodedAs_singleton LengthOfFirstByte.overCopy rfl rfl, encodedAs_singleton LengthOfFirstByte.dup rfl rfl,
    encodedAs_lit, fun s h => ⟨fun h0 => ?overCopy, completes_of_push (exec_dup s) h rfl,
      fun n => completes_of_push (exec_lit n s) h rfl⟩⟩
  case overCopy =>
    have hexec := exec_overCopy s
    rw [ramRead_of_ramHas h0, res_bind_ok] at hexec
    exact completes_of_push hexec h rfl

/-- Settles O28: the pops take the nibbles off without a write, so the entry is written over the old cells and its free
nibbles are those of the old count of draws. -/
theorem moveToReturnStackResults : Obligations.MoveToReturnStackResults := by
  refine ⟨encodedAs_singleton LengthOfFirstByte.toR rfl rfl, encodedAs_singleton LengthOfFirstByte.twoToR rfl rfl,
    encodedAs_singleton LengthOfFirstByte.threeToR rfl rfl, fun s hentry h0 => ?_⟩
  have hsp2 : s.sp - 2 = s.sp - 1 - 1 := by bv_omega
  have hsp3 : s.sp - 3 = s.sp - 1 - 1 - 1 := by bv_omega
  rw [hsp2, hsp3]
  refine ⟨?toR, fun h1 => ⟨?twoToR, fun h2 => ?threeToR⟩⟩
  case toR =>
    have hexec := exec_toR s
    rw [pop_of_ramHas h0, res_bind_ok] at hexec
    exact completes_of_rpush hexec hentry (rsWord_low4 s _ _)
  case twoToR =>
    have hexec := exec_twoToR s
    rw [pop_of_ramHas h0, res_bind_ok, pop_of_ramHas (s := s.popped) h1, res_bind_ok] at hexec
    exact completes_of_rpush hexec hentry (rsWord_low8 s _ _ _)
  case threeToR =>
    have hexec := exec_threeToR s
    rw [pop_of_ramHas h0, res_bind_ok, pop_of_ramHas (s := s.popped) h1, res_bind_ok,
      pop_of_ramHas (s := s.popped.popped) h2, res_bind_ok] at hexec
    exact completes_of_rpush hexec hentry rfl

/-- Settles O29: the entry is read before the first push, and each push spills the nibble of the one before it. -/
theorem copyFromReturnStackResults : Obligations.CopyFromReturnStackResults := by
  refine ⟨encodedAs_singleton LengthOfFirstByte.rCopy rfl rfl, encodedAs_singleton LengthOfFirstByte.twoRCopy rfl rfl,
    encodedAs_singleton LengthOfFirstByte.threeRCopy rfl rfl, fun s hentry h1 => ?_⟩
  have hsp2 : s.sp + 2 = s.sp + 1 + 1 := by bv_omega
  have hsp3 : s.sp + 3 = s.sp + 1 + 1 + 1 := by bv_omega
  rw [hsp2, hsp3]
  refine ⟨?rCopy, fun h2 => ⟨?twoRCopy, fun h3 => ?threeRCopy⟩⟩
  case rCopy =>
    have hexec := exec_rCopy s
    rw [rsRead_of_rsHas hentry, res_bind_ok] at hexec
    exact completes_of_push hexec h1 rfl
  case twoRCopy =>
    have hexec := exec_twoRCopy s
    rw [rsRead_of_rsHas hentry, res_bind_ok, push_of_ramHas _ h1, res_bind_ok] at hexec
    exact completes_of_push hexec h2 (by rw [pushed_ramAt]; rfl)
  case threeRCopy =>
    have hexec := exec_threeRCopy s
    rw [rsRead_of_rsHas hentry, res_bind_ok, push_of_ramHas _ h1, res_bind_ok,
      push_of_ramHas (s := s.pushed _) _ h2, res_bind_ok] at hexec
    exact completes_of_push hexec h3 (by rw [pushed_ramAt, pushed_ramAt]; rfl)

/-- Settles O27: DROP is a pop whose nibble is not used; DROPR asks for no cell and so completes in every state. -/
theorem dropAndDroprResults : Obligations.DropAndDroprResults := by
  refine ⟨encodedAs_singleton LengthOfFirstByte.drop rfl rfl, encodedAs_singleton LengthOfFirstByte.dropr rfl rfl,
    fun s => ⟨fun h => ?drop, completes_of_exec (exec_dropr s)⟩⟩
  case drop =>
    have hexec := exec_drop s
    rw [pop_of_ramHas h] at hexec
    exact completes_of_exec hexec

end Sys2Proof.Machine
end

section
/-!
SUPPORT and the statements of IN and of the fetches and stores through X and Y (47_memory_io.md). The sixteen memory instructions
are a register and an addressing mode each, so what they leave is said once for the fetches and once for the stores.
-/

namespace Sys2Proof.Machine

open Sys2Proof.Laws

/-! ## The memory instructions as a register and an addressing mode -/

/-- The fetch through `r` in the mode `m` (R221 to R228). -/
def ptrFetch (r : PtrReg) (m : PtrMode) : Instr :=
  match r, m with
  | .x, .indirect => .fetchX
  | .x, .preIncrement => .fetchIncX
  | .x, .postDecrement => .fetchXDec
  | .x, .direct a => .fetchDirX a
  | .y, .indirect => .fetchY
  | .y, .preIncrement => .fetchIncY
  | .y, .postDecrement => .fetchYDec
  | .y, .direct a => .fetchDirY a

/-- The store through `r` in the mode `m` (R229 to R236). -/
def ptrStore (r : PtrReg) (m : PtrMode) : Instr :=
  match r, m with
  | .x, .indirect => .storeX
  | .x, .preIncrement => .storeIncX
  | .x, .postDecrement => .storeXDec
  | .x, .direct a => .storeDirX a
  | .y, .indirect => .storeY
  | .y, .preIncrement => .storeIncY
  | .y, .postDecrement => .storeYDec
  | .y, .direct a => .storeDirY a

/-- The bytes of an instruction in the mode `m`, and as many cycles: a direct address is a second byte. -/
def PtrMode.length (m : PtrMode) : Nat :=
  match m with
  | .direct _ => 2
  | _ => 1

theorem exec_ptrFetch (r : PtrReg) (m : PtrMode) (s : State) :
    exec (ptrFetch r m) s = finish (s.fetchVia r m >>= fun t => .ok (t.advance m.length m.length)) := by
  cases r <;> cases m <;> rfl

theorem exec_ptrStore (r : PtrReg) (m : PtrMode) (s : State) :
    exec (ptrStore r m) s = finish (s.storeVia r m >>= fun t => .ok (t.advance m.length m.length)) := by
  cases r <;> cases m <;> rfl

/-! ## What a fetch and a store leave -/

section

variable {i : Instr} {s u : State} {r : PtrReg} {m : PtrMode}

@[simp] theorem setPtr_ramAt (s : State) (r : PtrReg) (v : RamAddr) : (s.setPtr r v).ramAt = s.ramAt := by
  cases r <;> rfl

theorem ramAt_withRam_of_ne {a b : RamAddr} (v : Nibble) (h : a ≠ b) : (s.withRam a v).ramAt b = s.ramAt b := by
  rw [ramAt_withRam, if_neg h.symm]

theorem fetchVia_of_ramHas (hsp : s.ramHas (s.sp + 1)) (hea : s.ramHas (m.ea (s.ptr r)))
    (hne : m.ea (s.ptr r) ≠ s.sp + 1) :
    s.fetchVia r m = .ok ((s.pushed (s.ramAt (m.ea (s.ptr r)))).setPtr r (m.after (s.ptr r))) := by
  unfold State.fetchVia
  simp only [hne, if_false, ramRead_of_ramHas hea, push_of_ramHas _ hsp, res_bind_ok]

theorem storeVia_of_ramHas (hsp : s.ramHas s.sp) (hea : s.ramHas (m.ea (s.ptr r))) (hne : m.ea (s.ptr r) ≠ s.sp) :
    s.storeVia r m = .ok ((s.withRam (m.ea (s.ptr r)) s.tos).popped.setPtr r (m.after (s.ptr r))) := by
  have hpop := pop_of_ramHas (s := s.withRam (m.ea (s.ptr r)) s.tos) hsp
  unfold State.storeVia
  simp only [hne, if_false, ramWrite_of_ramHas _ hea, hpop, res_bind_ok]

/-- The frame of an instruction that comes to `u`, where TOS, SP and RAM alone differ from `s`, and ends with `v` in `r`. -/
theorem completes_of_setPtr {v sp : RamAddr} {tos : Nibble} {n : Nat} {cells : RamAddr → Nibble}
    (hexec : exec i s = .next ((u.setPtr r v).advance n n)) (hu : u = { s with tos := tos, sp := sp, ram := u.ram })
    (hcells : u.ramAt = cells) :
    Completes i s { (s.setPtr r v).advance n n with tos := tos, sp := sp } cells := by
  refine completes_of_next hexec ?_ ((setPtr_ramAt u r v).trans hcells)
  rw [hu]
  cases r <;> rfl

/-- A fetch pushes the cell at the effective address; it is not the cell TOS is spilled to (R237). -/
theorem completes_ptrFetch (r : PtrReg) (m : PtrMode) (hsp : s.ramHas (s.sp + 1)) (hea : s.ramHas (m.ea (s.ptr r)))
    (hne : m.ea (s.ptr r) ≠ s.sp + 1) :
    Completes (ptrFetch r m) s
      { (s.setPtr r (m.after (s.ptr r))).advance m.length m.length with
        tos := s.ramAt (m.ea (s.ptr r)), sp := s.sp + 1 }
      (setCell s.ramAt (s.sp + 1) s.tos) := by
  have hexec := exec_ptrFetch r m s
  rw [fetchVia_of_ramHas hsp hea hne] at hexec
  exact completes_of_setPtr hexec rfl (pushed_ramAt s _)

/-- A store writes before it pops; the cell that refills TOS is not the one written, so it is the old one. -/
theorem completes_ptrStore (r : PtrReg) (m : PtrMode) (hsp : s.ramHas s.sp) (hea : s.ramHas (m.ea (s.ptr r)))
    (hne : m.ea (s.ptr r) ≠ s.sp) :
    Completes (ptrStore r m) s
      { (s.setPtr r (m.after (s.ptr r))).advance m.length m.length with tos := s.ramAt s.sp, sp := s.sp - 1 }
      (setCell s.ramAt (m.ea (s.ptr r)) s.tos) := by
  have hexec := exec_ptrStore r m s
  rw [storeVia_of_ramHas hsp hea hne] at hexec
  refine completes_of_setPtr hexec ?_ (ramAt_withRam_eq s _ _)
  rw [← ramAt_withRam_of_ne s.tos hne]
  rfl

end

/-! ## What IN leaves -/

/-- The nibble IN tests for zero on a chip with the parameter `o`, `p` being the port and `n` the nibble read (R240, D11). -/
def inTested (o : Config.InBranchOperand) (p : Port) (n : Nibble) : Nibble :=
  match o with
  | .port => p
  | .data => n

theorem exec_inPort (s : State) :
    exec .inPort s =
      let n := Config.portNibble s.draws s.tos
      let t : State := { s with draws := s.draws + 1, tos := n }
      .next ((t.setB (inTested s.chip.inBranch s.tos n == 0#4)).advance 1 1) := rfl

theorem completes_inPort {s : State} {tested : Nibble}
    (h : inTested s.chip.inBranch s.tos (Config.portNibble s.draws s.tos) = tested) :
    Completes .inPort s
      { s with
        pc := s.pc + 1, tos := Config.portNibble s.draws s.tos
        ccr := { c := s.ccr.c, ccr2 := Config.freeCcr2 (s.draws + 1), b := decide (tested = 0#4), i := s.ccr.i }
        draws := s.draws + 2, cycles := s.cycles + 1 } s.ramAt :=
  h ▸ completes_of_exec (exec_inPort s)

/-! ## The statements -/

/-- Settles O34: the two values of `IN_BRANCH_OPERAND` differ in the nibble tested alone. -/
theorem inResult : Obligations.InResult :=
  ⟨encodedAs_singleton LengthOfFirstByte.inPort rfl rfl, fun _ =>
    ⟨fun hport => completes_inPort (by rw [hport]; rfl), fun hdata => completes_inPort (by rw [hdata]; rfl)⟩⟩

/-- Settles O31: the eight fetches are the two registers in the four modes of `completes_ptrFetch`. -/
theorem fetchThroughXAndYResults : Obligations.FetchThroughXAndYResults :=
  ⟨encodedAs_singleton LengthOfFirstByte.fetchX rfl rfl, encodedAs_singleton LengthOfFirstByte.fetchIncX rfl rfl,
    encodedAs_singleton LengthOfFirstByte.fetchXDec rfl rfl,
    fun a => encodedAs_pair (LengthOfFirstByte.fetchDirX a) rfl rfl,
    encodedAs_singleton LengthOfFirstByte.fetchY rfl rfl, encodedAs_singleton LengthOfFirstByte.fetchIncY rfl rfl,
    encodedAs_singleton LengthOfFirstByte.fetchYDec rfl rfl,
    fun a => encodedAs_pair (LengthOfFirstByte.fetchDirY a) rfl rfl,
    fun _ hsp => ⟨completes_ptrFetch .x .indirect hsp, completes_ptrFetch .x .preIncrement hsp,
      completes_ptrFetch .x .postDecrement hsp, fun a => completes_ptrFetch .x (.direct a) hsp,
      completes_ptrFetch .y .indirect hsp, completes_ptrFetch .y .preIncrement hsp,
      completes_ptrFetch .y .postDecrement hsp, fun a => completes_ptrFetch .y (.direct a) hsp⟩⟩

/-- Settles O32: the eight stores are the two registers in the four modes of `completes_ptrStore`. -/
theorem storeThroughXAndYResults : Obligations.StoreThroughXAndYResults :=
  ⟨encodedAs_singleton LengthOfFirstByte.storeX rfl rfl, encodedAs_singleton LengthOfFirstByte.storeIncX rfl rfl,
    encodedAs_singleton LengthOfFirstByte.storeXDec rfl rfl,
    fun a => encodedAs_pair (LengthOfFirstByte.storeDirX a) rfl rfl,
    encodedAs_singleton LengthOfFirstByte.storeY rfl rfl, encodedAs_singleton LengthOfFirstByte.storeIncY rfl rfl,
    encodedAs_singleton LengthOfFirstByte.storeYDec rfl rfl,
    fun a => encodedAs_pair (LengthOfFirstByte.storeDirY a) rfl rfl,
    fun _ hsp => ⟨completes_ptrStore .x .indirect hsp, completes_ptrStore .x .preIncrement hsp,
      completes_ptrStore .x .postDecrement hsp, fun a => completes_ptrStore .x (.direct a) hsp,
      completes_ptrStore .y .indirect hsp, completes_ptrStore .y .preIncrement hsp,
      completes_ptrStore .y .postDecrement hsp, fun a => completes_ptrStore .y (.direct a) hsp⟩⟩

end Sys2Proof.Machine
end

section
/-!
SUPPORT and the statements of 30_encoding.md on the decoder and the encoder, and of 60_exceptions.md on the vectors. Where a row of
the opcode map is all opcode the two evaluate; what is proved here is about the rows with a field.
-/

namespace Sys2Proof.Machine

open Sys2Proof.Laws

/-! ## The rows of the opcode map with a field -/

/-- The row `0101aaaa` of the opcode map: the first byte holds the target's upper nibble (30_encoding.md R74). -/
theorem decodeOp_bra (n : Nibble) (b1 : Byte) : decodeOp (0x5#4 ++ n) b1 = .bra (n ++ b1) := by
  have htop : ∀ n : Nibble, (0x5#4 ++ n : Byte).extractLsb' 6 2 = 0b01#2 := by decide
  have hhigh : ∀ n : Nibble, (0x5#4 ++ n : Byte).extractLsb' 4 4 = 0x5#4 := by decide
  have hlow : ∀ n : Nibble, (0x5#4 ++ n : Byte).extractLsb' 0 4 = n := by decide
  simp [decodeOp, htop, hhigh, hlow]

/-- The row `10aaaaaa` of the opcode map (30_encoding.md R73). -/
theorem decodeOp_sbra : ∀ a : BitVec 6, decodeOp (0b10#2 ++ a) 0#8 = .sbra a := by decide

theorem encodedAs_bra (target : RomAddr) :
    EncodedAs (.bra target) [0x5#4 ++ target.extractLsb' 8 4, target.extractLsb' 0 8] :=
  encodedAs_pair (LengthOfFirstByte.bra target) rfl (by rw [decodeOp_bra, romAddr_split])

theorem encodedAs_sbra (a : BitVec 6) : EncodedAs (.sbra a) [0b10#2 ++ a] :=
  encodedAs_singleton (LengthOfFirstByte.sbra a) rfl (decodeOp_sbra a)

/-! ## Decoding what was encoded -/

/-- What the decoder can do: it consumes two bytes or one, as the first byte says (30_encoding.md R70). -/
theorem decode_ok_cases {bytes rest : List Byte} {i : Instr} (h : decode bytes = .ok (i, rest)) :
    (∃ b0 b1, opLength b0 = 2 ∧ bytes = b0 :: b1 :: rest ∧ i = decodeOp b0 b1) ∨
      ∃ b0, opLength b0 ≠ 2 ∧ bytes = b0 :: rest ∧ i = decodeOp b0 0#8 := by
  match bytes with
  | [] => cases h
  | b0 :: tail =>
    by_cases hlen : opLength b0 = 2
    · match tail with
      | [] => simp [decode, hlen] at h
      | b1 :: tail =>
        simp only [decode, hlen, if_true, Except.ok.injEq, Prod.mk.injEq] at h
        obtain ⟨rfl, rfl⟩ := h
        exact .inl ⟨b0, b1, hlen, rfl, rfl⟩
    · simp only [decode, hlen, if_false, Except.ok.injEq, Prod.mk.injEq] at h
      obtain ⟨rfl, rfl⟩ := h
      exact .inr ⟨b0, hlen, rfl, rfl⟩

/-- What the decoder consumes does not depend on the bytes after it (R78). -/
theorem decode_append {bytes : List Byte} {i : Instr} (rest : List Byte) (h : decode bytes = .ok (i, [])) :
    decode (bytes ++ rest) = .ok (i, rest) := by
  obtain ⟨b0, b1, hlen, rfl, rfl⟩ | ⟨b0, hlen, rfl, rfl⟩ := decode_ok_cases h
  · exact decode_of_opLength_two b1 rest hlen
  · simp [decode, hlen]

/-- The decoder reads an instruction from its encoding. -/
theorem decode_encode (i : Instr) : decode (encode i) = .ok (i, []) := by
  cases i with
  | call target => exact (encodedAs_call target).2
  | bra target => exact (encodedAs_bra target).2
  | lit n => exact (encodedAs_lit n).2
  | sbra a => exact (encodedAs_sbra a).2
  | scall a => exact (encodedAs_scall a).2
  | _ => rfl

/-- Settles O41: the encoding alone decodes to the instruction, and the bytes after it are not looked at. -/
theorem decodeOfEncode : Obligations.DecodeOfEncode := fun i rest => decode_append rest (decode_encode i)

/-! ## Encoding what was decoded -/

/-- The first bytes that ask for a second one (30_encoding.md R70). -/
theorem opLength_two_cases : ∀ b : Byte, opLength b = 2 →
    (∃ n : Nibble, b = 0x4#4 ++ n) ∨ (∃ n : Nibble, b = 0x5#4 ++ n) ∨
      b ∈ [0x33#8, 0x37#8, 0x3B#8, 0x3F#8, 0x78#8, 0x79#8, 0x7A#8, 0x7B#8] := by decide

theorem encode_call_append (n : Nibble) (b1 : Byte) : encode (.call (n ++ b1)) = [0x4#4 ++ n, b1] := by
  have hupper : (n ++ b1).extractLsb' 8 4 = n := BitVec.extractLsb'_append_eq_left
  have hlower : (n ++ b1).extractLsb' 0 8 = b1 := BitVec.extractLsb'_append_eq_right
  rw [encode, hupper, hlower]

theorem encode_bra_append (n : Nibble) (b1 : Byte) : encode (.bra (n ++ b1)) = [0x5#4 ++ n, b1] := by
  have hupper : (n ++ b1).extractLsb' 8 4 = n := BitVec.extractLsb'_append_eq_left
  have hlower : (n ++ b1).extractLsb' 0 8 = b1 := BitVec.extractLsb'_append_eq_right
  rw [encode, hupper, hlower]

/-- The second byte is all operand, so only the rows with an operand in the first byte are not evaluated. -/
theorem encode_decodeOp_two {b0 : Byte} (b1 : Byte) (h : opLength b0 = 2) : encode (decodeOp b0 b1) = [b0, b1] := by
  obtain ⟨n, rfl⟩ | ⟨n, rfl⟩ | hb := opLength_two_cases b0 h
  · rw [decodeOp_call, encode_call_append]
  · rw [decodeOp_bra, encode_bra_append]
  · simp only [List.mem_cons, List.not_mem_nil, or_false] at hb
    obtain rfl | rfl | rfl | rfl | rfl | rfl | rfl | rfl := hb <;> rfl

theorem encode_decodeOp_one : ∀ b : Byte, opLength b ≠ 2 → encode (decodeOp b 0#8) = [b] := by decide

/-- Settles O42: two bytes or one were consumed, and each is read back from the row it selects. -/
theorem encodeOfDecode : Obligations.EncodeOfDecode := by
  intro bytes rest i h
  obtain ⟨b0, b1, hlen, rfl, rfl⟩ | ⟨b0, hlen, rfl, rfl⟩ := decode_ok_cases h
  · rw [encode_decodeOp_two b1 hlen]; rfl
  · rw [encode_decodeOp_one b0 hlen]; rfl

/-! ## Fixed words -/

/-- Settles O43: closed words, so the decoder evaluates. -/
theorem sampleWordsDecode : Obligations.SampleWordsDecode := ⟨rfl, rfl, rfl, rfl, rfl, rfl, rfl, rfl⟩

/-- Settles O47: a vector is the target of the SCALL whose operand is its eighth. -/
theorem interruptVectors : Obligations.InterruptVectors := by
  refine ⟨rfl, fun p hp => ⟨p.2.extractLsb' 0 6, ?_⟩⟩
  fin_cases hp <;> exact ⟨rfl, rfl⟩

end Sys2Proof.Machine
end

section
/-!
SUPPORT. The remaining instructions as chains of the shared operations, and how such a chain runs.
-/

namespace Sys2Proof.Machine

/-! ## The instructions as chains of the shared operations -/

theorem exec_decr (s : State) :
    exec .decr s = finish (s.rsRead s.rp >>= fun w =>
      s.rsWrite s.rp (entryH w ++ entryM w ++ (entryL w - 1#4)) .low4 >>= fun t =>
        .ok ((t.setB (entryL w - 1#4 != 0#4)).advance 1 2)) := rfl

theorem exec_ccrFetch (s : State) :
    exec .ccrFetch s = finish (s.push s.ccr.toNibble >>= fun t => .ok (t.advance 1 1)) := rfl

theorem exec_ccrStore (s : State) :
    exec .ccrStore s = finish (s.pop >>= fun r => .ok ({ r.2 with ccr := Ccr.ofNibble r.1 }.advance 1 1)) := rfl

theorem exec_setSp (s : State) :
    exec .setSp s = finish (s.ramRead s.sp >>= fun dh =>
      .ok ({ s with sp := dh ++ s.tos, tos := Config.freeTos s.draws, draws := s.draws + 1 }.advance 1 2)) := rfl

theorem exec_swi (s : State) :
    exec .swi s = finish (s.pop >>= fun r2 => r2.2.pop >>= fun r1 =>
      if swiOperandOk r1.1 && swiOperandOk r2.1 then .ok ((r1.2.latch (r1.1 ++ r2.1)).disturbCcr2.advance 1 1)
      else .error (.refused (.swiOperand r1.1 r2.1))) := rfl

theorem exec_outPort (s : State) :
    exec .outPort s = finish (s.pop >>= fun r1 => r1.2.pop >>= fun r2 => r2.2.portWrite r1.1 r2.1 >>= fun t =>
      .ok (t.disturbCcr2.advance 1 1)) := rfl

theorem exec_sleep (s : State) :
    exec .sleep s =
      .next (({ s with asleep := s.asleep || (s.ipr == 0#8 && s.iar == 0#8) }.setI true).advance 1 1) := rfl

theorem exec_rti (s : State) : exec .rti s = finish s.returnFromInterrupt := rfl

theorem exec_bra (target : RomAddr) (s : State) :
    exec (.bra target) s = finish (if s.ccr.b then .ok (s.jump target 2) else .ok (s.advance 2 2)) := by
  cases h : s.ccr.b <;> simp [exec, execBra, h]

/-! ## Running a chain: an operation that answers goes on, and one that stops ends it -/

section

variable {α : Type} {r : Res α} {k : α → Res State}

theorem finish_bind_of_ok {a : α} {o : Host.Outcome State Fault Refusal} (h : r = .ok a) (hk : finish (k a) = o) :
    finish (r >>= k) = o := by
  rw [h]
  exact hk

theorem finish_bind_of_fault {e : Fault} (h : r = .error (.fault e)) : finish (r >>= k) = .fault e := by
  rw [h]
  rfl

theorem finish_bind_of_refused {e : Refusal} (h : r = .error (.refused e)) : finish (r >>= k) = .refused e := by
  rw [h]
  rfl

end

end Sys2Proof.Machine
end

section
/-!
SUPPORT. One pass through the instructions for all the statements about every instruction. Each instruction is a chain of the
shared operations, and of a chain two things are said at once (`Tame`): which registers it can change, and that the fields which
only observe the machine or wait for it (`Ghost`: `CCR2`, the cycle count, the events ahead) decide nothing.
-/

namespace Sys2Proof.Machine

/-! ## What an instruction can change -/

/-- The flags, registers and modes whose writers the spec lists (10_state.md R22 to R31). -/
inductive Register where
  | c | b | i | x | y | rp | ipr | iar | rbr | asleep

/-- The register is in `t` as it is in `s`. -/
def Register.Kept (r : Register) (s t : State) : Prop :=
  match r with
  | .c => t.ccr.c = s.ccr.c
  | .b => t.ccr.b = s.ccr.b
  | .i => t.ccr.i = s.ccr.i
  | .x => t.x = s.x
  | .y => t.y = s.y
  | .rp => t.rp = s.rp
  | .ipr => t.ipr = s.ipr
  | .iar => t.iar = s.iar
  | .rbr => t.rbr = s.rbr
  | .asleep => t.asleep = s.asleep

/-- From `s` to `t` no register outside `W` changes, nor what no instruction changes, and RAM stays in canonical form. -/
structure Frame (W : List Register) (s t : State) : Prop where
  kept : ∀ r, r ∉ W → r.Kept s t
  rom : t.rom = s.rom
  chip : t.chip = s.chip
  env : t.env = s.env
  ram : MemWf 256 s.ram → MemWf 256 t.ram

/-- The registers an instruction writes (10_state.md R22, R23, R24, R26, R27, R31; log entry 9). -/
def writes (i : Instr) : List Register :=
  match i with
  | .add | .addc | .sub | .subb | .daa | .shl | .rol | .shr | .ror | .setBcf
  | .cmpEq | .cmpNe | .cmpLt | .cmpLe | .cmpGt | .cmpGe => [.c, .b]
  | .inc | .dec | .not | .xor | .and | .or | .togBf | .decr | .inPort => [.b]
  | .ccrStore => [.c, .b, .i]
  | .di => [.i]
  | .sleep => [.i, .asleep]
  | .rti => [.i, .rp, .ipr, .iar]
  | .swi => [.ipr]
  | .outPort => [.rbr]
  | .setX | .loadX _ | .fetchIncX | .fetchXDec | .fetchDirX _ | .storeIncX | .storeXDec | .storeDirX _ => [.x]
  | .setY | .loadY _ | .fetchIncY | .fetchYDec | .fetchDirY _ | .storeIncY | .storeYDec | .storeDirY _ => [.y]
  | .setRp | .loadRp _ | .toR | .twoToR | .threeToR | .dropr | .exit | .table | .call _ | .scall _ => [.rp]
  | _ => []

/-- The register of an addressing mode as a register. -/
def PtrReg.register (p : PtrReg) : Register :=
  match p with
  | .x => .x
  | .y => .y

namespace Frame

variable {W : List Register} {s t u : State}

theorem refl : Frame W s s := ⟨fun r _ => by cases r <;> rfl, rfl, rfl, rfl, id⟩

theorem trans (h : Frame W s t) (h' : Frame W t u) : Frame W s u where
  kept r hr := by
    have ht := h.kept r hr
    have hu := h'.kept r hr
    cases r <;> exact Eq.trans hu ht
  rom := h'.rom.trans h.rom
  chip := h'.chip.trans h.chip
  env := h'.env.trans h.env
  ram := h'.ram ∘ h.ram

/-- One more update. What is not said is that it changes none of the registers, and not even RAM. -/
theorem step (h : Frame W s t) (hkept : ∀ r, r ∉ W → r.Kept t u := by intro r _; cases r <;> rfl)
    (hrom : u.rom = t.rom := by rfl) (hchip : u.chip = t.chip := by rfl) (henv : u.env = t.env := by rfl)
    (hram : MemWf 256 t.ram → MemWf 256 u.ram := by exact id) : Frame W s u :=
  h.trans ⟨hkept, hrom, hchip, henv, hram⟩

/-- One more update, which writes registers that may change. -/
theorem write (h : Frame W s t)
    (hkept : ∀ r, r ∉ W → r.Kept t u := by intro r hr; cases r <;> simp_all [Register.Kept, writes])
    (hrom : u.rom = t.rom := by rfl) (hchip : u.chip = t.chip := by rfl) (henv : u.env = t.env := by rfl)
    (hram : MemWf 256 t.ram → MemWf 256 u.ram := by exact id) : Frame W s u :=
  h.step hkept hrom hchip henv hram

/-! The updates that write a register, which is then one of those that may change. -/

theorem setB (f : Bool) (h : Frame W s t) (hb : .b ∈ W := by simp [writes]) : Frame W s (t.setB f) :=
  h.write

theorem setCB (f : Bool) (h : Frame W s t) (hc : .c ∈ W := by simp [writes])
    (hb : .b ∈ W := by simp [writes]) : Frame W s (t.setCB f) :=
  h.write

theorem setCompare (f : Bool) (h : Frame W s t) (hc : .c ∈ W := by simp [writes])
    (hb : .b ∈ W := by simp [writes]) : Frame W s (t.setCompare f) :=
  h.write

theorem setI (f : Bool) (h : Frame W s t) (hi : .i ∈ W := by simp [writes]) : Frame W s (t.setI f) :=
  h.write

theorem setResult (r : AluOut) (h : Frame W s t) (hc : .c ∈ W := by simp [writes])
    (hb : .b ∈ W := by simp [writes]) : Frame W s (t.setResult r) :=
  h.write

theorem setLogic (v : Nibble) (h : Frame W s t) (hb : .b ∈ W := by simp [writes]) : Frame W s (t.setLogic v) :=
  h.write

theorem setPtr (p : PtrReg) (v : RamAddr) (h : Frame W s t)
    (hv : v = t.ptr p ∨ p.register ∈ W := by simp [writes, PtrReg.register]) :
    Frame W s (t.setPtr p v) := by
  cases p <;> exact h.step fun r hr => by cases r <;> simp_all [Register.Kept, PtrReg.register, State.ptr]

theorem withRp (v : RamAddr) (h : Frame W s t) (hrp : .rp ∈ W := by simp [writes]) : Frame W s { t with rp := v } :=
  h.write

theorem latch (v : BitVec 8) (h : Frame W s t) (hipr : .ipr ∈ W := by simp [writes]) : Frame W s (t.latch v) :=
  h.write

theorem endService (h : Frame W s t) (hipr : .ipr ∈ W := by simp [writes])
    (hiar : .iar ∈ W := by simp [writes]) : Frame W s t.endService := by
  obtain ⟨-, e⟩ | ⟨k, -, e⟩ := endService_cases t <;> rw [e]
  · exact h
  · exact h.write

/-! The shared operations. -/

theorem pop {n : Nibble} (h : Frame W s t) (hpop : t.pop = .ok (n, u)) : Frame W s u := by
  obtain ⟨-, -, rfl⟩ := pop_ok_iff.1 hpop
  exact h.step

theorem takeTwo {n1 n2 : Nibble} (h : Frame W s t) (htake : t.takeTwo = .ok (n1, n2, u)) : Frame W s u := by
  obtain ⟨-, -, -, rfl⟩ := takeTwo_ok_iff.1 htake
  exact h.step

theorem push {v : Nibble} (h : Frame W s t) (hpush : t.push v = .ok u) : Frame W s u := by
  obtain ⟨-, rfl⟩ := push_ok_iff.1 hpush
  exact h.step (hram := withRam_wf _ _)

theorem ramWrite {a : RamAddr} {v : Nibble} (h : Frame W s t) (hwrite : t.ramWrite a v = .ok u) : Frame W s u := by
  obtain ⟨-, rfl⟩ := ramWrite_ok_iff.1 hwrite
  exact h.step (hram := withRam_wf _ _)

theorem rsWrite {a : RamAddr} {w : RomAddr} {mask : RsMask} (h : Frame W s t) (hwrite : t.rsWrite a w mask = .ok u) :
    Frame W s u := by
  obtain ⟨-, hu, -, hram⟩ := rsWrite_ok hwrite
  rw [hu]
  exact h.step (hram := hram)

theorem rpush {w : RomAddr} {mask : RsMask} (h : Frame W s t) (hrp : .rp ∈ W) (hpush : t.rpush w mask = .ok u) :
    Frame W s u :=
  (h.withRp (t.rp + 4) hrp).rsWrite hpush

theorem rpop {w : RomAddr} (h : Frame W s t) (hrp : .rp ∈ W) (hpop : t.rpop = .ok (w, u)) : Frame W s u := by
  obtain ⟨-, -, rfl⟩ := rpop_ok_iff.1 hpop
  exact h.withRp _ hrp

theorem portWrite {p : Port} {v : Nibble} (h : Frame W s t) (hrbr : .rbr ∈ W) (hwrite : t.portWrite p v = .ok u) :
    Frame W s u := by
  obtain ⟨-, -, rfl⟩ | ⟨-, rfl⟩ := portWrite_ok hwrite
  · exact h.write
  · exact h.step

end Frame

/-! ## What no instruction looks at -/

/-- Values to put in the fields that decide nothing: `CCR2` (10_state.md R25), the cycle count (70_reset_and_hazards.md R300) and,
within an instruction, the events ahead. With `none` a field stays as it is. -/
structure Ghost where
  ccr2 : Option Bool
  cycles : Option Nat
  env : Option (List EnvEvent)

/-- `s` with the values of `g` in the fields that decide nothing. -/
def Ghost.put (g : Ghost) (s : State) : State :=
  { s with
    ccr := { s.ccr with ccr2 := g.ccr2.getD s.ccr.ccr2 }
    cycles := g.cycles.getD s.cycles
    env := g.env.getD s.env }

theorem getD_getD {α : Type} (o : Option α) (a : α) : o.getD (o.getD a) = o.getD a := by cases o <;> rfl

section

variable (g : Ghost) (s : State)

/-! An operation in a state with ghost values answers as without them, and then the values are still there. -/

theorem put_pop : (g.put s).pop = (fun r => (r.1, g.put r.2)) <$> s.pop := by
  by_cases h : s.ramHas s.sp
  · rw [pop_of_ramHas h, pop_of_ramHas (s := g.put s) h]; rfl
  · rw [pop_absent h, pop_absent (s := g.put s) h]; rfl

theorem put_takeTwo : (g.put s).takeTwo = (fun r => (r.1, r.2.1, g.put r.2.2)) <$> s.takeTwo := by
  by_cases h : s.ramHas s.sp
  · rw [takeTwo_of_ramHas h, takeTwo_of_ramHas (s := g.put s) h]; rfl
  · rw [takeTwo_absent h, takeTwo_absent (s := g.put s) h]; rfl

theorem put_push (v : Nibble) : (g.put s).push v = g.put <$> s.push v := by
  by_cases h : s.ramHas (s.sp + 1)
  · rw [push_of_ramHas v h, push_of_ramHas (s := g.put s) v h]; rfl
  · rw [push_absent v h, push_absent (s := g.put s) v h]; rfl

theorem put_ramWrite (a : RamAddr) (v : Nibble) : (g.put s).ramWrite a v = g.put <$> s.ramWrite a v := by
  by_cases h : s.ramHas a
  · rw [ramWrite_of_ramHas v h, ramWrite_of_ramHas (s := g.put s) v h]; rfl
  · rw [ramWrite_absent v h, ramWrite_absent (s := g.put s) v h]; rfl

theorem put_portWrite (p : Port) (v : Nibble) : (g.put s).portWrite p v = g.put <$> s.portWrite p v := by
  have hchip : (g.put s).chip = s.chip := rfl
  have hpc : (g.put s).pc = s.pc := rfl
  unfold State.portWrite
  simp only [hchip, hpc]
  split_ifs <;> rfl

theorem put_rsWrite (a : RamAddr) (w : RomAddr) (mask : RsMask) :
    (g.put s).rsWrite a w mask = g.put <$> s.rsWrite a w mask := by
  by_cases hfc : a = autosleepEntry
  · unfold State.rsWrite
    rw [if_pos hfc, if_pos hfc]; rfl
  · by_cases hal : rsAligned a
    · unfold State.rsWrite
      rw [if_neg hfc, if_neg hfc, if_pos hal, if_pos hal]
      simp only [put_ramWrite, map_bind, bind_map_left]
      rfl
    · rw [rsWrite_unaligned (s := s) w mask hal, rsWrite_unaligned (s := g.put s) w mask hal]; rfl

theorem put_endService : (g.put s).endService = g.put s.endService := by
  have hiar : (g.put s).iar = s.iar := rfl
  unfold State.endService
  rw [hiar]
  cases hiLevel s.iar <;> rfl

end

theorem res_ite_bind {α β : Type} {c : Prop} [Decidable c] (r r' : Res α) (k : α → Res β) :
    (if c then r else r') >>= k = if c then r >>= k else r' >>= k :=
  apply_ite (· >>= k) c r r'

theorem put_ptr (g : Ghost) (s : State) (r : PtrReg) : (g.put s).ptr r = s.ptr r := by cases r <;> rfl

theorem put_setPtr (g : Ghost) (s : State) (r : PtrReg) (v : RamAddr) : (g.put s).setPtr r v = g.put (s.setPtr r v) := by
  cases r <;> rfl

theorem put_put (g : Ghost) (s : State) : g.put (g.put s) = g.put s := by
  simp only [Ghost.put, getD_getD]

/-- Where `CCR2` is written, the value put in is gone. -/
theorem put_put_ccr (g : Ghost) (s : State) : g.put { g.put s with ccr := s.ccr } = g.put s := by
  simp only [Ghost.put, getD_getD]

/-- Counting on from the count put in is counting on from another. -/
theorem getD_add (o : Option Nat) {m n : Nat} (k : Nat) (h : o.getD m = o.getD n) : o.getD (m + k) = o.getD (n + k) := by
  cases o with
  | none => exact congrArg (· + k) h
  | some _ => rfl

theorem put_advance {g : Ghost} {s t : State} (n k : Nat) (h : g.put s = g.put t) :
    g.put (s.advance n k) = g.put (t.advance n k) := by
  have hcycles := getD_add g.cycles k (congrArg State.cycles h)
  change { (g.put s).advance n k with cycles := g.cycles.getD (s.cycles + k) } =
    { (g.put t).advance n k with cycles := g.cycles.getD (t.cycles + k) }
  rw [h, hcycles]

theorem put_jump {g : Ghost} {s t : State} (p : RomAddr) (k : Nat) (h : g.put s = g.put t) :
    g.put (s.jump p k) = g.put (t.jump p k) := by
  have hcycles := getD_add g.cycles k (congrArg State.cycles h)
  change { (g.put s).jump p k with cycles := g.cycles.getD (s.cycles + k) } =
    { (g.put t).jump p k with cycles := g.cycles.getD (t.cycles + k) }
  rw [h, hcycles]

/-! ## Both at once -/

/-- `p` is what an operation answers with the values of `g` put in, and `q` what it answers without: they differ in the fields of
`g` alone, and in what `q` answers no register outside `W` has changed since `s`. -/
structure Tame (g : Ghost) (W : List Register) (s : State) (p q : Res State) : Prop where
  agree : g.put <$> p = g.put <$> q
  frame : ∀ t, q = .ok t → Frame W s t

namespace Tame

variable {α : Type} {g : Ghost} {W : List Register} {s t t' : State}

/-! The end of an instruction. -/

theorem ok (ht : Frame W s t) (h : g.put t' = g.put t) : Tame g W s (.ok t') (.ok t) :=
  ⟨congrArg Except.ok h, by rintro _ ⟨⟩; exact ht⟩

theorem error (e : Stop) : Tame g W s (.error e) (.error e) := ⟨rfl, fun _ h => by cases h⟩

theorem advance {n k : Nat} (ht : Frame W s t) (h : t' = g.put t := by rfl) :
    Tame g W s (.ok (t'.advance n k)) (.ok (t.advance n k)) :=
  ok ht.step (put_advance n k (by rw [h, put_put]))

/-- The end of an instruction that draws `CCR2` or loads it. -/
theorem advanceCcr {n k : Nat} (ht : Frame W s t) (h : t' = { g.put t with ccr := t.ccr } := by rfl) :
    Tame g W s (.ok (t'.advance n k)) (.ok (t.advance n k)) :=
  ok ht.step (put_advance n k (by rw [h, put_put_ccr]))

theorem jump {p : RomAddr} {k : Nat} (ht : Frame W s t) (h : t' = g.put t := by rfl) :
    Tame g W s (.ok (t'.jump p k)) (.ok (t.jump p k)) :=
  ok ht.step (put_jump p k (by rw [h, put_put]))

/-! The operations before it. -/

/-- What is read does not depend on the values put in. -/
theorem read {r : Res α} {k k' : α → Res State} (hk : ∀ a, Tame g W s (k' a) (k a)) :
    Tame g W s (r >>= k') (r >>= k) := by
  cases r with
  | error e => exact error e
  | ok a => exact hk a

theorem ite {c : Prop} [Decidable c] {p p' q q' : Res State} (hp : Tame g W s p' p) (hq : Tame g W s q' q) :
    Tame g W s (if c then p' else q') (if c then p else q) := by
  split
  · exact hp
  · exact hq

/-- An operation that hands the values put in through to its answer. -/
theorem bind {r r' : Res α} {f : α → α} {k k' : α → Res State} (hr : r' = f <$> r)
    (hk : ∀ a, r = .ok a → Tame g W s (k' (f a)) (k a)) : Tame g W s (r' >>= k') (r >>= k) := by
  subst hr
  cases r with
  | error e => exact error e
  | ok a => exact hk a rfl

theorem pop {k k' : Nibble × State → Res State} (h : Frame W s t)
    (hk : ∀ n u, Frame W s u → Tame g W s (k' (n, g.put u)) (k (n, u))) :
    Tame g W s ((g.put t).pop >>= k') (t.pop >>= k) :=
  bind (put_pop g t) fun _ hr => hk _ _ (h.pop hr)

theorem takeTwo {k k' : Nibble × Nibble × State → Res State} (h : Frame W s t)
    (hk : ∀ n1 n2 u, Frame W s u → Tame g W s (k' (n1, n2, g.put u)) (k (n1, n2, u))) :
    Tame g W s ((g.put t).takeTwo >>= k') (t.takeTwo >>= k) :=
  bind (put_takeTwo g t) fun _ hr => hk _ _ _ (h.takeTwo hr)

theorem push {v : Nibble} {k k' : State → Res State} (h : Frame W s t)
    (hk : ∀ u, Frame W s u → Tame g W s (k' (g.put u)) (k u)) :
    Tame g W s ((g.put t).push v >>= k') (t.push v >>= k) :=
  bind (put_push g t v) fun u hu => hk u (h.push hu)

theorem ramWrite {a : RamAddr} {v : Nibble} {k k' : State → Res State} (h : Frame W s t)
    (hk : ∀ u, Frame W s u → Tame g W s (k' (g.put u)) (k u)) :
    Tame g W s ((g.put t).ramWrite a v >>= k') (t.ramWrite a v >>= k) :=
  bind (put_ramWrite g t a v) fun u hu => hk u (h.ramWrite hu)

theorem rsWrite {a : RamAddr} {w : RomAddr} {mask : RsMask} {k k' : State → Res State} (h : Frame W s t)
    (hk : ∀ u, Frame W s u → Tame g W s (k' (g.put u)) (k u)) :
    Tame g W s ((g.put t).rsWrite a w mask >>= k') (t.rsWrite a w mask >>= k) :=
  bind (put_rsWrite g t a w mask) fun u hu => hk u (h.rsWrite hu)

theorem rpush {w : RomAddr} {mask : RsMask} {k k' : State → Res State} (h : Frame W s t)
    (hk : ∀ u, Frame W s u → Tame g W s (k' (g.put u)) (k u)) (hrp : .rp ∈ W := by simp [writes]) :
    Tame g W s ((g.put t).rpush w mask >>= k') (t.rpush w mask >>= k) :=
  bind (put_rsWrite g { t with rp := t.rp + 4 } (t.rp + 4) w mask) fun u hu => hk u (h.rpush hrp hu)

theorem portWrite {p : Port} {v : Nibble} {k k' : State → Res State} (h : Frame W s t)
    (hk : ∀ u, Frame W s u → Tame g W s (k' (g.put u)) (k u)) (hrbr : .rbr ∈ W := by simp [writes]) :
    Tame g W s ((g.put t).portWrite p v >>= k') (t.portWrite p v >>= k) :=
  bind (put_portWrite g t p v) fun u hu => hk u (h.portWrite hrbr hu)

theorem rpop {k k' : RomAddr × State → Res State} (h : Frame W s t)
    (hk : ∀ w u, Frame W s u → Tame g W s (k' (w, g.put u)) (k (w, u))) (hrp : .rp ∈ W := by simp [writes]) :
    Tame g W s ((g.put t).rpop >>= k') (t.rpop >>= k) := by
  unfold State.rpop
  simp only [bind_assoc]
  exact read fun w => hk w _ (h.withRp _ hrp)

theorem pushByte {v : BitVec 8} {k k' : State → Res State} (h : Frame W s t)
    (hk : ∀ u, Frame W s u → Tame g W s (k' (g.put u)) (k u)) :
    Tame g W s ((g.put t).pushByte v >>= k') (t.pushByte v >>= k) := by
  unfold State.pushByte
  simp only [bind_assoc]
  exact push h fun _ hu => push hu hk

theorem popByte {k k' : BitVec 8 × State → Res State} (h : Frame W s t)
    (hk : ∀ v u, Frame W s u → Tame g W s (k' (v, g.put u)) (k (v, u))) :
    Tame g W s ((g.put t).popByte >>= k') (t.popByte >>= k) := by
  unfold State.popByte
  simp only [bind_assoc]
  exact pop h fun _ _ hu => pop hu fun _ u hu => hk _ u hu

/-- A mode that leaves the register where it is does not write it. -/
theorem fetchVia {r : PtrReg} {m : PtrMode} {k k' : State → Res State} (h : Frame W s t)
    (hk : ∀ u, Frame W s u → Tame g W s (k' (g.put u)) (k u))
    (hr : m.after (t.ptr r) = t.ptr r ∨ r.register ∈ W := by simp [writes, PtrReg.register, PtrMode.after]) :
    Tame g W s ((g.put t).fetchVia r m >>= k') (t.fetchVia r m >>= k) := by
  have hsp : (g.put t).sp = t.sp := rfl
  unfold State.fetchVia
  simp only [put_ptr, hsp, res_ite_bind, bind_assoc]
  refine ite (error _) (read fun v => bind (put_push g t v) fun u hu => ?_)
  have hptr : u.ptr r = t.ptr r := by
    obtain ⟨-, rfl⟩ := push_ok_iff.1 hu
    cases r <;> rfl
  rw [put_setPtr]
  exact hk _ ((h.push hu).setPtr _ _ (by rwa [hptr]))

theorem storeVia {r : PtrReg} {m : PtrMode} {k k' : State → Res State} (h : Frame W s t)
    (hk : ∀ u, Frame W s u → Tame g W s (k' (g.put u)) (k u))
    (hr : m.after (t.ptr r) = t.ptr r ∨ r.register ∈ W := by simp [writes, PtrReg.register, PtrMode.after]) :
    Tame g W s ((g.put t).storeVia r m >>= k') (t.storeVia r m >>= k) := by
  have hsp : (g.put t).sp = t.sp := rfl
  unfold State.storeVia
  simp only [put_ptr, hsp, res_ite_bind, bind_assoc]
  refine ite (error _) (bind (put_ramWrite g t _ _) fun u hu => bind (put_pop g u) fun p hp => ?_)
  have hptr : p.2.ptr r = t.ptr r := by
    obtain ⟨-, rfl⟩ := ramWrite_ok_iff.1 hu
    obtain ⟨-, -, hp2⟩ := pop_ok_iff.1 hp
    rw [← hp2]
    cases r <;> rfl
  simp only [put_setPtr]
  exact hk _ (((h.ramWrite hu).pop hp).setPtr _ _ (by rwa [hptr]))

end Tame

/-- The one pass: what is said of every instruction but CCR@, and of CCR@ where `CCR2` stays as it is. -/
theorem exec_tame (g : Ghost) (i : Instr) (s : State) (hg : i = .ccrFetch → g.ccr2 = none) :
    ∃ p q, exec i (g.put s) = finish p ∧ exec i s = finish q ∧ Tame g (writes i) s p q := by
  have start : Frame (writes i) s s := .refl
  cases i with
  | add | addc | sub | subb => exact ⟨_, _, rfl, rfl, .takeTwo start fun _ _ _ h => .advanceCcr (h.setResult _)⟩
  | cmpEq | cmpNe | cmpLt | cmpLe | cmpGt | cmpGe =>
    exact ⟨_, _, rfl, rfl, .takeTwo start fun _ _ _ h => .advanceCcr (h.step.setCompare _)⟩
  | xor | and | or => exact ⟨_, _, rfl, rfl, .takeTwo start fun _ _ _ h => .advanceCcr (h.setLogic _)⟩
  | inc | dec | not => exact ⟨_, _, rfl, rfl, .advanceCcr (start.setLogic _)⟩
  | daa | shl | rol | shr | ror => exact ⟨_, _, rfl, rfl, .advanceCcr (start.setResult _)⟩
  | togBf => exact ⟨_, _, rfl, rfl, .advanceCcr (start.setB _)⟩
  | setBcf => exact ⟨_, _, rfl, rfl, .advanceCcr (start.setCB _)⟩
  | di => exact ⟨_, _, rfl, rfl, .advanceCcr (start.setI _)⟩
  | sleep => exact ⟨_, _, rfl, rfl, .advanceCcr start.write⟩
  | ccrStore => exact ⟨_, _, rfl, rfl, .pop start fun _ _ h => .advanceCcr h.write⟩
  | ccrFetch =>
    obtain ⟨_, n, e⟩ := g
    obtain rfl := hg rfl
    exact ⟨_, _, rfl, rfl, .push start fun _ h => .advance h⟩
  | inPort => exact ⟨_, _, rfl, rfl, .advanceCcr (start.step.setB _)⟩
  | outPort =>
    exact ⟨_, _, rfl, rfl, .pop start fun _ _ h => .pop h fun _ _ h => .portWrite h fun _ h => .advanceCcr h.step⟩
  | swi =>
    exact ⟨_, _, rfl, rfl, .pop start fun _ _ h => .pop h fun _ _ h => .ite (.advanceCcr (h.latch _).step) (.error _)⟩
  | decr => exact ⟨_, _, rfl, rfl, .read fun _ => .rsWrite start fun _ h => .advanceCcr (h.setB _)⟩
  | rti =>
    exact ⟨_, _, rfl, rfl, .rpop start fun _ _ h => .jump h.endService.write (by rw [put_endService]; rfl)⟩
  | exit => exact ⟨_, _, rfl, rfl, .rpop start fun _ _ h => .jump h⟩
  | call target => exact ⟨_, _, rfl, rfl, .rpush start fun _ h => .jump h⟩
  | scall a => exact ⟨_, _, rfl, rfl, .rpush start fun _ h => .jump h⟩
  | bra target => exact ⟨_, _, exec_bra _ _, exec_bra _ _, .ite (.jump start) (.advance start)⟩
  | sbra a => exact ⟨_, _, rfl, rfl, .ite (.read fun _ => .jump start) (.advance start)⟩
  | table =>
    exact ⟨_, _, rfl, rfl, .rpop start fun _ _ h => .read fun _ => .pushByte h fun _ h => .rpop h fun _ _ h => .jump h⟩
  | nop | nop7D | nop7E | nop7F => exact ⟨_, _, rfl, rfl, .advance start⟩
  | unassigned21 | unassigned24 => exact ⟨_, _, rfl, rfl, .error (.refused (.unassignedCode _))⟩
  | swap => exact ⟨_, _, rfl, rfl, .read fun _ => .ramWrite start fun _ h => .advance h.step⟩
  | rot =>
    exact ⟨_, _, rfl, rfl, .read fun _ => .read fun _ => .ramWrite start fun _ h => .ramWrite h fun _ h => .advance h.step⟩
  | dup => exact ⟨_, _, rfl, rfl, .push start fun _ h => .advance h⟩
  | lit n => exact ⟨_, _, rfl, rfl, .push start fun _ h => .advance h⟩
  | overCopy | rCopy => exact ⟨_, _, rfl, rfl, .read fun _ => .push start fun _ h => .advance h⟩
  | twoRCopy => exact ⟨_, _, rfl, rfl, .read fun _ => .push start fun _ h => .push h fun _ h => .advance h⟩
  | threeRCopy =>
    exact ⟨_, _, rfl, rfl, .read fun _ => .push start fun _ h => .push h fun _ h => .push h fun _ h => .advance h⟩
  | drop => exact ⟨_, _, rfl, rfl, .pop start fun _ _ h => .advance h⟩
  | dropr => exact ⟨_, _, rfl, rfl, .advance (start.withRp _)⟩
  | toR => exact ⟨_, _, rfl, rfl, .pop start fun _ _ h => .rpush h fun _ h => .advance h⟩
  | twoToR => exact ⟨_, _, rfl, rfl, .pop start fun _ _ h => .pop h fun _ _ h => .rpush h fun _ h => .advance h⟩
  | threeToR =>
    exact ⟨_, _, rfl, rfl, .pop start fun _ _ h => .pop h fun _ _ h => .pop h fun _ _ h => .rpush h fun _ h => .advance h⟩
  | getSp | getRp | getX | getY => exact ⟨_, _, rfl, rfl, .pushByte start fun _ h => .advance h⟩
  | setSp => exact ⟨_, _, rfl, rfl, .read fun _ => .advance start.step⟩
  | setRp => exact ⟨_, _, rfl, rfl, .popByte start fun _ _ h => .advance (h.withRp _)⟩
  | setX => exact ⟨_, _, rfl, rfl, .popByte start fun _ _ h => .advance (h.setPtr .x _)⟩
  | setY => exact ⟨_, _, rfl, rfl, .popByte start fun _ _ h => .advance (h.setPtr .y _)⟩
  | loadSp v => exact ⟨_, _, rfl, rfl, .advance start.step⟩
  | loadRp v => exact ⟨_, _, rfl, rfl, .advance (start.withRp _)⟩
  | loadX v => exact ⟨_, _, rfl, rfl, .advance (start.setPtr .x _)⟩
  | loadY v => exact ⟨_, _, rfl, rfl, .advance (start.setPtr .y _)⟩
  | fetchX | fetchIncX | fetchXDec | fetchY | fetchIncY | fetchYDec =>
    exact ⟨_, _, rfl, rfl, .fetchVia start fun _ h => .advance h⟩
  | fetchDirX a => exact ⟨_, _, rfl, rfl, .fetchVia start fun _ h => .advance h⟩
  | fetchDirY a => exact ⟨_, _, rfl, rfl, .fetchVia start fun _ h => .advance h⟩
  | storeX | storeIncX | storeXDec | storeY | storeIncY | storeYDec =>
    exact ⟨_, _, rfl, rfl, .storeVia start fun _ h => .advance h⟩
  | storeDirX a => exact ⟨_, _, rfl, rfl, .storeVia start fun _ h => .advance h⟩
  | storeDirY a => exact ⟨_, _, rfl, rfl, .storeVia start fun _ h => .advance h⟩

end Sys2Proof.Machine
end

section
/-!
SUPPORT and the statements about every instruction and every step, from the one pass through the instructions (`exec_tame`) and
from what a step can do (`step_next_cases`).
-/

namespace Sys2Proof.Machine

/-! ## Every instruction -/

theorem mapNext_finish (f : State → State) (r : Res State) : mapNext f (finish r) = finish (f <$> r) := by
  cases r with
  | ok s => rfl
  | error e => cases e <;> rfl

/-- What an instruction changes at most. -/
theorem exec_frame {i : Instr} {s t : State} (h : exec i s = .next t) : Frame (writes i) s t := by
  obtain ⟨p, q, -, hq, htame⟩ := exec_tame { ccr2 := none, cycles := none, env := none } i s fun _ => rfl
  exact htame.frame t (finish_next_iff.1 (hq.symm.trans h))

theorem exec_put (g : Ghost) (i : Instr) (s : State) (hg : i = .ccrFetch → g.ccr2 = none) :
    mapNext g.put (exec i (g.put s)) = mapNext g.put (exec i s) := by
  obtain ⟨p, q, hp, hq, htame⟩ := exec_tame g i s hg
  rw [hp, hq, mapNext_finish, mapNext_finish, htame.agree]

/-- Settles O55: the writers of a flag are the instructions whose `writes` lists it. -/
theorem flagsAreChangedOnlyByTheirWriters : Obligations.FlagsAreChangedOnlyByTheirWriters := by
  intro i s t h
  have hframe := exec_frame h
  refine ⟨fun hi => hframe.kept .c fun hw => hi ?c, fun hi => hframe.kept .b fun hw => hi ?b,
    fun hi => hframe.kept .i fun hw => hi ?i⟩
  all_goals cases i <;> simp_all [writes]

/-- On a chip whose bank register answers at no port, OUT keeps RBR. -/
theorem outPort_keeps_rbr {s t : State} (h : exec .outPort s = .next t) (hport : s.chip.rbrPort = none) : t.rbr = s.rbr := by
  simp only [exec_outPort, finish_next_iff, res_bind_ok_iff, Prod.exists, Except.ok.injEq] at h
  obtain ⟨p, u, hu, n, v, hv, w, hw, rfl⟩ := h
  obtain ⟨-, -, rfl⟩ := pop_ok_iff.1 hu
  obtain ⟨-, -, rfl⟩ := pop_ok_iff.1 hv
  obtain ⟨hsome, -⟩ | ⟨-, rfl⟩ := portWrite_ok hw
  · rw [show _ = none from hport] at hsome
    cases hsome
  · rfl

/-! The registers with one writer. -/

theorem writer_of_rbr {i : Instr} (h : .rbr ∈ writes i) : i = .outPort := by cases i <;> simp_all [writes]

theorem writer_of_asleep {i : Instr} (h : .asleep ∈ writes i) : i = .sleep := by cases i <;> simp_all [writes]

theorem writer_of_iar {i : Instr} (h : .iar ∈ writes i) : i = .rti := by cases i <;> simp_all [writes]

theorem exec_keeps_rbr {i : Instr} {s t : State} (h : exec i s = .next t) (hi : i ≠ .outPort ∨ s.chip.rbrPort = none) :
    t.rbr = s.rbr := by
  by_cases ho : i = .outPort
  · subst ho
    exact outPort_keeps_rbr h (hi.resolve_left fun hne => hne rfl)
  · exact (exec_frame h).kept .rbr fun hw => ho (writer_of_rbr hw)

/-- Settles O56: as for the flags; RBR is written by OUT alone, and not on every chip. -/
theorem registersAreChangedOnlyByTheirWriters : Obligations.RegistersAreChangedOnlyByTheirWriters := by
  intro i s t h
  have hframe := exec_frame h
  refine ⟨fun hi ha => hframe.kept .x fun hw => ?x, fun hi ha => hframe.kept .y fun hw => ?y,
    fun hi hl hc hs => hframe.kept .rp fun hw => ?rp, fun hi => hframe.kept .ipr fun hw => ?ipr,
    fun hi => hframe.kept .iar fun hw => ?iar, exec_keeps_rbr h⟩
  all_goals cases i <;> simp_all [writes]

/-- Settles O59: `CCR2` is put to one value before either run. -/
theorem onlyCcrFetchReadsCcr2 : Obligations.OnlyCcrFetchReadsCcr2 := by
  intro i s v hi
  have hput := fun u => exec_put { ccr2 := some false, cycles := none, env := none } i u fun h => absurd h hi
  exact (hput { s with ccr := { s.ccr with ccr2 := v } }).symm.trans (hput s)

end Sys2Proof.Machine
end

section
/-!
SUPPORT and the statements about the Return Stack (20_memory.md R47, 10_state.md R19): what is read from an entry after it was
written, the return from a service routine, and a return after a call.
-/

namespace Sys2Proof.Machine

open Sys2Proof.Laws

/-! ## An entry as three cells -/

theorem setCell_same (f : RamAddr → Nibble) (a : RamAddr) (v : Nibble) : setCell f a v a = v := if_pos rfl

theorem setCell_of_ne (f : RamAddr → Nibble) {a b : RamAddr} (v : Nibble) (h : b ≠ a) : setCell f a v b = f b := if_neg h

/-- A word is the three nibbles of an entry. -/
theorem entry_append (w : RomAddr) : entryH w ++ entryM w ++ entryL w = w := by
  unfold entryH entryM entryL
  rw [BitVec.extractLsb'_append_extractLsb'_eq_extractLsb' (by rfl),
    BitVec.extractLsb'_append_extractLsb'_eq_extractLsb' (by rfl)]
  exact BitVec.extractLsb'_eq_self

/-- The word written to an entry is read from it, for every layout; 000h at the AUTOSLEEP entry. -/
theorem entryWord_setEntry (l : Config.RsLayout) (f : RamAddr → Nibble) (a : RamAddr) (w : RomAddr) :
    entryWord l (setEntry l f a w) a = if a = autosleepEntry then 0x000#12 else w := by
  unfold entryWord setEntry
  split
  · rfl
  · obtain ⟨hHM, hML, hHL⟩ := l.distinct
    rw [setCell_of_ne _ _ (rsCell_ne hHL), setCell_of_ne _ _ (rsCell_ne hHM), setCell_same,
      setCell_of_ne _ _ (rsCell_ne hML), setCell_same, setCell_same, entry_append]

/-- A write to an entry leaves the cells outside it, every cell at the AUTOSLEEP entry. -/
theorem setEntry_of_ne (l : Config.RsLayout) (f : RamAddr → Nibble) {a b : RamAddr} (w : RomAddr)
    (h : a = autosleepEntry ∨ b ≠ rsCell a l.oH ∧ b ≠ rsCell a l.oM ∧ b ≠ rsCell a l.oL) : setEntry l f a w b = f b := by
  unfold setEntry
  by_cases ha : a = autosleepEntry
  · rw [if_pos ha]
  · obtain ⟨hH, hM, hL⟩ := h.resolve_left ha
    rw [if_neg ha, setCell_of_ne _ _ hL, setCell_of_ne _ _ hM, setCell_of_ne _ _ hH]

/-- The entry of a state whose cells are those after a write to it. -/
theorem rsAt_of_setEntry {s t : State} {a : RamAddr} {w : RomAddr} (hchip : t.chip = s.chip)
    (hcells : t.ramAt = setEntry s.chip.rsLayout s.ramAt a w) : t.rsAt a = if a = autosleepEntry then 0x000#12 else w := by
  rw [rsAt_eq, hchip, hcells, entryWord_setEntry]

theorem rsHas_of_chip {s t : State} {a : RamAddr} (hchip : t.chip = s.chip) (h : s.rsHas a) : t.rsHas a := by
  unfold State.rsHas State.ramHas at h ⊢
  rwa [hchip]

/-- Settles O38: the write answers, and its cells are `setEntry` of the old ones. -/
theorem returnStackEntryReadsBack : Obligations.ReturnStackEntryReadsBack := by
  refine ⟨fun s a w h => ?_, fun s => rsRead_ok_iff.2 ⟨.inl rfl, rfl⟩⟩
  obtain ⟨t, ht⟩ := rsWrite_of_rsHas w .word h
  obtain ⟨-, hframe, hcells, -⟩ := rsWrite_ok ht
  have hchip : t.chip = s.chip := by rw [hframe]
  refine ⟨t, ht, rsRead_ok_iff.2 ⟨rsHas_of_chip hchip h, rsAt_of_setEntry hchip hcells⟩, fun b hb => ?_⟩
  rw [hcells, setEntry_of_ne _ _ _ hb]

/-! ## Returning from an interrupt -/

section

variable {s : State} {k : Level}

theorem endService_of_inactive (h : s.iar = 0#8) : s.endService = s := by
  unfold State.endService
  rw [hiLevel_none_iff.2 h]

theorem endService_of_active (h : HighestBit s.iar k) :
    s.endService = { s with iar := s.iar &&& ~~~levelBit k, ipr := s.ipr &&& ~~~levelBit k } := by
  unfold State.endService
  rw [hiLevel_some_iff.2 h]

theorem exec_rti_of_rsHas (h : s.rsHas s.rp) :
    exec .rti s =
      let u := { s with rp := s.rp - 4 }.endService
      .next ({ u with ccr := { u.ccr with i := true } }.jump (s.rsAt s.rp) 2) := by
  rw [exec_rti, State.returnFromInterrupt, rpop_of_rsHas h]
  rfl

end

/-- Settles O15: the two cases are those of the highest active level. -/
theorem rtiResult : Obligations.RtiResult := by
  refine ⟨encodedAs_singleton LengthOfFirstByte.rti rfl rfl, fun s h => ⟨fun hiar => ?inactive, fun k hk => ?active⟩⟩
  all_goals have hexec := exec_rti_of_rsHas h
  case inactive =>
    rw [endService_of_inactive (s := { s with rp := s.rp - 4 }) hiar] at hexec
    exact completes_of_exec hexec
  case active =>
    rw [endService_of_active (s := { s with rp := s.rp - 4 }) hk] at hexec
    exact completes_of_exec hexec

/-! ## A return after a call -/

/-- After an instruction that leaves `behind` in the entry above and RP at it, EXIT and RTI go on there, with the old RP. -/
theorem returns_of_completes {i : Instr} {s : State} {target behind : RomAddr} {cycles : Nat} (h : s.rsHas (s.rp + 4))
    (hne : s.rp + 4 ≠ autosleepEntry)
    (hcall : Completes i s { s with pc := target, rp := s.rp + 4, cycles := cycles }
      (setEntry s.chip.rsLayout s.ramAt (s.rp + 4) behind)) :
    ∃ t, exec i s = .next t ∧
      (∃ u, exec .exit t = .next u ∧ u.pc = behind ∧ u.rp = s.rp) ∧
      ∃ v, exec .rti t = .next v ∧ v.pc = behind ∧ v.rp = s.rp := by
  obtain ⟨t, hexec, hframe, hcells⟩ := hcall
  have hchip : t.chip = s.chip := by rw [hframe]
  have hrp : t.rp = s.rp + 4 := by rw [hframe]
  have hentry : t.rsHas t.rp := hrp ▸ rsHas_of_chip hchip h
  have hword : t.rsAt t.rp = behind := by rw [hrp, rsAt_of_setEntry hchip (funext hcells), if_neg hne]
  have hback : t.rp - 4 = s.rp := by rw [hrp]; bv_omega
  refine ⟨t, hexec, ⟨_, by rw [exec_exit, rpop_of_rsHas hentry]; rfl, hword, hback⟩, _, exec_rti_of_rsHas hentry, hword, ?_⟩
  obtain ⟨-, e⟩ | ⟨k, -, e⟩ := endService_cases { t with rp := t.rp - 4 } <;> rw [e] <;> exact hback

/-- Settles O58: what CALL and SCALL leave is the entry the return finds. -/
theorem returnFollowsCall : Obligations.ReturnFollowsCall := by
  intro s h hne
  obtain ⟨-, -, hcalls⟩ := callAndScallResults
  obtain ⟨hcall, hscall⟩ := hcalls s h
  exact ⟨fun target => returns_of_completes h hne (hcall target), fun a => returns_of_completes h hne (hscall a)⟩

end Sys2Proof.Machine
end

section
/-!
SUPPORT and the statements about the step (60_exceptions.md, 70_reset_and_hazards.md, 10_state.md): what taking an interrupt leaves,
the interrupt registers bit by bit, the invariant, and the boundary under the fields that decide nothing.
-/

namespace Sys2Proof.Machine

/-! ## Taking an interrupt -/

/-- What the acknowledge of INTk leaves, and where it needs to write (60_exceptions.md R258). -/
theorem acknowledge_frame {s t : State} {k : Level} (h : s.acknowledge k = .ok t) :
    s.rsHas (s.rp + 4) ∧
      t = { s with
        asleep := false, iar := s.iar ||| levelBit k, rp := s.rp + 4, pc := vector k, cycles := s.cycles + 2, ram := t.ram } ∧
      t.ramAt = setEntry s.chip.rsLayout s.ramAt (s.rp + 4) s.pc ∧ (MemWf 256 s.ram → MemWf 256 t.ram) := by
  obtain ⟨u, hpush, rfl⟩ := acknowledge_ok h
  obtain ⟨hentry, hu, hcells, hram⟩ := rpush_ok hpush
  exact ⟨hentry, by rw [hu]; rfl, hcells, hram⟩

theorem acknowledge_of_rsHas {s : State} (k : Level) (h : s.rsHas (s.rp + 4)) : ∃ t, s.acknowledge k = .ok t := by
  obtain ⟨u, hpush⟩ := rpush_of_rsHas (s := { s with asleep := false, iar := s.iar ||| levelBit k }) s.pc .word h
  exact ⟨_, by unfold State.acknowledge; rw [hpush]; rfl⟩

/-- Settles O45: the step is the acknowledge, and what that leaves is `acknowledge_frame`. -/
theorem interruptIsTaken : Obligations.InterruptIsTaken := by
  intro s k henv hdue hentry
  obtain ⟨t, ht⟩ := acknowledge_of_rsHas k hentry
  obtain ⟨-, hframe, hcells, -⟩ := acknowledge_frame ht
  exact ⟨t, by rw [step_of_due henv hdue, ht, finish_ok], hframe, congrFun hcells⟩

/-! ## The interrupt registers bit by bit -/

theorem levelBit_bit : ∀ k j : Level, (levelBit k).getLsbD j.val = decide (j = k) := by decide

theorem mem_levels : ∀ j : Level, j ∈ levels := by decide

/-- Every active level is pending, said of the bits (60_exceptions.md R256, R258). -/
theorem active_pending_iff {a p : BitVec 8} :
    a &&& ~~~p = 0#8 ↔ ∀ j : Level, a.getLsbD j.val = true → p.getLsbD j.val = true := by
  rw [← hiLevel_none_iff, hiLevel, List.find?_eq_none]
  simp only [waiting_bit]
  constructor
  · intro h j hj
    simpa [hj] using h j (mem_levels j)
  · intro h j _
    cases hj : a.getLsbD j.val <;> simp_all

/-- The end of a service takes a level out of both registers. -/
theorem active_pending_of_cleared {a p : BitVec 8} (b : BitVec 8) (h : a &&& ~~~p = 0#8) :
    (a &&& ~~~b) &&& ~~~(p &&& ~~~b) = 0#8 := by
  rw [active_pending_iff] at h ⊢
  intro j hj
  rw [waiting_bit, Bool.and_eq_true] at hj ⊢
  exact ⟨h j hj.1, hj.2⟩

/-- A request adds pending levels alone. -/
theorem active_pending_of_requested {a p : BitVec 8} (r : BitVec 8) (h : a &&& ~~~p = 0#8) : a &&& ~~~(p ||| r) = 0#8 := by
  rw [active_pending_iff] at h ⊢
  intro j hj
  rw [BitVec.getLsbD_or, h j hj, Bool.true_or]

/-- An acknowledge makes a pending level active. -/
theorem active_pending_of_acknowledged {a p : BitVec 8} {k : Level} (hk : p.getLsbD k.val = true) (h : a &&& ~~~p = 0#8) :
    (a ||| levelBit k) &&& ~~~p = 0#8 := by
  rw [active_pending_iff] at h ⊢
  intro j hj
  rw [BitVec.getLsbD_or, levelBit_bit, Bool.or_eq_true, decide_eq_true_iff] at hj
  obtain hj | rfl := hj
  · exact h j hj
  · exact hk

/-- Settles O46: a level above the one just made active was not pending before, and IPR is as it was. -/
theorem noInterruptIsDueAfterAcknowledge : Obligations.NoInterruptIsDueAfterAcknowledge := by
  intro s t k henv hdue hstep j hj
  rw [step_of_due henv hdue, finish_next_iff] at hstep
  obtain ⟨-, ht, -, -⟩ := acknowledge_frame hstep
  obtain ⟨-, -, -, habove⟩ := hdue
  rw [ht] at hj
  obtain ⟨-, hpending, hinactive, hjabove⟩ := hj
  have hiar : ∀ m : Level, (s.iar ||| levelBit k).getLsbD m.val = (s.iar.getLsbD m.val || decide (m = k)) := fun m => by
    rw [BitVec.getLsbD_or, levelBit_bit]
  obtain hlt | rfl | hgt := lt_trichotomy j k
  · have hk := (hjabove k hlt).2
    rw [hiar] at hk
    simp at hk
  · rw [hiar] at hinactive
    simp at hinactive
  · exact Bool.false_ne_true ((habove j hgt).1.symm.trans hpending)

/-! ## Program memory, and the invariant -/

/-- Settles O57: of what a step can do, only an instruction is more than an update of other fields. -/
theorem programMemoryIsNeverWritten : Obligations.ProgramMemoryIsNeverWritten := by
  intro s t h
  obtain ⟨rest, -, rfl⟩ | ⟨u, hu, h⟩ := step_next_cases h
  · exact ⟨rfl, rfl⟩
  · have hus : u.rom = s.rom ∧ u.chip = s.chip := by
      obtain ⟨-, rfl⟩ | ⟨r, rest, -, rfl⟩ := hu <;> exact ⟨rfl, rfl⟩
    rw [← hus.1, ← hus.2]
    obtain ⟨k, -, hack⟩ | ⟨-, rfl⟩ | ⟨-, i, -, hexec⟩ := h
    · obtain ⟨-, ht, -, -⟩ := acknowledge_frame hack
      rw [ht]
      exact ⟨rfl, rfl⟩
    · exact ⟨rfl, rfl⟩
    · exact ⟨(exec_frame hexec).rom, (exec_frame hexec).chip⟩

theorem hardReset_ram_wf (s : State) : MemWf 256 s.hardReset.ram := cellsOf_wf _ 0 256

/-- A reset selects bank 1, whatever bits 1 and 0 of RBR become. -/
theorem hardReset_rbr (s : State) : s.hardReset.rbr.extractLsb' 2 2 = 0#2 := by
  have hbits : ∀ low : BitVec 2, (0#2 ++ low : BitVec 4).extractLsb' 2 2 = 0#2 := by decide
  exact hbits (Config.resetRbrLow s.draws)

theorem hardReset_bank (s : State) : s.hardReset.bank = 0 := congrArg BitVec.toNat (hardReset_rbr s)

theorem inv_hardReset {s : State} (h : s.Inv) : s.hardReset.Inv := by
  obtain ⟨-, hrom, -, -, -⟩ := h
  exact ⟨hardReset_ram_wf s, hrom, fun hs => absurd hs Bool.false_ne_true, BitVec.zero_and, fun _ => hardReset_bank s⟩

theorem inv_latch {s : State} (r : BitVec 8) (h : s.Inv) : (s.latch r).Inv := by
  obtain ⟨hram, hrom, hsleep, hactive, hbank⟩ := h
  exact ⟨hram, hrom, hsleep, active_pending_of_requested r hactive, hbank⟩

theorem inv_acknowledge {s t : State} {k : Level} (h : s.Inv) (hdue : AcknowledgeDue s k) (hack : s.acknowledge k = .ok t) :
    t.Inv := by
  obtain ⟨hram, hrom, -, hactive, hbank⟩ := h
  obtain ⟨-, hpending, -, -⟩ := hdue
  obtain ⟨-, ht, -, hwf⟩ := acknowledge_frame hack
  rw [ht]
  exact ⟨hwf hram, hrom, fun hs => absurd hs Bool.false_ne_true, active_pending_of_acknowledged hpending hactive, hbank⟩

/-- SLEEP alone stops an awake core, with interrupts enabled and none active (44_branch_system.md R169). -/
theorem exec_asleep {i : Instr} {s t : State} (h : exec i s = .next t) (hawake : s.asleep = false) (hs : t.asleep = true) :
    t.ccr.i = true ∧ t.iar = 0#8 := by
  by_cases hi : i = .sleep
  · subst hi
    rw [exec_sleep, Host.Outcome.next.injEq] at h
    subst h
    have hstops : (s.asleep || (s.ipr == 0#8 && s.iar == 0#8)) = true := hs
    rw [hawake, Bool.false_or, Bool.and_eq_true, beq_iff_eq, beq_iff_eq] at hstops
    exact ⟨rfl, hstops.2⟩
  · have hkept : t.asleep = s.asleep := (exec_frame h).kept .asleep fun hw => hi (writer_of_asleep hw)
    rw [hkept, hawake] at hs
    exact absurd hs Bool.false_ne_true

theorem swi_ipr {s t : State} (h : exec .swi s = .next t) : ∃ r, t.ipr = s.ipr ||| r := by
  simp only [exec_swi, finish_next_iff, res_bind_ok_iff, Prod.exists] at h
  obtain ⟨n2, u, hu, n1, v, hv, h⟩ := h
  obtain ⟨-, -, rfl⟩ := pop_ok_iff.1 hu
  obtain ⟨-, -, rfl⟩ := pop_ok_iff.1 hv
  obtain ⟨-, rfl⟩ := ite_ok_iff.1 h
  exact ⟨n1 ++ n2, rfl⟩

/-- No instruction leaves an active level that is not pending: SWI adds pending levels, RTI clears a level in both registers. -/
theorem exec_active_pending {i : Instr} {s t : State} (h : exec i s = .next t) (hactive : s.iar &&& ~~~s.ipr = 0#8) :
    t.iar &&& ~~~t.ipr = 0#8 := by
  have hframe := exec_frame h
  by_cases hrti : i = .rti
  · subst hrti
    rw [exec_rti, finish_next_iff] at h
    obtain ⟨w, u, hpop, rfl⟩ := returnFromInterrupt_ok h
    obtain ⟨-, -, rfl⟩ := rpop_ok_iff.1 hpop
    obtain ⟨-, e⟩ | ⟨k, -, e⟩ := endService_cases { s with rp := s.rp - 4 } <;> rw [e]
    · exact hactive
    · exact active_pending_of_cleared (levelBit k) hactive
  · have hiar : t.iar = s.iar := hframe.kept .iar fun hw => hrti (writer_of_iar hw)
    rw [hiar]
    by_cases hswi : i = .swi
    · subst hswi
      obtain ⟨r, hipr⟩ := swi_ipr h
      rw [hipr]
      exact active_pending_of_requested r hactive
    · have hipr : t.ipr = s.ipr := hframe.kept .ipr fun hw => hswi (by cases i <;> simp_all [writes])
      rwa [hipr]

theorem inv_exec {i : Instr} {s t : State} (h : s.Inv) (hawake : s.asleep = false) (hexec : exec i s = .next t) : t.Inv := by
  obtain ⟨hram, hrom, -, hactive, hbank⟩ := h
  have hframe := exec_frame hexec
  refine ⟨hframe.ram hram, hframe.rom ▸ hrom, exec_asleep hexec hawake, exec_active_pending hexec hactive, fun hport => ?_⟩
  rw [hframe.chip] at hport
  unfold State.bank
  rw [exec_keeps_rbr hexec (.inr hport)]
  exact hbank hport

/-- Settles O54: along what a step can do. -/
theorem stepKeepsInvariant : Obligations.StepKeepsInvariant := by
  intro s t hs h
  obtain ⟨rest, -, rfl⟩ | ⟨u, hu, h⟩ := step_next_cases h
  · exact inv_hardReset (s := { s with env := rest }) hs
  · have hinv : u.Inv := by
      obtain ⟨-, rfl⟩ | ⟨r, rest, -, rfl⟩ := hu
      · exact hs
      · exact inv_latch (s := { s with env := rest }) r hs
    obtain ⟨k, hdue, hack⟩ | ⟨-, rfl⟩ | ⟨hawake, i, -, hexec⟩ := h
    · exact inv_acknowledge hinv hdue hack
    · exact hinv
    · exact inv_exec hinv hawake hexec

/-- Settles O53: the memories are empty and everything else evaluates. -/
theorem resetHasInvariant : Obligations.ResetHasInvariant := by
  refine ⟨?ram, ?rom, fun hs => absurd hs Bool.false_ne_true, rfl, fun _ => rfl⟩ <;>
    exact ⟨List.Pairwise.nil, fun c hc => absurd hc List.not_mem_nil⟩

/-! ## Reset -/

/-- Settles O51: the fields of `State.reset`. -/
theorem resetValues : Obligations.ResetValues := ⟨rfl, rfl, rfl, rfl, rfl, rfl⟩

theorem step_of_reset {s : State} {rest : List EnvEvent} (h : s.env = .reset :: rest) :
    step s = .next { s with env := rest }.hardReset := by
  unfold step State.boundary
  rw [h]

/-- Settles O52: the step is the reset itself, and its free values are in none of the fields named. -/
theorem resetEventResult : Obligations.ResetEventResult := by
  intro s rest henv
  exact ⟨_, step_of_reset henv, rfl, rfl, rfl, rfl, hardReset_rbr _, rfl, rfl, rfl, rfl, rfl, hardReset_ram_wf _⟩

/-! ## The boundary -/

/-- What a step answers at a boundary. -/
def Boundary.outcome (b : Boundary) : Host.Outcome State Fault Refusal :=
  match b with
  | .settled t => .next t
  | .execute i t => exec i t
  | .stopped e => e.outcome

theorem env_cases (s : State) :
    s.env = [] ∨ (∃ r rest, s.env = .request r :: rest) ∨ ∃ rest, s.env = .reset :: rest := by
  rcases s.env with _ | ⟨r | _, rest⟩
  · exact .inl rfl
  · exact .inr (.inl ⟨r, rest, rfl⟩)
  · exact .inr (.inr ⟨rest, rfl⟩)

section

variable {s : State}

theorem step_of_no_event (h : s.env = []) : step s = s.proceed.outcome := by
  unfold step State.boundary
  rw [h]
  rfl

theorem step_of_request {r : BitVec 8} {rest : List EnvEvent} (h : s.env = .request r :: rest) :
    step s = ({ s with env := rest }.latch r).proceed.outcome := by
  unfold step State.boundary
  rw [h]
  rfl

theorem proceed_of_acknowledged {k : Level} (h : s.acknowledged = some k) : s.proceed.outcome = finish (s.acknowledge k) := by
  simp only [State.proceed, h]
  cases s.acknowledge k <;> rfl

theorem proceed_of_asleep (h : s.acknowledged = none) (hs : s.asleep = true) : s.proceed = .settled s := by
  unfold State.proceed
  rw [h]
  exact if_pos hs

theorem proceed_of_fetch {i : Instr} (h : s.acknowledged = none) (hs : s.asleep = false) (hf : s.fetch = .ok i) :
    s.proceed = .execute i s := by
  unfold State.proceed
  rw [h, hs, hf]
  rfl

theorem proceed_of_fetch_error {e : Stop} (h : s.acknowledged = none) (hs : s.asleep = false) (hf : s.fetch = .error e) :
    s.proceed = .stopped e := by
  unfold State.proceed
  rw [h, hs, hf]
  rfl

end

/-- Settles O49: nothing is acknowledged, so the boundary is all of the step. -/
theorem sleepGoesOn : Obligations.SleepGoesOn := by
  intro s henv hs hnone
  rw [step_of_no_event henv, proceed_of_asleep (acknowledged_none_iff.2 hnone) hs]
  rfl

/-- The bytes at PC decode to what the fetch delivers (30_encoding.md R78). -/
theorem decode_codeBytes (s : State) :
    decode s.codeBytes =
      .ok (if opLength (s.romAt s.pc) = 2 then decodeOp (s.romAt s.pc) (s.romAt (s.pc + 1))
        else decodeOp (s.romAt s.pc) 0#8, []) := by
  unfold State.codeBytes
  split <;> rename_i hlen <;> simp [decode, hlen]

/-- Settles O44: the fetch delivers the instruction the bytes at PC decode to. -/
theorem stepRunsTheDecodedInstruction : Obligations.StepRunsTheDecodedInstruction := by
  intro s i henv hnone hs hpresent hdecode
  rw [decode_codeBytes, Except.ok.injEq, Prod.mk.injEq] at hdecode
  have hfetch : s.fetch = .ok i := fetch_ok_iff.2 ⟨hpresent, hdecode.1.symm⟩
  rw [step_of_no_event henv, proceed_of_fetch (acknowledged_none_iff.2 hnone) hs hfetch]
  rfl

/-! ## The boundary under the fields that decide nothing -/

theorem acknowledge_tame (g : Ghost) (s : State) (k : Level) :
    Tame g [.rp] { s with asleep := false, iar := s.iar ||| levelBit k } ((g.put s).acknowledge k) (s.acknowledge k) :=
  .rpush .refl (fun _ h => .jump h) (by simp)

/-- With the cycle count or the events ahead put to other values, a boundary comes to the same but for them. -/
theorem proceed_put (g : Ghost) (s : State) (hg : g.ccr2 = none) :
    mapNext g.put (g.put s).proceed.outcome = mapNext g.put s.proceed.outcome := by
  cases hack : s.acknowledged with
  | some k =>
    rw [proceed_of_acknowledged hack, proceed_of_acknowledged (s := g.put s) hack, mapNext_finish, mapNext_finish,
      (acknowledge_tame g s k).agree]
  | none =>
    cases hs : s.asleep with
    | true =>
      rw [proceed_of_asleep hack hs, proceed_of_asleep (s := g.put s) hack hs]
      exact congrArg Host.Outcome.next (put_put g s)
    | false =>
      cases hf : s.fetch with
      | ok i =>
        rw [proceed_of_fetch hack hs hf, proceed_of_fetch (s := g.put s) hack hs hf]
        exact exec_put g i s fun _ => hg
      | error e => rw [proceed_of_fetch_error hack hs hf, proceed_of_fetch_error (s := g.put s) hack hs hf]

/-- Settles O60: the count is put to one value before either run, at each of the boundaries. -/
theorem cyclesAreOnlyObserved : Obligations.CyclesAreOnlyObserved := by
  intro s n
  have hput := fun u => proceed_put { ccr2 := none, cycles := some 0, env := none } u rfl
  obtain henv | ⟨r, rest, henv⟩ | ⟨rest, henv⟩ := env_cases s
  · rw [step_of_no_event henv, step_of_no_event (s := { s with cycles := n }) henv]
    exact (hput { s with cycles := n }).symm.trans (hput s)
  · rw [step_of_request henv, step_of_request (s := { s with cycles := n }) henv]
    exact (hput ({ s with cycles := n, env := rest }.latch r)).symm.trans (hput ({ s with env := rest }.latch r))
  · rw [step_of_reset henv, step_of_reset (s := { s with cycles := n }) henv]
    rfl

/-! ## Requests -/

/-- What comes after the environment's turn leaves the events ahead. -/
theorem proceed_env {s t : State} (h : s.proceed.outcome = .next t) : t.env = s.env := by
  obtain ⟨k, u, -, hack, hp⟩ | ⟨k, e, -, -, hp⟩ | ⟨-, -, hp⟩ | ⟨-, -, i, -, hp⟩ | ⟨-, -, e, -, hp⟩ := proceed_cases s <;>
    rw [hp] at h
  · cases h
    obtain ⟨-, ht, -, -⟩ := acknowledge_frame hack
    rw [ht]
  · exact absurd h (stop_outcome_ne_next e t)
  · cases h
    rfl
  · exact (exec_frame h).env
  · exact absurd h (stop_outcome_ne_next e t)

theorem mapNext_eq_self {f : State → State} {o : Host.Outcome State Fault Refusal} (h : ∀ t, o = .next t → f t = t) :
    mapNext f o = o := by
  cases o with
  | next t => exact congrArg Host.Outcome.next (h t rfl)
  | fault e => rfl
  | refused e => rfl

/-- A step with a request is the step without it, the request being latched (60_exceptions.md R253). -/
theorem step_request (s : State) (r : BitVec 8) (rest : List EnvEvent) :
    step { s with env := .request r :: rest } =
      mapNext (fun t => { t with env := rest }) (step { s with env := [], ipr := s.ipr ||| r }) := by
  have hput := proceed_put { ccr2 := none, cycles := none, env := some rest } { s with env := [], ipr := s.ipr ||| r } rfl
  rw [step_of_request (s := { s with env := .request r :: rest }) rfl, step_of_no_event rfl]
  refine Eq.trans (mapNext_eq_self fun t ht => ?_).symm hput
  have henv : t.env = rest := proceed_env ht
  rw [← henv]
  rfl

/-- Settles O48: of the second part, both steps are the one without an event in a state with the same IPR. -/
theorem requestsAreLatched : Obligations.RequestsAreLatched := by
  refine ⟨step_request, fun s r rest h => ?_⟩
  rw [step_request, step_request, h, BitVec.or_zero]

/-! ## Waking -/

/-- With interrupts enabled and none active, the highest pending level is due. -/
theorem due_of_highest {s : State} {k : Level} (hi : s.ccr.i = true) (hiar : s.iar = 0#8) (hk : HighestBit s.ipr k) :
    AcknowledgeDue s k := by
  have hinactive : ∀ j : Level, s.iar.getLsbD j.val = false := fun j => by rw [hiar, BitVec.getLsbD_zero]
  exact ⟨hi, hk.1, hinactive k, fun j hj => ⟨hk.2 j hj, hinactive j⟩⟩

/-- With interrupts enabled, none active and some pending, the boundary enters the highest pending level. -/
theorem proceed_of_highest {s : State} {k : Level} (hi : s.ccr.i = true) (hiar : s.iar = 0#8) (hk : HighestBit s.ipr k)
    (hentry : s.rsHas (s.rp + 4)) :
    ∃ t, s.proceed.outcome = .next t ∧ t.asleep = false ∧ t.pc = vector k ∧ t.iar = 1#8 <<< k.val ∧ t.ipr = s.ipr ∧
      t.rp = s.rp + 4 ∧ t.ccr = s.ccr ∧ t.rsAt t.rp = if s.rp + 4 = autosleepEntry then 0x000#12 else s.pc := by
  obtain ⟨t, ht⟩ := acknowledge_of_rsHas k hentry
  obtain ⟨-, hframe, hcells, -⟩ := acknowledge_frame ht
  have hproceed : s.proceed.outcome = .next t := by
    rw [proceed_of_acknowledged (acknowledged_iff.2 (due_of_highest hi hiar hk)), ht, finish_ok]
  have hrp : t.rp = s.rp + 4 := by rw [hframe]
  have hchip : t.chip = s.chip := by rw [hframe]
  have hactive : t.iar = s.iar ||| levelBit k := by rw [hframe]
  rw [hiar, BitVec.zero_or] at hactive
  refine ⟨t, hproceed, by rw [hframe], by rw [hframe], hactive, by rw [hframe], hrp, by rw [hframe], ?_⟩
  rw [hrp, rsAt_of_setEntry hchip hcells]

/-- Settles O50: a sleeping core has interrupts enabled and no active level, so the highest level requested is due at once. -/
theorem requestWakesTheCore : Obligations.RequestWakesTheCore := by
  rintro s r rest ⟨-, -, hsleep, -, -⟩ hs henv hrequested hentry
  obtain ⟨hi, hiar⟩ := hsleep hs
  obtain ⟨k, hlevel⟩ := Option.ne_none_iff_exists'.1 (mt hiLevel_none_iff.1 hrequested)
  have hk : HighestBit (s.ipr ||| r) k := hiLevel_some_iff.1 hlevel
  obtain ⟨t, hproceed, hwoken⟩ := proceed_of_highest (s := { s with env := rest }.latch r) hi hiar hk hentry
  exact ⟨k, t, hk, (step_of_request henv).trans hproceed, hwoken⟩

end Sys2Proof.Machine
end

section
/-!
SUPPORT and the statements of the remaining instructions: DECR, the register fetches, SP!, TABLE, CCR@ and CCR!, BRA and SBRA, SWI,
SLEEP and OUT, with the refusals of SBRA, SWI, OUT and the memory instructions; and of the ROM banks (20_memory.md R44).
-/

namespace Sys2Proof.Machine

open Sys2Proof.Laws

section

variable {i : Instr} {s : State}

/-! ## Pushes of a byte, and TABLE -/

/-- The state a push of a byte answers, the upper nibble first (20_memory.md R48). -/
def State.pushedByte (s : State) (v : BitVec 8) : State :=
  (s.pushed (hiNibble v)).pushed (loNibble v)

theorem add_two (a : RamAddr) : a + 2 = a + 1 + 1 := by bv_omega

theorem pushByte_of_ramHas (v : BitVec 8) (h1 : s.ramHas (s.sp + 1)) (h2 : s.ramHas (s.sp + 2)) :
    s.pushByte v = .ok (s.pushedByte v) := by
  rw [add_two] at h2
  unfold State.pushByte
  rw [push_of_ramHas _ h1, res_bind_ok, push_of_ramHas (s := s.pushed _) _ h2]
  rfl

theorem pushedByte_frame (s : State) (v : BitVec 8) :
    s.pushedByte v = { s with tos := loNibble v, sp := s.sp + 2, ram := (s.pushedByte v).ram } := by
  rw [add_two]
  rfl

/-- The cells after a byte is pushed: the old TOS and the byte's upper nibble. -/
theorem pushedByte_ramAt (s : State) (v : BitVec 8) :
    (s.pushedByte v).ramAt = setCell (setCell s.ramAt (s.sp + 1) s.tos) (s.sp + 2) (hiNibble v) := by
  rw [State.pushedByte, pushed_ramAt, pushed_ramAt, add_two]
  rfl

/-- The frame of SP@, RP@, X@ and Y@, `v` being the register. -/
theorem completes_of_pushByte {v : BitVec 8}
    (hexec : exec i s = finish (s.pushByte v >>= fun t => .ok (t.advance 1 2))) (h1 : s.ramHas (s.sp + 1))
    (h2 : s.ramHas (s.sp + 2)) :
    Completes i s { s with pc := s.pc + 1, tos := loNibble v, sp := s.sp + 2, cycles := s.cycles + 2 }
      (setCell (setCell s.ramAt (s.sp + 1) s.tos) (s.sp + 2) (hiNibble v)) := by
  rw [pushByte_of_ramHas v h1 h2] at hexec
  refine completes_of_next hexec ?_ (pushedByte_ramAt s v)
  rw [pushedByte_frame]
  rfl

/-- The state a pop of the Return Stack answers with the word of the entry at RP (10_state.md R18). -/
def State.rpopped (s : State) : State :=
  { s with rp := s.rp - 4 }

/-- TABLE reads the first entry before the pushes, which come to `t`, and the second after them. -/
theorem exec_table_of_present {t : State} (hentry : s.rsHas s.rp) (hrom : s.romHas (s.rsAt s.rp)) (h1 : s.ramHas (s.sp + 1))
    (h2 : s.ramHas (s.sp + 2)) (hlower : s.rsHas (s.rp - 4)) (ht : s.rpopped.pushedByte (s.romAt (s.rsAt s.rp)) = t) :
    exec .table s = .next (t.rpopped.jump (t.rsAt (s.rp - 4)) 3) := by
  subst ht
  exact finish_bind_of_ok (rpop_of_rsHas hentry) <|
    finish_bind_of_ok (romRead_ok_iff.2 ⟨hrom, rfl⟩) <|
      finish_bind_of_ok (pushByte_of_ramHas (s := s.rpopped) _ h1 h2) <|
        finish_bind_of_ok (rpop_of_rsHas (s := s.rpopped.pushedByte _) hlower) rfl

/-! ## The condition code register as a nibble -/

/-- The register's image is its bits by their places (10_state.md R21). -/
theorem toNibble_eq (f : Ccr) :
    f.toNibble = BitVec.ofNat 4 (8 * f.c.toNat + 4 * f.ccr2.toNat + 2 * f.b.toNat + f.i.toNat) := by
  have hbits : ∀ c ccr2 b i : Bool, BitVec.ofBool c ++ BitVec.ofBool ccr2 ++ BitVec.ofBool b ++ BitVec.ofBool i =
      BitVec.ofNat 4 (8 * c.toNat + 4 * ccr2.toNat + 2 * b.toNat + i.toNat) := by decide
  exact hbits f.c f.ccr2 f.b f.i

/-! ## Branches -/

theorem exec_sbra_not_taken (a : BitVec 6) (h : s.ccr.b = false) : exec (.sbra a) s = .next (s.advance 1 2) := by
  simp [exec, execSbra, h]

theorem exec_sbra_taken (a : BitVec 6) (h : s.ccr.b = true) :
    exec (.sbra a) s = finish (s.pageTarget a >>= fun target => .ok (s.jump target 2)) := by
  simp [exec, execSbra, h]

/-! ## SWI, SLEEP and OUT -/

theorem swiOperandOk_iff : ∀ n : Nibble, swiOperandOk n = true ↔ n ∈ [0#4, 1#4, 2#4, 4#4, 8#4] := by decide

/-- SWI and OUT take their two operands alike. -/
theorem pop_pop_of_ramHas {k : Nibble × State → Nibble × State → Res State} (h0 : s.ramHas s.sp) (h1 : s.ramHas (s.sp - 1)) :
    (s.pop >>= fun r1 => r1.2.pop >>= fun r2 => k r1 r2) = k (s.tos, s.popped) (s.ramAt s.sp, s.popped.popped) := by
  rw [pop_of_ramHas h0, res_bind_ok, pop_of_ramHas (s := s.popped) h1]
  rfl

theorem popped_popped (s : State) : s.popped.popped = { s with tos := s.ramAt (s.sp - 1), sp := s.sp - 2 } := by
  have hsp : s.sp - 2 = s.sp - 1 - 1 := by bv_omega
  rw [hsp]
  rfl

section

variable {p : Port} {v : Nibble}

theorem portWrite_elsewhere (h : s.chip.rbrPort ≠ some p) : s.portWrite p v = .ok { s with out := s.out ++ [(p, v)] } :=
  if_neg h

theorem portWrite_bank (h : s.chip.rbrPort = some p) (hpc : s.pc.toNat < 0x800) :
    s.portWrite p v = .ok { s with out := s.out ++ [(p, v)], rbr := v } :=
  (if_pos h).trans (if_pos hpc)

theorem portWrite_in_bank (h : s.chip.rbrPort = some p) (hpc : 0x800 ≤ s.pc.toNat) :
    s.portWrite p v = .error (.refused (.bankSwitchInBank s.pc)) :=
  (if_pos h).trans (if_neg hpc.not_gt)

end

/-- OUT, once its operands are taken, is the port write. -/
theorem exec_outPort_of_ramHas (h0 : s.ramHas s.sp) (h1 : s.ramHas (s.sp - 1)) :
    exec .outPort s = finish (s.popped.popped.portWrite s.tos (s.ramAt s.sp) >>= fun t =>
      .ok (t.disturbCcr2.advance 1 1)) := by
  rw [exec_outPort, pop_pop_of_ramHas h0 h1]

/-! ## Memory instructions at a stack cell -/

theorem exec_ptrFetch_collision (r : PtrReg) (m : PtrMode) (h : m.ea (s.ptr r) = s.sp + 1) :
    exec (ptrFetch r m) s = .refused (.stackCellCollision (m.ea (s.ptr r))) := by
  have hvia : s.fetchVia r m = .error (.refused (.stackCellCollision (m.ea (s.ptr r)))) := if_pos h
  rw [exec_ptrFetch, hvia]
  rfl

theorem exec_ptrStore_collision (r : PtrReg) (m : PtrMode) (h : m.ea (s.ptr r) = s.sp) :
    exec (ptrStore r m) s = .refused (.stackCellCollision (m.ea (s.ptr r))) := by
  have hvia : s.storeVia r m = .error (.refused (.stackCellCollision (m.ea (s.ptr r)))) := if_pos h
  rw [exec_ptrStore, hvia]
  rfl

/-! ## ROM banks -/

/-- Below 800h the place in the image is the address, whatever the bank (20_memory.md R44). -/
theorem romIndex_base {a : RomAddr} (h : a.toNat < 0x800) : s.romIndex a = a.toNat := if_pos h

/-- From 800h on it is the address shifted by the banks before (20_memory.md R44). -/
theorem romIndex_banked {a : RomAddr} (h : ¬a.toNat < 0x800) : s.romIndex a = s.bank * 0x800 + a.toNat := by
  unfold State.romIndex
  rw [if_neg h]
  omega

theorem bank_inj {t : State} : t.bank = s.bank ↔ t.rbr.extractLsb' 2 2 = s.rbr.extractLsb' 2 2 := BitVec.toNat_inj

/-- Two addresses show one place exactly if they are one address in the base bank or in one and the same other. -/
theorem romIndex_eq_iff {t : State} (a b : RomAddr) :
    t.romIndex a = s.romIndex b ↔ a = b ∧ (a.toNat < 0x800 ∨ t.bank = s.bank) := by
  rw [← BitVec.toNat_inj]
  have ha := a.isLt
  have hb := b.isLt
  by_cases hla : a.toNat < 0x800 <;> by_cases hlb : b.toNat < 0x800
  · rw [romIndex_base hla, romIndex_base hlb]; omega
  · rw [romIndex_base hla, romIndex_banked hlb]; omega
  · rw [romIndex_banked hla, romIndex_base hlb]; omega
  · rw [romIndex_banked hla, romIndex_banked hlb]; omega

end

/-! ## The statements -/

/-- Settles O5: DECR defines bits 3 to 0 of the entry alone, and `B` says what is in them. -/
theorem decrResult : Obligations.DecrResult := by
  refine ⟨encodedAs_singleton LengthOfFirstByte.decr rfl rfl, fun s h => ?_⟩
  obtain ⟨t, ht⟩ := rsWrite_of_rsHas
    (entryH (s.rsAt s.rp) ++ entryM (s.rsAt s.rp) ++ (entryL (s.rsAt s.rp) - 1#4)) .low4 h
  obtain ⟨-, hframe, hcells, -⟩ := rsWrite_ok ht
  have hexec := exec_decr s
  rw [rsRead_of_rsHas h, res_bind_ok, ht] at hexec
  have hflag : (entryL (s.rsAt s.rp) - 1#4 != 0#4) = decide (entryL (s.rsAt s.rp) - 1#4 ≠ 0#4) :=
    decide_not.symm
  rw [rsWord_low4] at hcells
  refine completes_of_next hexec ?_ hcells
  rw [hframe, hflag]
  rfl

/-- Settles O21: the four differ in the byte they push. -/
theorem registerFetchResults : Obligations.RegisterFetchResults :=
  ⟨encodedAs_singleton LengthOfFirstByte.getSp rfl rfl, encodedAs_singleton LengthOfFirstByte.getRp rfl rfl,
    encodedAs_singleton LengthOfFirstByte.getX rfl rfl, encodedAs_singleton LengthOfFirstByte.getY rfl rfl,
    fun _ h1 h2 => ⟨completes_of_pushByte rfl h1 h2, completes_of_pushByte rfl h1 h2, completes_of_pushByte rfl h1 h2,
      completes_of_pushByte rfl h1 h2⟩⟩

/-- Settles O30: the word returned to is the one in the cells after the pushes. -/
theorem tableResult : Obligations.TableResult := by
  refine ⟨encodedAs_singleton LengthOfFirstByte.table rfl rfl, fun s hentry hrom h1 h2 hlower => ?_⟩
  obtain ⟨t, ht⟩ : ∃ t, s.rpopped.pushedByte (s.romAt (s.rsAt s.rp)) = t := ⟨_, rfl⟩
  have hframe := pushedByte_frame s.rpopped (s.romAt (s.rsAt s.rp))
  have hcells := pushedByte_ramAt s.rpopped (s.romAt (s.rsAt s.rp))
  have hrp : s.rp - 8 = s.rp - 4 - 4 := by bv_omega
  rw [ht] at hframe hcells
  refine completes_of_next (exec_table_of_present hentry hrom h1 h2 hlower ht) ?_ hcells
  rw [rsAt_eq, hcells, hframe, hrp]
  rfl

/-- Settles O10: a push of the register's image, and a pop into the register. -/
theorem ccrFetchAndStoreResults : Obligations.CcrFetchAndStoreResults := by
  refine ⟨encodedAs_singleton LengthOfFirstByte.ccrFetch rfl rfl, encodedAs_singleton LengthOfFirstByte.ccrStore rfl rfl,
    fun s h => ?fetch, fun s h => ?store⟩
  case fetch =>
    rw [← toNibble_eq]
    exact completes_of_push (exec_ccrFetch s) h rfl
  case store =>
    have hexec := exec_ccrStore s
    rw [pop_of_ramHas h] at hexec
    exact completes_of_exec hexec

/-- Settles O22: the cell at SP is read, and nothing is popped. -/
theorem setSpResult : Obligations.SetSpResult := by
  refine ⟨encodedAs_singleton LengthOfFirstByte.setSp rfl rfl, fun s h => ?_⟩
  have hexec := exec_setSp s
  rw [ramRead_of_ramHas h] at hexec
  exact completes_of_exec hexec

/-- Settles O11: the two values of `B`. -/
theorem braAndSbraResults : Obligations.BraAndSbraResults := by
  refine ⟨encodedAs_bra, encodedAs_sbra, fun s target => ?bra, fun s a hplace => ?sbra⟩
  case bra =>
    have hexec := exec_bra target s
    cases hb : s.ccr.b <;> rw [hb] at hexec <;> exact completes_of_exec hexec
  case sbra =>
    cases hb : s.ccr.b with
    | false => exact completes_of_exec (exec_sbra_not_taken a hb)
    | true =>
      have hpage : s.pageTarget a = .ok (s.pc.extractLsb' 6 6 ++ a) :=
        pageTarget_ok_iff.2 ⟨hplace.resolve_left (by simp [hb]), rfl⟩
      exact completes_of_exec (by rw [exec_sbra_taken a hb, hpage]; rfl)

/-- Settles O12: the page of a taken SBRA's target is not known there. -/
theorem takenSbraAtPageEndIsRefused : Obligations.TakenSbraAtPageEndIsRefused := by
  intro s a hb hplace
  have hpage : s.pageTarget a = .error (.refused (.sbraAtPageEnd s.pc)) := if_pos hplace
  rw [exec_sbra_taken a hb, hpage]
  rfl

/-- Settles O16: both operands pass the test. -/
theorem swiResult : Obligations.SwiResult := by
  refine ⟨encodedAs_singleton LengthOfFirstByte.swi rfl rfl, fun s h0 h1 hn1 hn2 => ?_⟩
  have hexec := exec_swi s
  rw [pop_pop_of_ramHas h0 h1, popped_popped, if_pos (by rw [(swiOperandOk_iff _).2 hn1, (swiOperandOk_iff _).2 hn2]; rfl)]
    at hexec
  exact completes_of_exec hexec

/-- Settles O17: one operand fails the test. -/
theorem swiOtherOperandsAreRefused : Obligations.SwiOtherOperandsAreRefused := by
  intro s h0 h1 hother
  rw [← swiOperandOk_iff, ← swiOperandOk_iff] at hother
  rw [exec_swi, pop_pop_of_ramHas h0 h1, if_neg (by simpa [imp_iff_not_or] using hother)]
  rfl

/-- Settles O18: the test for nothing pending and nothing active is on both registers. -/
theorem sleepResult : Obligations.SleepResult := by
  refine ⟨encodedAs_singleton LengthOfFirstByte.sleep rfl rfl, fun s => ?_⟩
  have hstops : decide (s.ipr = 0#8 ∧ s.iar = 0#8) = (s.ipr == 0#8 && s.iar == 0#8) := Bool.decide_and _ _
  rw [hstops]
  exact completes_of_exec (exec_sleep s)

/-- Settles O35: the event is all of the port write. -/
theorem outResult : Obligations.OutResult := by
  refine ⟨encodedAs_singleton LengthOfFirstByte.outPort rfl rfl, fun s h0 h1 hport => ?_⟩
  have hexec := exec_outPort_of_ramHas h0 h1
  rw [portWrite_elsewhere (s := s.popped.popped) hport, popped_popped] at hexec
  exact completes_of_exec hexec

/-- Settles O36: where the program runs decides. -/
theorem outToBankRegister : Obligations.OutToBankRegister := by
  refine fun s h0 h1 hport => ⟨fun hpc => ?_, fun hpc => ?_⟩ <;> have hexec := exec_outPort_of_ramHas h0 h1
  · rw [portWrite_bank (s := s.popped.popped) hport hpc, popped_popped] at hexec
    exact completes_of_exec hexec
  · rw [hexec, portWrite_in_bank (s := s.popped.popped) hport hpc]
    rfl

/-- Settles O33: the sixteen are the two registers in the four modes. -/
theorem stackCellCollisionsAreRefused : Obligations.StackCellCollisionsAreRefused := fun _ =>
  ⟨exec_ptrFetch_collision .x .indirect, exec_ptrFetch_collision .x .preIncrement, exec_ptrFetch_collision .x .postDecrement,
    fun a => exec_ptrFetch_collision .x (.direct a),
    exec_ptrFetch_collision .y .indirect, exec_ptrFetch_collision .y .preIncrement, exec_ptrFetch_collision .y .postDecrement,
    fun a => exec_ptrFetch_collision .y (.direct a),
    exec_ptrStore_collision .x .indirect, exec_ptrStore_collision .x .preIncrement, exec_ptrStore_collision .x .postDecrement,
    fun a => exec_ptrStore_collision .x (.direct a),
    exec_ptrStore_collision .y .indirect, exec_ptrStore_collision .y .preIncrement, exec_ptrStore_collision .y .postDecrement,
    fun a => exec_ptrStore_collision .y (.direct a)⟩

/-- Settles O39: what is read is the image at the place, and two places are one by `romIndex_eq_iff`. -/
theorem romBankSelection : Obligations.RomBankSelection := by
  intro s v t
  have hindex : ∀ a b, t.romIndex a = s.romIndex b ↔
      a = b ∧ (a.toNat < 0x800 ∨ v.extractLsb' 2 2 = s.rbr.extractLsb' 2 2) := fun a b => by
    rw [romIndex_eq_iff, bank_inj]
  exact ⟨fun a ha => congrArg (cellRead s.rom) ((hindex a a).2 ⟨rfl, .inl ha⟩),
    fun hv a => congrArg (cellRead s.rom) ((hindex a a).2 ⟨rfl, .inr hv⟩), hindex⟩

end Sys2Proof.Machine
end

section
/-!
SUPPORT and the statements about accesses that stop (20_memory.md R40, R44, R49): every instruction that accesses an unaligned
entry, or memory that is not there, ends its chain at that access.
-/

namespace Sys2Proof.Machine

section

variable {s : State}

/-! ## Where the chains end -/

theorem fetch_absent_first (h : ¬s.romHas s.pc) : s.fetch = .error (.fault (.romAbsent s.pc)) := by
  unfold State.fetch
  rw [romRead_absent h]
  rfl

theorem fetch_absent_second (h0 : s.romHas s.pc) (hlen : opLength (s.romAt s.pc) = 2) (h1 : ¬s.romHas (s.pc + 1)) :
    s.fetch = .error (.fault (.romAbsent (s.pc + 1))) := by
  unfold State.fetch
  rw [romRead_ok_iff.2 ⟨h0, rfl⟩, res_bind_ok, if_pos hlen, romRead_absent h1]
  rfl

/-- A step whose fetch stops, stops there. -/
theorem step_of_fetch_error {e : Stop} (henv : s.env = []) (hnone : ∀ k, ¬AcknowledgeDue s k) (hs : s.asleep = false)
    (hf : s.fetch = .error e) : step s = e.outcome := by
  rw [step_of_no_event henv, proceed_of_fetch_error (acknowledged_none_iff.2 hnone) hs hf]
  rfl

theorem sub_two (a : RamAddr) : a - 2 = a - 1 - 1 := by bv_omega

theorem popByte_absent_first (h : ¬s.ramHas s.sp) : s.popByte = .error (.fault (.ramAbsent s.sp)) := by
  unfold State.popByte
  rw [pop_absent h]
  rfl

theorem popByte_absent_second (h0 : s.ramHas s.sp) (h1 : ¬s.ramHas (s.sp - 1)) :
    s.popByte = .error (.fault (.ramAbsent (s.sp - 1))) := by
  unfold State.popByte
  simp only [pop_of_ramHas h0, res_bind_ok, pop_absent (s := s.popped) h1, res_bind_error]
  rfl

theorem pushByte_absent_first (v : BitVec 8) (h : ¬s.ramHas (s.sp + 1)) :
    s.pushByte v = .error (.fault (.ramAbsent (s.sp + 1))) := by
  unfold State.pushByte
  rw [push_absent _ h]
  rfl

/-- The second push of two stops one cell higher. -/
theorem pushed_push_absent (v v' : Nibble) (h : ¬s.ramHas (s.sp + 2)) :
    (s.pushed v).push v' = .error (.fault (.ramAbsent (s.sp + 2))) := by
  rw [add_two] at h ⊢
  exact push_absent (s := s.pushed v) v' h

theorem pushByte_absent_second (v : BitVec 8) (h1 : s.ramHas (s.sp + 1)) (h2 : ¬s.ramHas (s.sp + 2)) :
    s.pushByte v = .error (.fault (.ramAbsent (s.sp + 2))) := by
  unfold State.pushByte
  rw [push_of_ramHas _ h1, res_bind_ok, pushed_push_absent _ _ h2]

theorem fetchVia_absent_cell {r : PtrReg} {m : PtrMode} (hc : m.ea (s.ptr r) ≠ s.sp + 1) (hea : s.ramHas (m.ea (s.ptr r)))
    (h : ¬s.ramHas (s.sp + 1)) : s.fetchVia r m = .error (.fault (.ramAbsent (s.sp + 1))) := by
  unfold State.fetchVia
  simp only [hc, if_false, ramRead_of_ramHas hea, push_absent _ h, res_bind_ok, res_bind_error]

theorem storeVia_absent_cell {r : PtrReg} {m : PtrMode} (hc : m.ea (s.ptr r) ≠ s.sp) (hea : s.ramHas (m.ea (s.ptr r)))
    (h : ¬s.ramHas s.sp) : s.storeVia r m = .error (.fault (.ramAbsent s.sp)) := by
  have hpop := pop_absent (s := s.withRam (m.ea (s.ptr r)) s.tos) h
  unfold State.storeVia
  simp only [hc, if_false, ramWrite_of_ramHas _ hea, hpop, res_bind_ok, res_bind_error]
  rfl

/-! ## Unaligned entries -/

theorem exec_rsRead_unaligned (h : ¬rsAligned s.rp) :
    ∀ i ∈ [Instr.exit, .rti, .decr, .rCopy, .twoRCopy, .threeRCopy, .table], exec i s = .refused (.rpUnaligned s.rp) := by
  have read : ∀ {k}, finish (s.rsRead s.rp >>= k) = .refused (.rpUnaligned s.rp) :=
    finish_bind_of_refused (rsRead_unaligned h)
  have rpop : ∀ {k}, finish (s.rpop >>= k) = .refused (.rpUnaligned s.rp) := finish_bind_of_refused (rpop_unaligned h)
  simp only [List.forall_mem_cons]
  exact ⟨rpop, rpop, read, read, read, read, rpop, by simp⟩

/-! ## Absent cells of the Expression Stack -/

/-- Every instruction that takes elements asks for the cell at SP first. -/
theorem exec_take_absent (h : ¬s.ramHas s.sp) :
    ∀ i ∈ [Instr.add, .addc, .sub, .subb, .xor, .and, .or, .cmpEq, .cmpNe, .cmpLt, .cmpLe, .cmpGt,
      .cmpGe, .ccrStore, .swi, .outPort, .setSp, .setRp, .setX, .setY, .swap, .overCopy, .rot, .drop, .toR, .twoToR,
      .threeToR], exec i s = .fault (.ramAbsent s.sp) := by
  have take : ∀ {k}, finish (s.takeTwo >>= k) = .fault (.ramAbsent s.sp) := finish_bind_of_fault (takeTwo_absent h)
  have pop : ∀ {k}, finish (s.pop >>= k) = .fault (.ramAbsent s.sp) := finish_bind_of_fault (pop_absent h)
  have byte : ∀ {k}, finish (s.popByte >>= k) = .fault (.ramAbsent s.sp) := finish_bind_of_fault (popByte_absent_first h)
  have read : ∀ {k}, finish (s.ramRead s.sp >>= k) = .fault (.ramAbsent s.sp) := finish_bind_of_fault (ramRead_absent h)
  simp only [List.forall_mem_cons]
  exact ⟨take, take, take, take, take, take, take, take, take, take, take, take, take, pop, pop, pop, read, byte, byte, byte,
    read, read, read, pop, pop, pop, pop, by simp⟩

theorem exec_take_second_absent (h0 : s.ramHas s.sp) (h1 : ¬s.ramHas (s.sp - 1)) :
    ∀ i ∈ [Instr.swi, .outPort, .setRp, .setX, .setY, .rot, .twoToR, .threeToR],
      exec i s = .fault (.ramAbsent (s.sp - 1)) := by
  have pop : ∀ {k}, finish (s.popped.pop >>= k) = .fault (.ramAbsent (s.sp - 1)) :=
    finish_bind_of_fault (pop_absent (s := s.popped) h1)
  have byte : ∀ {k}, finish (s.popByte >>= k) = .fault (.ramAbsent (s.sp - 1)) :=
    finish_bind_of_fault (popByte_absent_second h0 h1)
  have read : ∀ {k}, finish (s.ramRead (s.sp - 1) >>= k) = .fault (.ramAbsent (s.sp - 1)) :=
    finish_bind_of_fault (ramRead_absent h1)
  have first := pop_of_ramHas h0
  simp only [List.forall_mem_cons]
  exact ⟨finish_bind_of_ok first pop, finish_bind_of_ok first pop, byte, byte, byte,
    finish_bind_of_ok (ramRead_of_ramHas h0) read, finish_bind_of_ok first pop, finish_bind_of_ok first pop, by simp⟩

theorem exec_take_third_absent (h0 : s.ramHas s.sp) (h1 : s.ramHas (s.sp - 1)) (h2 : ¬s.ramHas (s.sp - 2)) :
    exec .threeToR s = .fault (.ramAbsent (s.sp - 2)) := by
  rw [sub_two] at h2 ⊢
  exact finish_bind_of_ok (pop_of_ramHas h0) <| finish_bind_of_ok (pop_of_ramHas (s := s.popped) h1) <|
    finish_bind_of_fault (pop_absent (s := s.popped.popped) h2)

/-- TABLE, once it has read its entry and the byte there, pushes the byte. -/
theorem exec_table_of_pushByte {o : Host.Outcome State Fault Refusal} (hentry : s.rsHas s.rp) (hrom : s.romHas (s.rsAt s.rp))
    (h : finish (s.rpopped.pushByte (s.romAt (s.rsAt s.rp)) >>= fun t => t.rpop >>= fun r => .ok (r.2.jump r.1 3)) = o) :
    exec .table s = o :=
  finish_bind_of_ok (rpop_of_rsHas hentry) (finish_bind_of_ok (romRead_ok_iff.2 ⟨hrom, rfl⟩) h)

/-- Every instruction that puts elements there asks for the cell at SP + 1 first, once what it reads before is there. -/
theorem exec_put_absent (h : ¬s.ramHas (s.sp + 1)) :
    (∀ i ∈ [Instr.dup, .ccrFetch, .getSp, .getRp, .getX, .getY], exec i s = .fault (.ramAbsent (s.sp + 1))) ∧
    (∀ n, exec (.lit n) s = .fault (.ramAbsent (s.sp + 1))) ∧
    (s.ramHas s.sp → exec .overCopy s = .fault (.ramAbsent (s.sp + 1))) ∧
    (s.rsHas s.rp → (∀ i ∈ [Instr.rCopy, .twoRCopy, .threeRCopy], exec i s = .fault (.ramAbsent (s.sp + 1))) ∧
      (s.romHas (s.rsAt s.rp) → exec .table s = .fault (.ramAbsent (s.sp + 1)))) := by
  have push : ∀ {v k}, finish (s.push v >>= k) = .fault (.ramAbsent (s.sp + 1)) := finish_bind_of_fault (push_absent _ h)
  have byte : ∀ {v k}, finish (s.pushByte v >>= k) = .fault (.ramAbsent (s.sp + 1)) :=
    finish_bind_of_fault (pushByte_absent_first _ h)
  simp only [List.forall_mem_cons]
  refine ⟨⟨push, push, byte, byte, byte, byte, by simp⟩, fun _ => push,
    fun h0 => finish_bind_of_ok (ramRead_of_ramHas h0) push, fun hentry => ⟨?_, fun hrom => ?_⟩⟩
  · have read := rsRead_of_rsHas hentry
    exact ⟨finish_bind_of_ok read push, finish_bind_of_ok read push, finish_bind_of_ok read push, by simp⟩
  · exact exec_table_of_pushByte hentry hrom (finish_bind_of_fault (pushByte_absent_first (s := s.rpopped) _ h))

theorem exec_put_second_absent (h1 : s.ramHas (s.sp + 1)) (h2 : ¬s.ramHas (s.sp + 2)) :
    (∀ i ∈ [Instr.getSp, .getRp, .getX, .getY], exec i s = .fault (.ramAbsent (s.sp + 2))) ∧
    (s.rsHas s.rp → (∀ i ∈ [Instr.twoRCopy, .threeRCopy], exec i s = .fault (.ramAbsent (s.sp + 2))) ∧
      (s.romHas (s.rsAt s.rp) → exec .table s = .fault (.ramAbsent (s.sp + 2)))) := by
  have push : ∀ {v v' k}, finish ((s.pushed v).push v' >>= k) = .fault (.ramAbsent (s.sp + 2)) :=
    finish_bind_of_fault (pushed_push_absent _ _ h2)
  have byte : ∀ {v k}, finish (s.pushByte v >>= k) = .fault (.ramAbsent (s.sp + 2)) :=
    finish_bind_of_fault (pushByte_absent_second _ h1 h2)
  simp only [List.forall_mem_cons]
  refine ⟨⟨byte, byte, byte, byte, by simp⟩, fun hentry => ⟨?_, fun hrom => ?_⟩⟩
  · have read := rsRead_of_rsHas hentry
    exact ⟨finish_bind_of_ok read (finish_bind_of_ok (push_of_ramHas _ h1) push),
      finish_bind_of_ok read (finish_bind_of_ok (push_of_ramHas _ h1) push), by simp⟩
  · exact exec_table_of_pushByte hentry hrom (finish_bind_of_fault (pushByte_absent_second (s := s.rpopped) _ h1 h2))

theorem exec_put_third_absent (h1 : s.ramHas (s.sp + 1)) (h2 : s.ramHas (s.sp + 2)) (h3 : ¬s.ramHas (s.sp + 3))
    (hentry : s.rsHas s.rp) : exec .threeRCopy s = .fault (.ramAbsent (s.sp + 3)) := by
  have hsp : s.sp + 3 = s.sp + 1 + 2 := by bv_omega
  rw [add_two] at h2
  rw [hsp] at h3 ⊢
  exact finish_bind_of_ok (rsRead_of_rsHas hentry) <| finish_bind_of_ok (push_of_ramHas _ h1) <|
    finish_bind_of_ok (push_of_ramHas (s := s.pushed _) _ h2) <|
      finish_bind_of_fault (pushed_push_absent (s := s.pushed _) _ _ h3)

/-! ## Absent cells under X and Y -/

theorem exec_ptrFetch_absent (r : PtrReg) (m : PtrMode) (hc : m.ea (s.ptr r) ≠ s.sp + 1) :
    (¬s.ramHas (m.ea (s.ptr r)) → exec (ptrFetch r m) s = .fault (.ramAbsent (m.ea (s.ptr r)))) ∧
    (s.ramHas (m.ea (s.ptr r)) → ¬s.ramHas (s.sp + 1) → exec (ptrFetch r m) s = .fault (.ramAbsent (s.sp + 1))) := by
  rw [exec_ptrFetch]
  exact ⟨fun hea => finish_bind_of_fault (fetchVia_absent hc hea),
    fun hea h => finish_bind_of_fault (fetchVia_absent_cell hc hea h)⟩

theorem exec_ptrStore_absent (r : PtrReg) (m : PtrMode) (hc : m.ea (s.ptr r) ≠ s.sp) :
    (¬s.ramHas (m.ea (s.ptr r)) → exec (ptrStore r m) s = .fault (.ramAbsent (m.ea (s.ptr r)))) ∧
    (s.ramHas (m.ea (s.ptr r)) → ¬s.ramHas s.sp → exec (ptrStore r m) s = .fault (.ramAbsent s.sp)) := by
  rw [exec_ptrStore]
  exact ⟨fun hea => finish_bind_of_fault (storeVia_absent hc hea),
    fun hea h => finish_bind_of_fault (storeVia_absent_cell hc hea h)⟩

/-! ## Absent cells of Return Stack entries -/

theorem exec_rsRead_absent (h : s.rsAbsent s.rp) :
    ∀ i ∈ [Instr.exit, .rti, .decr, .rCopy, .twoRCopy, .threeRCopy, .table], FaultsInEntry s s.rp (exec i s) := by
  obtain ⟨b, hb, hn, e⟩ := rsRead_absent h
  have hpop : s.rpop = .error (.fault (.ramAbsent b)) := by
    unfold State.rpop
    rw [e]
    rfl
  have read : ∀ {k}, FaultsInEntry s s.rp (finish (s.rsRead s.rp >>= k)) := ⟨b, hb, hn, finish_bind_of_fault e⟩
  have rpop : ∀ {k}, FaultsInEntry s s.rp (finish (s.rpop >>= k)) := ⟨b, hb, hn, finish_bind_of_fault hpop⟩
  simp only [List.forall_mem_cons]
  exact ⟨rpop, rpop, read, read, read, read, rpop, by simp⟩

theorem exec_table_lower_absent (hentry : s.rsHas s.rp) (hrom : s.romHas (s.rsAt s.rp)) (h1 : s.ramHas (s.sp + 1))
    (h2 : s.ramHas (s.sp + 2)) (h : s.rsAbsent (s.rp - 4)) : FaultsInEntry s (s.rp - 4) (exec .table s) := by
  obtain ⟨b, hb, hn, e⟩ := rpop_absent (s := s.rpopped.pushedByte (s.romAt (s.rsAt s.rp))) h
  exact ⟨b, hb, hn, exec_table_of_pushByte hentry hrom <|
    finish_bind_of_ok (pushByte_of_ramHas (s := s.rpopped) _ h1 h2) (finish_bind_of_fault e)⟩

theorem exec_call_absent (h : s.rsAbsent (s.rp + 4)) :
    (∀ target, FaultsInEntry s (s.rp + 4) (exec (.call target) s)) ∧
    ∀ a, FaultsInEntry s (s.rp + 4) (exec (.scall a) s) := by
  have call : ∀ {w k}, FaultsInEntry s (s.rp + 4) (finish (s.rpush w .word >>= k)) := fun {w k} => by
    obtain ⟨b, hb, hn, e⟩ := rpush_absent w .word h
    exact ⟨b, hb, hn, finish_bind_of_fault e⟩
  exact ⟨fun _ => call, fun _ => call⟩

/-- The pops before the push to the Return Stack move neither RP nor the chip. -/
theorem exec_toR_absent (h : s.rsAbsent (s.rp + 4)) (h0 : s.ramHas s.sp) :
    FaultsInEntry s (s.rp + 4) (exec .toR s) ∧
    (s.ramHas (s.sp - 1) → FaultsInEntry s (s.rp + 4) (exec .twoToR s) ∧
      (s.ramHas (s.sp - 2) → FaultsInEntry s (s.rp + 4) (exec .threeToR s))) := by
  have first := pop_of_ramHas h0
  refine ⟨?one, fun h1 => ⟨?two, fun h2 => ?three⟩⟩
  case one =>
    obtain ⟨b, hb, hn, e⟩ := rpush_absent (s := s.popped) (0#8 ++ s.tos) .low4 h
    exact ⟨b, hb, hn, finish_bind_of_ok first (finish_bind_of_fault e)⟩
  case two =>
    obtain ⟨b, hb, hn, e⟩ := rpush_absent (s := s.popped.popped) (0#4 ++ s.popped.tos ++ s.tos) .low8 h
    exact ⟨b, hb, hn, finish_bind_of_ok first (finish_bind_of_ok (pop_of_ramHas (s := s.popped) h1)
      (finish_bind_of_fault e))⟩
  case three =>
    rw [sub_two] at h2
    obtain ⟨b, hb, hn, e⟩ :=
      rpush_absent (s := s.popped.popped.popped) (s.popped.popped.tos ++ s.popped.tos ++ s.tos) .word h
    exact ⟨b, hb, hn, finish_bind_of_ok first (finish_bind_of_ok (pop_of_ramHas (s := s.popped) h1)
      (finish_bind_of_ok (pop_of_ramHas (s := s.popped.popped) h2) (finish_bind_of_fault e)))⟩

theorem step_acknowledge_absent {k : Level} (h : s.rsAbsent (s.rp + 4)) (henv : s.env = []) (hdue : AcknowledgeDue s k) :
    FaultsInEntry s (s.rp + 4) (step s) := by
  obtain ⟨b, hb, hn, e⟩ := rpush_absent (s := { s with asleep := false, iar := s.iar ||| levelBit k }) s.pc .word h
  exact ⟨b, hb, hn, by rw [step_of_due henv hdue, acknowledge_error e]; rfl⟩

end

/-! ## The statements -/

/-- Settles O37: an access to an unaligned entry is refused before any of its cells is asked for. -/
theorem unalignedReturnStackIsRefused : Obligations.UnalignedReturnStackIsRefused := by
  intro s h
  have call : ∀ {w k}, finish (s.rpush w .word >>= k) = .refused (.rpUnaligned (s.rp + 4)) :=
    finish_bind_of_refused (rpush_unaligned _ _ h)
  refine ⟨exec_rsRead_unaligned h, fun _ => call, fun _ => call,
    fun h0 => ⟨?toR, fun h1 => ⟨?twoToR, fun h2 => ?threeToR⟩⟩, fun k henv hdue => ?acknowledge⟩
  case toR =>
    exact finish_bind_of_ok (pop_of_ramHas h0) (finish_bind_of_refused (rpush_unaligned (s := s.popped) _ _ h))
  case twoToR =>
    exact finish_bind_of_ok (pop_of_ramHas h0) <| finish_bind_of_ok (pop_of_ramHas (s := s.popped) h1) <|
      finish_bind_of_refused (rpush_unaligned (s := s.popped.popped) _ _ h)
  case threeToR =>
    rw [sub_two] at h2
    exact finish_bind_of_ok (pop_of_ramHas h0) <| finish_bind_of_ok (pop_of_ramHas (s := s.popped) h1) <|
      finish_bind_of_ok (pop_of_ramHas (s := s.popped.popped) h2) <|
        finish_bind_of_refused (rpush_unaligned (s := s.popped.popped.popped) _ _ h)
  case acknowledge =>
    rw [step_of_due henv hdue, acknowledge_error (rpush_unaligned _ _ (by exact h))]
    rfl

/-- Settles O40: access by access, in the order of the statement. -/
theorem absentMemoryFaults : Obligations.AbsentMemoryFaults := by
  refine ⟨fun s henv hnone hs => ⟨fun h => step_of_fetch_error henv hnone hs (fetch_absent_first h),
    fun h0 hlen h1 => step_of_fetch_error henv hnone hs (fetch_absent_second h0 hlen h1)⟩, fun s => ?_⟩
  refine ⟨?tableByte, exec_take_absent, exec_take_second_absent, exec_take_third_absent, exec_put_absent,
    exec_put_second_absent, exec_put_third_absent, ?fetches, ?stores, exec_rsRead_absent, exec_table_lower_absent, ?pushes⟩
  case tableByte =>
    exact fun hentry h => finish_bind_of_ok (rpop_of_rsHas hentry) (finish_bind_of_fault (romRead_absent (by exact h)))
  case fetches =>
    exact ⟨exec_ptrFetch_absent .x .indirect, exec_ptrFetch_absent .x .preIncrement, exec_ptrFetch_absent .x .postDecrement,
      fun a => exec_ptrFetch_absent .x (.direct a), exec_ptrFetch_absent .y .indirect,
      exec_ptrFetch_absent .y .preIncrement, exec_ptrFetch_absent .y .postDecrement,
      fun a => exec_ptrFetch_absent .y (.direct a)⟩
  case stores =>
    exact ⟨exec_ptrStore_absent .x .indirect, exec_ptrStore_absent .x .preIncrement, exec_ptrStore_absent .x .postDecrement,
      fun a => exec_ptrStore_absent .x (.direct a), exec_ptrStore_absent .y .indirect,
      exec_ptrStore_absent .y .preIncrement, exec_ptrStore_absent .y .postDecrement,
      fun a => exec_ptrStore_absent .y (.direct a)⟩
  case pushes =>
    intro h
    obtain ⟨hcall, hscall⟩ := exec_call_absent h
    exact ⟨hcall, hscall, exec_toR_absent h, fun k => step_acknowledge_absent h⟩

end Sys2Proof.Machine
end
